-- ==== Sys2Proof/Word.lean ====
section
/-!
DEFINITION. The machine word and the payload chunk.
Rules: 00_scope.md R8 (`WORD`, `CHUNK_WORDS`), 30_encoding.md R75.
-/

namespace Sys2Proof

/-- A 64-bit word: every address, instruction word, operand and payload word (R8, R12). -/
abbrev Word := BitVec 64

/-- A payload chunk: exactly 8 words (R75). -/
structure Chunk where
  c0 : Word
  c1 : Word
  c2 : Word
  c3 : Word
  c4 : Word
  c5 : Word
  c6 : Word
  c7 : Word
  deriving DecidableEq, Repr

/-- The words of a chunk in payload order. -/
def Chunk.toList (c : Chunk) : List Word :=
  [c.c0, c.c1, c.c2, c.c3, c.c4, c.c5, c.c6, c.c7]

end Sys2Proof
end

