-- ==== Sys2Proof/Config.lean ====
section
/-!
DEFINITION. What an implementation fixes, and the free values.
Rules: 00_scope.md R8 (constants), R9 (named parameters), R10 (well-formedness);
10_state.md R24 to R28 (the tables); 41_instruction_codec.md R108, R109 (opcode values).
-/

namespace Sys2Proof

/-- `CHUNK_WORDS` (R8): words of a payload chunk. -/
def chunkWords : Nat := 8

/-- `IMEM_WORDS` (R8): the capacity an instruction list must stay under. -/
def imemWords : Nat := 1024

/-- `OPC_LOAD_MUL` (R8, R108), the one opcode value the source gives. -/
def opcLoadMul : BitVec 6 := 2

/-- The scaling profiles, identifiers 1, 2 and 4 (R8). -/
inductive Profile where
  | x4
  | x8
  | x16
  deriving DecidableEq, Repr

/-- The address fields (R46). The normal address space has all but `pch` (R47). -/
inductive Field where
  | ch
  | pch
  | ra
  | bg
  | ba
  | ro
  | co
  deriving DecidableEq, Repr

/-- The reserved regions, in the order CSR_RD numbers them (R27, R135). -/
inductive Region where
  | hcr
  | haib
  | dnc
  | imem
  | dm0
  | dm1
  | dm2
  | dm3
  deriving DecidableEq, Repr

/-- A reserved region's bank-group and bank coordinates (R27). -/
structure Coord where
  bg : Nat
  ba : Nat
  deriving DecidableEq, Repr, Inhabited

/-- The constant table of one profile (R24): counts, granularity exponent, number of data-memory
regions and region coordinates. -/
structure ProfileTable where
  nCh : Nat
  nPch : Nat
  nRa : Nat
  nBg : Nat
  nBa : Nat
  nRo : Nat
  nCo : Nat
  g : Nat
  nDm : Nat
  hcr : Coord
  haib : Coord
  dnc : Coord
  imem : Coord
  dm0 : Coord
  dm1 : Coord
  dm2 : Coord
  dm3 : Coord
  deriving DecidableEq, Repr, Inhabited

/-- `N_x[p]` (R24). -/
def ProfileTable.count (t : ProfileTable) : Field → Nat
  | .ch => t.nCh
  | .pch => t.nPch
  | .ra => t.nRa
  | .bg => t.nBg
  | .ba => t.nBa
  | .ro => t.nRo
  | .co => t.nCo

/-- `W_x[p] = log2(N_x[p])` (R25). -/
def ProfileTable.width (t : ProfileTable) (f : Field) : Nat := Nat.log2 (t.count f)

/-- `(REGION_BG[p][r], REGION_BA[p][r])` (R27). -/
def ProfileTable.region (t : ProfileTable) : Region → Coord
  | .hcr => t.hcr
  | .haib => t.haib
  | .dnc => t.dnc
  | .imem => t.imem
  | .dm0 => t.dm0
  | .dm1 => t.dm1
  | .dm2 => t.dm2
  | .dm3 => t.dm3

/-- The lane count `L = N_CH * N_PCH` (R28). -/
def ProfileTable.lanes (t : ProfileTable) : Nat := t.nCh * t.nPch

/-- The normal constant table, the same under every profile (R26). -/
structure NormTable where
  nCh : Nat
  nRa : Nat
  nBg : Nat
  nBa : Nat
  nRo : Nat
  nCo : Nat
  gn : Nat
  deriving DecidableEq, Repr, Inhabited

/-- `NN_x` (R26). The normal space has no pseudo-channel (R47): a count of 1 gives it no bits. -/
def NormTable.count (t : NormTable) : Field → Nat
  | .ch => t.nCh
  | .pch => 1
  | .ra => t.nRa
  | .bg => t.nBg
  | .ba => t.nBa
  | .ro => t.nRo
  | .co => t.nCo

/-- `WN_x = log2(NN_x)` (R26). -/
def NormTable.width (t : NormTable) (f : Field) : Nat := Nat.log2 (t.count f)

/-- The NDP opcode values that are parameters (R108); `LOAD_MUL` is `opcLoadMul`. -/
structure NdpOpcodes where
  scaleAdd : BitVec 6
  wbd : BitVec 6
  loop : BitVec 6
  exit : BitVec 6
  selfExecOn : BitVec 6
  selfExecOff : BitVec 6
  vred : BitVec 6
  sred : BitVec 6
  deriving DecidableEq, Repr, Inhabited

/-- All nine NDP opcode values (R108). -/
def NdpOpcodes.toList (o : NdpOpcodes) : List (BitVec 6) :=
  [opcLoadMul, o.scaleAdd, o.wbd, o.loop, o.exit, o.selfExecOn, o.selfExecOff, o.vred, o.sred]

/-- The access-descriptor opcode values (R109). -/
structure AccOpcodes where
  rd : BitVec 4
  wr : BitVec 4
  bar : BitVec 4
  wait : BitVec 4
  loopStart : BitVec 4
  loopEnd : BitVec 4
  waitRes : BitVec 4
  done : BitVec 4
  deriving DecidableEq, Repr, Inhabited

/-- All eight access opcode values (R109). -/
def AccOpcodes.toList (o : AccOpcodes) : List (BitVec 4) :=
  [o.rd, o.wr, o.bar, o.wait, o.loopStart, o.loopEnd, o.waitRes, o.done]

/-- A parameter set (R9): the tables of the three profiles, the normal table, the opcode values. -/
structure Params where
  p1 : ProfileTable
  p2 : ProfileTable
  p4 : ProfileTable
  norm : NormTable
  ndpOpc : NdpOpcodes
  accOpc : AccOpcodes
  deriving DecidableEq, Repr, Inhabited

/-- `P[p]` (R24). -/
def Params.profile (q : Params) : Profile → ProfileTable
  | .x4 => q.p1
  | .x8 => q.p2
  | .x16 => q.p4

/-- A count is a power of two, at least 1 (R10), and a 64-bit value (R135). -/
def countOk (n : Nat) : Bool := n == 2 ^ Nat.log2 n && n < 2 ^ 64

/-- Every NDP field, in the packet's operand order (R80). -/
def ndpFields : List Field := [.ch, .pch, .ra, .bg, .ba, .ro, .co]

/-- Every normal field, in the packet's operand order (R80). -/
def normFields : List Field := [.ch, .ra, .bg, .ba, .ro, .co]

/-- Every region, in CSR order (R135). -/
def regions : List Region := [.hcr, .haib, .dnc, .imem, .dm0, .dm1, .dm2, .dm3]

/-- The conditions of R9 and R10 on one profile's table. -/
def ProfileTable.wellFormed (t : ProfileTable) : Bool :=
  ndpFields.all (fun f => countOk (t.count f)) && decide (t.g ≤ 63) &&
    decide (t.g + (ndpFields.map t.width).sum ≤ 64) && decide (1 ≤ t.nDm) && decide (t.nDm ≤ 4) &&
    regions.all (fun r => decide ((t.region r).bg < t.nBg) && decide ((t.region r).ba < t.nBa))

/-- The conditions of R10 on the normal table. -/
def NormTable.wellFormed (t : NormTable) : Bool :=
  normFields.all (fun f => countOk (t.count f)) && decide (t.gn + (normFields.map t.width).sum ≤ 64)

/-- A well-formed parameter set (R10): the opcode values are distinct, the parameters of `ndpOpc`
then being none of them `opcLoadMul`, which stands in the list. -/
def Params.wellFormed (q : Params) : Bool :=
  q.p1.wellFormed && q.p2.wellFormed && q.p4.wellFormed && q.norm.wellFormed &&
    decide q.ndpOpc.toList.Nodup && decide q.accOpc.toList.Nodup

/-- The block's constant tables: a well-formed parameter set. An ill-formed set makes no `Tables`,
which is how the model refuses it (R10). -/
structure Tables where
  params : Params
  ok : params.wellFormed = true
  deriving DecidableEq, Repr

/-- The tables a parameter set makes; `none` refuses an ill-formed set (R10). -/
def Tables.ofParams (q : Params) : Option Tables :=
  if h : q.wellFormed = true then some ⟨q, h⟩ else none

/-- `P[p]` (R24). -/
def Tables.profile (t : Tables) (p : Profile) : ProfileTable := t.params.profile p

/-- A table of counts 1 and exponent 0. -/
def ProfileTable.least : ProfileTable :=
  ⟨1, 1, 1, 1, 1, 1, 1, 0, 1, ⟨0, 0⟩, ⟨0, 0⟩, ⟨0, 0⟩, ⟨0, 0⟩, ⟨0, 0⟩, ⟨0, 0⟩, ⟨0, 0⟩, ⟨0, 0⟩⟩

/-- The least parameter set. It stands for the tables only where the set given is ill-formed, which
R10 gives no meaning. DESIGN CHOICE (log entry 2), safe. -/
def Params.least : Params :=
  ⟨.least, .least, .least, ⟨1, 1, 1, 1, 1, 1, 0⟩, ⟨0, 1, 3, 4, 5, 6, 7, 8⟩, ⟨0, 1, 2, 3, 4, 5, 6, 7⟩⟩

/-- The parameter values R9 leaves open (D8, D9, D12, D28). -/
opaque Config.givenParams : Params

/-- The block's tables: any well-formed parameter set (R10, log entry 2). -/
def Config.tables : Tables := (Tables.ofParams Config.givenParams).getD ⟨.least, by decide⟩

/-- The host's draw for each record it has not decided yet (60_exceptions.md R147): whether the sink
accepts. A free value (log entry 7). -/
opaque Config.sinkAccepts : Nat → Bool

/-- `PAYLOAD_BYTE_ORDER` (R9, 20_memory.md R52): the place in the 64-byte burst of byte `n % 8`
(0 the least significant) of payload word `n / 8`. Consumer-side; no rule of the block reads it. R52
leaves both the bytes a word occupies and their order within it open; that it is a permutation, so
that no two payload bytes share a place and every byte of the burst is a payload byte, is the model's
DESIGN CHOICE (log entry 15), safe. -/
opaque Config.payloadByteOrder : Equiv.Perm (Fin 64)

/-- `LOOP_COUNT_BIAS` (70_reset_and_hazards.md R165): `true` for 1, `false` for 0. Host-side; no rule
of the block reads it (log entry 15). -/
opaque Config.loopCountBias : Bool

end Sys2Proof
end

