-- ==== Sys2Proof/Machine/Bits.lean ====
section
/-!
DEFINITION. The bit-field helpers of the notation.
Rules: 00_scope.md R11, R12, R13; 30_encoding.md R77.
-/

namespace Sys2Proof

/-- `mask(w) = 2^w - 1`, with `mask(0) = 0` (R12). -/
def mask (w : Nat) : Word := BitVec.ofNat 64 (2 ^ w - 1)

/-- `Place(v, w, lo) = (v & mask(w)) << lo` (R13, R77). -/
def place (v : Word) (w lo : Nat) : Word := (v &&& mask w) <<< lo

/-- `Extract(x, w, lo) = (x >> lo) & mask(w)` (R13, R77). -/
def extract (x : Word) (w lo : Nat) : Word := (x >>> lo) &&& mask w

/-- `x[lo + w - 1 : lo]` at its own width (R11). -/
def slice (x : Word) (lo w : Nat) : BitVec w := x.extractLsb' lo w

/-- `zext_64` (R12). -/
def zext {w : Nat} (v : BitVec w) : Word := v.setWidth 64

/-- A condition as a one-bit value in a word (R92, R101). -/
def bit (b : Bool) : Word := if b then 1 else 0

end Sys2Proof
end

