-- ==== Sys2Proof/Syntax.lean ====
section
/-!
DEFINITION. The instructions: one constructor for each row of spec/opcode_table.json.
Rules: 30_encoding.md R80 (commands), R71 and R74 (the two instruction-word formats),
41_instruction_codec.md R108, R109 (the named instructions).
-/

namespace Sys2Proof

/-- The seven NDP address operands, in packet order (R80). -/
structure Coords where
  ch : Word
  pch : Word
  ra : Word
  bg : Word
  ba : Word
  ro : Word
  co : Word
  deriving DecidableEq, Repr

/-- The six normal address operands, in packet order (R80). -/
structure NormCoords where
  ch : Word
  ra : Word
  bg : Word
  ba : Word
  ro : Word
  co : Word
  deriving DecidableEq, Repr

/-- The six base words of PACK_LINEAR and PACK_INTERLEAVED (R80). -/
structure Base where
  ch : Word
  pch : Word
  ra : Word
  bg : Word
  ba : Word
  ro : Word
  deriving DecidableEq, Repr

/-- The seven operands of ENC_NDP_INST (R80). -/
structure NdpOperands where
  opc : Word
  osz : Word
  laneId : Word
  bg : Word
  ba : Word
  loopCount : Word
  jumpTarget : Word
  deriving DecidableEq, Repr

/-- The ten operands of ENC_ACC_INST (R80). -/
structure AccOperands where
  opc : Word
  osz : Word
  ch : Word
  pch : Word
  bg : Word
  ba : Word
  ro : Word
  co : Word
  id : Word
  aux : Word
  deriving DecidableEq, Repr

/-- The fields of an NDP instruction word other than its opcode and loop fields (R71). -/
structure NdpFields where
  osz : BitVec 7
  laneId : BitVec 3
  bg : BitVec 3
  ba : BitVec 2
  deriving DecidableEq, Repr

/-- The fields of an access-descriptor word other than its opcode (R74). -/
structure AccFields where
  osz : BitVec 7
  ch : BitVec 3
  pch : BitVec 2
  bg : BitVec 3
  ba : BitVec 2
  ro : BitVec 18
  co : BitVec 7
  id : BitVec 3
  aux : BitVec 15
  deriving DecidableEq, Repr

/-- The instructions of the opcode table. The first sixteen are the host's commands (R79). The others
are the named instruction words of the downstream device. To the block each of those is an operation
of its Instruction Codec: the ENC_NDP_INST or ENC_ACC_INST whose opcode operand is written by that
name (R85), which is the rule the table gives the row (R100, R102; log entry 11). -/
inductive Instr where
  | cfgSet (profile : BitVec 3) (ndpScheme normScheme : BitVec 2) (jtw : BitVec 4)
  | csrRd (sel : BitVec 4)
  | faultClr
  | encNdpAddr (c : Coords)
  | decNdpAddr (addr : Word)
  | encNormAddr (c : NormCoords)
  | decNormAddr (addr : Word)
  | encNdpInst (o : NdpOperands)
  | decNdpInst (word : Word)
  | encAccInst (o : AccOperands)
  | decAccInst (word : Word)
  | packLinear (b : Base) (startCol : Word) (words : List Word)
  | packInterleaved (b : Base) (startCol : BitVec 7) (lists : List (List Word))
  | packStart (c : Coords) (mask : Word)
  | emitLd (addr : Word)
  | emitSt (addr : Word) (c : Chunk)
  | loadMul (f : NdpFields)
  | scaleAdd (f : NdpFields)
  | wbd (f : NdpFields)
  | exit (f : NdpFields)
  | selfExecOn (f : NdpFields)
  | selfExecOff (f : NdpFields)
  | vred (f : NdpFields)
  | sred (f : NdpFields)
  | loop (f : NdpFields) (loopCount jumpTarget : BitVec 10)
  | rd (f : AccFields)
  | wr (f : AccFields)
  | bar (f : AccFields)
  | wait (f : AccFields)
  | loopStart (f : AccFields)
  | loopEnd (f : AccFields)
  | waitRes (f : AccFields)
  | done (f : AccFields)
  deriving DecidableEq, Repr

end Sys2Proof
end

