-- ==== Sys2Proof/Machine/Operands.lean ====
section
/-!
DEFINITION. Every operand form: the address layouts, the two instruction-word formats, the payload
chunk. Each encoder assembles its fields by `place` and each decoder reads them by `extract` (R77):
nothing is checked, scaled or sign-extended, and an oversized value is masked silently (R149).
Rules: 30_encoding.md R61 to R77; 40_address_codec.md R90 to R94; 41_instruction_codec.md R100 to
R105; 42_payload_packer.md R110, R117.
-/

namespace Sys2Proof

/-- The operand of a field (R91). -/
def Coords.get (c : Coords) : Field → Word
  | .ch => c.ch
  | .pch => c.pch
  | .ra => c.ra
  | .bg => c.bg
  | .ba => c.ba
  | .ro => c.ro
  | .co => c.co

/-- The operand of a normal field; there is no pseudo-channel operand (R93). -/
def NormCoords.get (c : NormCoords) : Field → Word
  | .ch => c.ch
  | .pch => 0
  | .ra => c.ra
  | .bg => c.bg
  | .ba => c.ba
  | .ro => c.ro
  | .co => c.co

/-- The base words with a column: the operands of the packer's `EncNdp`. -/
def Base.at (b : Base) (col : Word) : Coords := ⟨b.ch, b.pch, b.ra, b.bg, b.ba, b.ro, col⟩

/-- The words of a decoded NDP address, in CH, PCH, RA, BG, BA, RO, CO order (R92). -/
def Coords.words (c : Coords) : List Word := [c.ch, c.pch, c.ra, c.bg, c.ba, c.ro, c.co]

/-- The words of a decoded normal address, in CH, RA, BG, BA, RO, CO order (R94). -/
def NormCoords.words (c : NormCoords) : List Word := [c.ch, c.ra, c.bg, c.ba, c.ro, c.co]

/-- The words of a decoded NDP instruction, in R101's order. -/
def NdpOperands.words (o : NdpOperands) : List Word :=
  [o.opc, o.osz, o.laneId, o.bg, o.ba, o.loopCount, o.jumpTarget]

/-- The words of a decoded access descriptor, in R103's order. -/
def AccOperands.words (o : AccOperands) : List Word :=
  [o.opc, o.osz, o.ch, o.pch, o.bg, o.ba, o.ro, o.co, o.id, o.aux]

/-- The region exists under the profile: the four named ones, and the data memories below `N_DM`
(R27, R135). -/
def ProfileTable.present (t : ProfileTable) : Region → Bool
  | .hcr | .haib | .dnc | .imem => true
  | .dm0 => 0 < t.nDm
  | .dm1 => 1 < t.nDm
  | .dm2 => 2 < t.nDm
  | .dm3 => 3 < t.nDm

end Sys2Proof

namespace Sys2Proof.Machine

/-- The three field orderings, by the part of the scheme names the NDP and normal schemes share
(R62 to R64, R68 to R70). Scheme code 3 is reserved and has none (R65). -/
inductive Scheme where
  | rowColBankBankgroupRank
  | rowBankBankgroupRankCol
  | bankRowColBankgroupRank
  deriving DecidableEq, Repr

/-- `NdpOrder(s)`: the NDP fields, least significant first (R90). -/
def ndpOrder : Scheme → List Field
  | .rowColBankBankgroupRank => [.ch, .pch, .ra, .bg, .ba, .co, .ro]
  | .rowBankBankgroupRankCol => [.ch, .pch, .co, .ra, .bg, .ba, .ro]
  | .bankRowColBankgroupRank => [.ch, .pch, .ra, .bg, .co, .ro, .ba]

/-- `NormOrder(s)`: the normal fields, least significant first (R90). -/
def normOrder : Scheme → List Field
  | .rowColBankBankgroupRank => [.ch, .ra, .bg, .ba, .co, .ro]
  | .rowBankBankgroupRankCol => [.ch, .co, .ra, .bg, .ba, .ro]
  | .bankRowColBankgroupRank => [.ch, .ra, .bg, .co, .ro, .ba]

/-- The encoders' loop (R91, R93): the fields of an order placed from bit `pos` upwards. -/
def encodeFields (width : Field → Nat) (v : Field → Word) : List Field → Nat → Word
  | [], _ => 0
  | f :: fs, pos => place (v f) (width f) pos ||| encodeFields width v fs (pos + width f)

/-- `lo(f)` (R61): the bit offset of a field in an order placed from bit `pos` upwards. -/
def fieldLo (width : Field → Nat) : List Field → Nat → Field → Nat
  | [], pos, _ => pos
  | g :: gs, pos, f => if g = f then pos else fieldLo width gs (pos + width g) f

/-- The bit offset just above an order's top field (R61). -/
def fieldsTop (width : Field → Nat) (order : List Field) (pos : Nat) : Nat :=
  pos + (order.map width).sum

/-- ENC_NDP_ADDR's address (R91), `EncNdp` of the packer. -/
def encNdp (t : ProfileTable) (s : Scheme) (c : Coords) : Word :=
  encodeFields t.width c.get (ndpOrder s) t.g

/-- One decoded NDP field (R92). -/
def decNdpField (t : ProfileTable) (s : Scheme) (a : Word) (f : Field) : Word :=
  extract a (t.width f) (fieldLo t.width (ndpOrder s) t.g f)

/-- DEC_NDP_ADDR's fields (R92). -/
def decNdp (t : ProfileTable) (s : Scheme) (a : Word) : Coords :=
  ⟨decNdpField t s a .ch, decNdpField t s a .pch, decNdpField t s a .ra, decNdpField t s a .bg,
    decNdpField t s a .ba, decNdpField t s a .ro, decNdpField t s a .co⟩

/-- ENC_NORM_ADDR's address (R93). -/
def encNorm (t : NormTable) (s : Scheme) (c : NormCoords) : Word :=
  encodeFields t.width c.get (normOrder s) t.gn

/-- One decoded normal field (R94). -/
def decNormField (t : NormTable) (s : Scheme) (a : Word) (f : Field) : Word :=
  extract a (t.width f) (fieldLo t.width (normOrder s) t.gn f)

/-- DEC_NORM_ADDR's fields (R94). -/
def decNorm (t : NormTable) (s : Scheme) (a : Word) : NormCoords :=
  ⟨decNormField t s a .ch, decNormField t s a .ra, decNormField t s a .bg, decNormField t s a .ba,
    decNormField t s a .ro, decNormField t s a .co⟩

/-- The opcode an ENC_NDP_INST operand names is LOOP: its low 6 bits are OPC_LOOP (R104). -/
def opcIsLoop (loopOpc : BitVec 6) (opc : Word) : Bool := slice opc 0 6 == loopOpc

/-- ENC_NDP_INST's word (R71, R100). -/
def encNdpWord (loopOpc : BitVec 6) (jtw : Nat) (o : NdpOperands) : Word :=
  let w := place o.opc 6 58 ||| place o.osz 7 51 ||| place o.laneId 3 48 ||| place o.bg 3 45 |||
    place o.ba 2 43
  if opcIsLoop loopOpc o.opc then w ||| place o.loopCount 10 32 ||| place o.jumpTarget jtw 0 else w

/-- The opcode field of an NDP word is OPC_LOOP (R72, R101). -/
def wordIsLoop (loopOpc : BitVec 6) (w : Word) : Bool := slice w 58 6 == loopOpc

/-- DEC_NDP_INST's fields (R101): a plain word's loop fields read as 0. -/
def decNdpWord (loopOpc : BitVec 6) (jtw : Nat) (w : Word) : NdpOperands :=
  ⟨extract w 6 58, extract w 7 51, extract w 3 48, extract w 3 45, extract w 2 43,
    if wordIsLoop loopOpc w then extract w 10 32 else 0,
    if wordIsLoop loopOpc w then extract w jtw 0 else 0⟩

/-- ENC_ACC_INST's word (R74, R102). -/
def encAccWord (o : AccOperands) : Word :=
  place o.opc 4 60 ||| place o.osz 7 53 ||| place o.ch 3 50 ||| place o.pch 2 48 |||
    place o.bg 3 45 ||| place o.ba 2 43 ||| place o.ro 18 25 ||| place o.co 7 18 |||
    place o.id 3 15 ||| place o.aux 15 0

/-- DEC_ACC_INST's fields (R74, R103). -/
def decAccWord (w : Word) : AccOperands :=
  ⟨extract w 4 60, extract w 7 53, extract w 3 50, extract w 2 48, extract w 3 45, extract w 2 43,
    extract w 18 25, extract w 7 18, extract w 3 15, extract w 15 0⟩

/-- `Chunk(list, i)` (R110): eight words from position `i`, 0 after the last. -/
def chunk (ws : List Word) (i : Nat) : Chunk :=
  ⟨ws.getD i 0, ws.getD (i + 1) 0, ws.getD (i + 2) 0, ws.getD (i + 3) 0, ws.getD (i + 4) 0,
    ws.getD (i + 5) 0, ws.getD (i + 6) 0, ws.getD (i + 7) 0⟩

/-- PACK_START's word `w` (R117): mask bit `w` for a lane that exists, else 0. -/
def startWord (m : Word) (lanes w : Nat) : Word := if w < lanes then bit (m.getLsbD w) else 0

/-- PACK_START's payload (R117). -/
def startChunk (m : Word) (lanes : Nat) : Chunk :=
  ⟨startWord m lanes 0, startWord m lanes 1, startWord m lanes 2, startWord m lanes 3,
    startWord m lanes 4, startWord m lanes 5, startWord m lanes 6, startWord m lanes 7⟩

end Sys2Proof.Machine
end

