-- ==== Sys2Proof/Machine/Flags.lean ====
section
/-!
DEFINITION. The four response flags. They are bits of one response and never state.
Rules: 10_state.md R32; 30_encoding.md R80 (the flags words), R87; 40_address_codec.md R92, R94;
41_instruction_codec.md R101.
-/

namespace Sys2Proof.Machine

/-- `LOW_NZ`: a nonzero bit below the granularity exponent `g` (R92). -/
def lowNz (a : Word) (g : Nat) : Bool := extract a g 0 != 0

/-- `HIGH_NZ`: a nonzero bit at or above `top`, the offset above the top field (R92). -/
def highNz (a : Word) (top : Nat) : Bool := a >>> top != 0

/-- `RSVD_NZ` (R101): in a LOOP word bit 42 or [31:JTW], in a plain word any of [42:0]. -/
def rsvdNz (loopOpc : BitVec 6) (jtw : Nat) (w : Word) : Bool :=
  if wordIsLoop loopOpc w then extract w 1 42 != 0 || extract w (32 - jtw) jtw != 0
  else extract w 43 0 != 0

/-- A flags word: one flag at bit 1, the other at bit 0 (R80). -/
def flagsWord (high low : Bool) : Word := bit high <<< 1 ||| bit low

/-- DEC_NDP_ADDR's flags word (R92). -/
def ndpFlags (t : ProfileTable) (s : Scheme) (a : Word) : Word :=
  flagsWord (highNz a (fieldsTop t.width (ndpOrder s) t.g)) (lowNz a t.g)

/-- DEC_NORM_ADDR's flags word (R94). -/
def normFlags (t : NormTable) (s : Scheme) (a : Word) : Word :=
  flagsWord (highNz a (fieldsTop t.width (normOrder s) t.gn)) (lowNz a t.gn)

/-- DEC_NDP_INST's flags word (R101): IS_LOOP at bit 0, RSVD_NZ at bit 1. -/
def instFlags (loopOpc : BitVec 6) (jtw : Nat) (w : Word) : Word :=
  flagsWord (rsvdNz loopOpc jtw w) (wordIsLoop loopOpc w)

end Sys2Proof.Machine
end

