-- ==== Sys2Proof/WellFormed.lean ====
section
/-!
DEFINITION. Which instructions have a packet.
Rules: 30_encoding.md R80 (the widths of N, NL and the count words).
Every other field has its width in its type.
-/

namespace Sys2Proof

/-- PACK_LINEAR's count fits header [31:0]; PACK_INTERLEAVED's lane count fits header [15:8] and each
of its lists' lengths a count word (R80). -/
abbrev Instr.WellFormed : Instr → Prop
  | .packLinear _ _ words => words.length < 2 ^ 32
  | .packInterleaved _ _ lists => lists.length < 2 ^ 8 ∧ ∀ l ∈ lists, l.length < 2 ^ 64
  | .cfgSet _ _ _ _ | .csrRd _ | .faultClr | .encNdpAddr _ | .decNdpAddr _ | .encNormAddr _
  | .decNormAddr _ | .encNdpInst _ | .decNdpInst _ | .encAccInst _ | .decAccInst _
  | .packStart _ _ | .emitLd _ | .emitSt _ _ | .loadMul _ | .scaleAdd _ | .wbd _ | .exit _
  | .selfExecOn _ | .selfExecOff _ | .vred _ | .sred _ | .loop _ _ _ | .rd _ | .wr _ | .bar _
  | .wait _ | .loopStart _ | .loopEnd _ | .waitRes _ | .done _ => True

end Sys2Proof
end

