-- ==== Sys2Proof/Decode.lean ====
section
/-!
DEFINITION. The decoder of the command input, and the encoder.
Rules: 30_encoding.md R78 to R83 (packets), R71 and R74 (instruction words), R85 (named opcodes);
41_instruction_codec.md R108, R109 (opcode values); 60_exceptions.md R158 (incomplete packets).
-/

namespace Sys2Proof

/-! ### Packets -/

/-- The command code, header [63:60] (R78). -/
def headerCmd (h : Word) : BitVec 4 := slice h 60 4

/-- PACK_LINEAR's N, header [31:0] (R80). -/
def headerN (h : Word) : Nat := (slice h 0 32).toNat

/-- PACK_INTERLEAVED's NL, header [15:8] (R80). -/
def headerNl (h : Word) : Nat := (slice h 8 8).toNat

/-- The header bits in [59:0] that R80 gives no field (R82). -/
def reservedMask : BitVec 4 → Word
  | 0x1 => 0x0FFFFFFFFFFFF008
  | 0x2 => 0x0FFFFFFFFFFFFFF0
  | 0xC => 0x0FFFFFFF00000000
  | 0xD => 0x0FFFFFFFFFFF0080
  | 0xF => 0x0FFFFFFFFFFFFFFE
  | _ => 0x0FFFFFFFFFFFFFFF

/-- The header of a command ILLEGAL_COMMAND meets at step 2 of R141: CMD 0, or a nonzero reserved
bit (R82). -/
def headerIllegal (h : Word) : Bool :=
  headerCmd h == 0 || h &&& reservedMask (headerCmd h) != 0

/-- The length in words of the packet at the front of the input (R81). `none` where the words are too
few to tell: no header, or PACK_INTERLEAVED's count words, if it has any, not all there. -/
def packetLength : List Word → Option Nat
  | [] => none
  | h :: ops =>
    match headerCmd h with
    | 0x4 | 0x8 => some 8
    | 0x5 | 0x7 | 0x9 | 0xB => some 2
    | 0x6 => some 7
    | 0xA => some 11
    | 0xC => some (8 + headerN h)
    | 0xD =>
      if headerNl h ≠ 0 ∧ ops.length < 6 + headerNl h then none
      else some (7 + headerNl h + (((ops.drop 6).take (headerNl h)).map BitVec.toNat).sum)
    | 0xE => some 9
    | 0xF => some (if slice h 0 1 = 0 then 2 else 10)
    | _ => some 1

/-- PACK_INTERLEAVED's lists: lane 0's words first, each lane as many as its count (R80). -/
def splitLists : List Nat → List Word → List (List Word)
  | [], _ => []
  | n :: ns, ws => ws.take n :: splitLists ns (ws.drop n)

/-- The command a legal header and the operand words of a whole packet stand for (R80). -/
def parsePacket (h : Word) (ops : List Word) : Option Instr :=
  match headerCmd h, ops with
  | 0x1, [] => some (.cfgSet (slice h 0 3) (slice h 4 2) (slice h 6 2) (slice h 8 4))
  | 0x2, [] => some (.csrRd (slice h 0 4))
  | 0x3, [] => some .faultClr
  | 0x4, [ch, pch, ra, bg, ba, ro, co] => some (.encNdpAddr ⟨ch, pch, ra, bg, ba, ro, co⟩)
  | 0x5, [a] => some (.decNdpAddr a)
  | 0x6, [ch, ra, bg, ba, ro, co] => some (.encNormAddr ⟨ch, ra, bg, ba, ro, co⟩)
  | 0x7, [a] => some (.decNormAddr a)
  | 0x8, [opc, osz, lane, bg, ba, lc, jt] => some (.encNdpInst ⟨opc, osz, lane, bg, ba, lc, jt⟩)
  | 0x9, [w] => some (.decNdpInst w)
  | 0xA, [opc, osz, ch, pch, bg, ba, ro, co, id, aux] =>
    some (.encAccInst ⟨opc, osz, ch, pch, bg, ba, ro, co, id, aux⟩)
  | 0xB, [w] => some (.decAccInst w)
  | 0xC, ch :: pch :: ra :: bg :: ba :: ro :: col :: ws =>
    some (.packLinear ⟨ch, pch, ra, bg, ba, ro⟩ col ws)
  | 0xD, ch :: pch :: ra :: bg :: ba :: ro :: tail =>
    some (.packInterleaved ⟨ch, pch, ra, bg, ba, ro⟩ (slice h 0 7)
      (splitLists ((tail.take (headerNl h)).map BitVec.toNat) (tail.drop (headerNl h))))
  | 0xE, [ch, pch, ra, bg, ba, ro, co, m] => some (.packStart ⟨ch, pch, ra, bg, ba, ro, co⟩ m)
  | 0xF, [a] => some (.emitLd a)
  | 0xF, [a, c0, c1, c2, c3, c4, c5, c6, c7] => some (.emitSt a ⟨c0, c1, c2, c3, c4, c5, c6, c7⟩)
  | _, _ => none

/-- What stands at the front of the command input. -/
inductive Decoded where
  /-- No word: the block is idle (60_exceptions.md R156). -/
  | empty
  /-- A packet not all of whose words have arrived (R158). -/
  | incomplete
  /-- A whole packet whose header is illegal (R82), and the words after it. -/
  | illegal (header : Word) (rest : List Word)
  /-- A whole packet of a command, and the words after it. -/
  | command (i : Instr) (rest : List Word)
  deriving DecidableEq, Repr

/-- The decoder, total on any words. A packet is read only when it is whole (R158); an illegal
header's packet has the length R81 gives its CMD (R82). -/
def decode (ws : List Word) : Decoded :=
  match ws with
  | [] => .empty
  | h :: ops =>
    match packetLength (h :: ops) with
    | none => .incomplete
    | some n =>
      if ops.length + 1 < n then .incomplete
      else if headerIllegal h then .illegal h (ops.drop (n - 1))
      else
        match parsePacket h (ops.take (n - 1)) with
        | some i => .command i (ops.drop (n - 1))
        | none => .illegal h (ops.drop (n - 1))

/-! ### Named instruction words -/

/-- ENC_NDP_INST's operands for an instruction written by its opcode's name (R85). -/
def NdpFields.operands (f : NdpFields) (opc : BitVec 6) (loopCount jumpTarget : BitVec 10) :
    NdpOperands :=
  ⟨zext opc, zext f.osz, zext f.laneId, zext f.bg, zext f.ba, zext loopCount, zext jumpTarget⟩

/-- ENC_ACC_INST's operands for a descriptor written by its opcode's name (R85). -/
def AccFields.operands (f : AccFields) (opc : BitVec 4) : AccOperands :=
  ⟨zext opc, zext f.osz, zext f.ch, zext f.pch, zext f.bg, zext f.ba, zext f.ro, zext f.co,
    zext f.id, zext f.aux⟩

/-- The command that stands for an instruction: itself, or for a named instruction word the encode
command with the name's opcode value (R85, R108, R109). -/
def Instr.command (t : Tables) : Instr → Instr
  | .loadMul f => .encNdpInst (f.operands opcLoadMul 0 0)
  | .scaleAdd f => .encNdpInst (f.operands t.params.ndpOpc.scaleAdd 0 0)
  | .wbd f => .encNdpInst (f.operands t.params.ndpOpc.wbd 0 0)
  | .exit f => .encNdpInst (f.operands t.params.ndpOpc.exit 0 0)
  | .selfExecOn f => .encNdpInst (f.operands t.params.ndpOpc.selfExecOn 0 0)
  | .selfExecOff f => .encNdpInst (f.operands t.params.ndpOpc.selfExecOff 0 0)
  | .vred f => .encNdpInst (f.operands t.params.ndpOpc.vred 0 0)
  | .sred f => .encNdpInst (f.operands t.params.ndpOpc.sred 0 0)
  | .loop f lc jt => .encNdpInst (f.operands t.params.ndpOpc.loop lc jt)
  | .rd f => .encAccInst (f.operands t.params.accOpc.rd)
  | .wr f => .encAccInst (f.operands t.params.accOpc.wr)
  | .bar f => .encAccInst (f.operands t.params.accOpc.bar)
  | .wait f => .encAccInst (f.operands t.params.accOpc.wait)
  | .loopStart f => .encAccInst (f.operands t.params.accOpc.loopStart)
  | .loopEnd f => .encAccInst (f.operands t.params.accOpc.loopEnd)
  | .waitRes f => .encAccInst (f.operands t.params.accOpc.waitRes)
  | .done f => .encAccInst (f.operands t.params.accOpc.done)
  | .cfgSet p s n j => .cfgSet p s n j
  | .csrRd s => .csrRd s
  | .faultClr => .faultClr
  | .encNdpAddr c => .encNdpAddr c
  | .decNdpAddr a => .decNdpAddr a
  | .encNormAddr c => .encNormAddr c
  | .decNormAddr a => .decNormAddr a
  | .encNdpInst o => .encNdpInst o
  | .decNdpInst w => .decNdpInst w
  | .encAccInst o => .encAccInst o
  | .decAccInst w => .decAccInst w
  | .packLinear b c ws => .packLinear b c ws
  | .packInterleaved b c ls => .packInterleaved b c ls
  | .packStart c m => .packStart c m
  | .emitLd a => .emitLd a
  | .emitSt a c => .emitSt a c

/-- The fields of an NDP instruction word other than opcode and loop fields (R71). -/
def ndpFieldsOf (w : Word) : NdpFields :=
  ⟨slice w 51 7, slice w 48 3, slice w 45 3, slice w 43 2⟩

/-- The fields of an access-descriptor word other than its opcode (R74). -/
def accFieldsOf (w : Word) : AccFields :=
  ⟨slice w 53 7, slice w 50 3, slice w 48 2, slice w 45 3, slice w 43 2, slice w 25 18,
    slice w 18 7, slice w 15 3, slice w 0 15⟩

/-- The named instruction an NDP instruction word holds: the name whose value is its opcode field
(R71, R108). A LOOP word's jump target is its low `jtw` bits (R105). `none` for a value no name
has. Reserved bits are ignored, as on decode (R87). -/
def nameNdpWord (t : Tables) (jtw : Nat) (w : Word) : Option Instr :=
  let o := t.params.ndpOpc
  let opc := slice w 58 6
  if opc = opcLoadMul then some (.loadMul (ndpFieldsOf w))
  else if opc = o.scaleAdd then some (.scaleAdd (ndpFieldsOf w))
  else if opc = o.wbd then some (.wbd (ndpFieldsOf w))
  else if opc = o.exit then some (.exit (ndpFieldsOf w))
  else if opc = o.selfExecOn then some (.selfExecOn (ndpFieldsOf w))
  else if opc = o.selfExecOff then some (.selfExecOff (ndpFieldsOf w))
  else if opc = o.vred then some (.vred (ndpFieldsOf w))
  else if opc = o.sred then some (.sred (ndpFieldsOf w))
  else if opc = o.loop then
    some (.loop (ndpFieldsOf w) (slice w 32 10) ((extract w jtw 0).setWidth 10))
  else none

/-- The named descriptor an access-descriptor word holds (R74, R109). -/
def nameAccWord (t : Tables) (w : Word) : Option Instr :=
  let o := t.params.accOpc
  let opc := slice w 60 4
  if opc = o.rd then some (.rd (accFieldsOf w))
  else if opc = o.wr then some (.wr (accFieldsOf w))
  else if opc = o.bar then some (.bar (accFieldsOf w))
  else if opc = o.wait then some (.wait (accFieldsOf w))
  else if opc = o.loopStart then some (.loopStart (accFieldsOf w))
  else if opc = o.loopEnd then some (.loopEnd (accFieldsOf w))
  else if opc = o.waitRes then some (.waitRes (accFieldsOf w))
  else if opc = o.done then some (.done (accFieldsOf w))
  else none

/-! ### The encoder -/

/-- A header word: CMD at [63:60] over the command's own fields (R78). -/
def mkHeader (cmd : BitVec 4) (fields : Word) : Word := place (zext cmd) 4 60 ||| fields

/-- CFG_SET's header (R80). -/
def cfgSetHeader (profile : BitVec 3) (ndpScheme normScheme : BitVec 2) (jtw : BitVec 4) : Word :=
  mkHeader 0x1 (place (zext profile) 3 0 ||| place (zext ndpScheme) 2 4 |||
    place (zext normScheme) 2 6 ||| place (zext jtw) 4 8)

/-- CSR_RD's header (R80). -/
def csrRdHeader (sel : BitVec 4) : Word := mkHeader 0x2 (place (zext sel) 4 0)

/-- The packet of a command (R78, R80). A named instruction's packet is the one its command has
(`Instr.command`): see `encode`. -/
def encodeCommand : Instr → List Word
  | .cfgSet p s n j => [cfgSetHeader p s n j]
  | .csrRd sel => [csrRdHeader sel]
  | .faultClr => [mkHeader 0x3 0]
  | .encNdpAddr c => [mkHeader 0x4 0, c.ch, c.pch, c.ra, c.bg, c.ba, c.ro, c.co]
  | .decNdpAddr a => [mkHeader 0x5 0, a]
  | .encNormAddr c => [mkHeader 0x6 0, c.ch, c.ra, c.bg, c.ba, c.ro, c.co]
  | .decNormAddr a => [mkHeader 0x7 0, a]
  | .encNdpInst o =>
    [mkHeader 0x8 0, o.opc, o.osz, o.laneId, o.bg, o.ba, o.loopCount, o.jumpTarget]
  | .decNdpInst w => [mkHeader 0x9 0, w]
  | .encAccInst o =>
    [mkHeader 0xA 0, o.opc, o.osz, o.ch, o.pch, o.bg, o.ba, o.ro, o.co, o.id, o.aux]
  | .decAccInst w => [mkHeader 0xB 0, w]
  | .packLinear b col ws =>
    mkHeader 0xC (place (BitVec.ofNat 64 ws.length) 32 0) ::
      b.ch :: b.pch :: b.ra :: b.bg :: b.ba :: b.ro :: col :: ws
  | .packInterleaved b col ls =>
    mkHeader 0xD (place (zext col) 7 0 ||| place (BitVec.ofNat 64 ls.length) 8 8) ::
      b.ch :: b.pch :: b.ra :: b.bg :: b.ba :: b.ro ::
        (ls.map (fun l => BitVec.ofNat 64 l.length) ++ ls.flatten)
  | .packStart c m => [mkHeader 0xE 0, c.ch, c.pch, c.ra, c.bg, c.ba, c.ro, c.co, m]
  | .emitLd a => [mkHeader 0xF 0, a]
  | .emitSt a c => mkHeader 0xF 1 :: a :: c.toList
  | .loadMul _ | .scaleAdd _ | .wbd _ | .exit _ | .selfExecOn _ | .selfExecOff _ | .vred _ | .sred _
  | .loop _ _ _ | .rd _ | .wr _ | .bar _ | .wait _ | .loopStart _ | .loopEnd _ | .waitRes _
  | .done _ => []

/-- The packet by which the host asks the block for an instruction (R78, R80, R85). -/
def encode (t : Tables) (i : Instr) : List Word := encodeCommand (i.command t)

/-! ### The opcode table's words -/

/-- The first `n` words of a number, the first word its least significant 64 bits. -/
def tableWords (w : Nat) : Nat → List Word
  | 0 => []
  | n + 1 => BitVec.ofNat 64 w :: tableWords (w >>> 64) n

/-- The packet whose bits are those of `w`: the words its own length asks for (R81). -/
def tablePacket (w : Nat) : List Word :=
  let h := BitVec.ofNat 64 w
  let front := if headerCmd h = 0xD then tableWords w (7 + headerNl h) else [h]
  tableWords w ((packetLength front).getD 1)

/-- The instruction of a table row's bits. A packet's words read as the command input reads them. A
word whose CMD is 0 is no command; if its opcode field holds LOAD_MUL's value, the one the spec
gives, it reads as that instruction word (R71, R108; log entry 12). -/
def decodeTableWord (nbits w : Nat) : Option Instr :=
  let w := w % 2 ^ nbits
  match decode (tablePacket w) with
  | .command i _ => some i
  | _ =>
    let h := BitVec.ofNat 64 w
    if headerCmd h = 0 ∧ slice h 58 6 = opcLoadMul then some (.loadMul (ndpFieldsOf h)) else none

/-- The words to place at the command input so that the next step runs what `decodeTableWord` reads: a
packet as it stands, and for an instruction word the packet that asks the block for it. -/
def fetchWords (nbits w : Nat) : List Word :=
  let p := tablePacket (w % 2 ^ nbits)
  match decode p, decodeTableWord nbits w with
  | .illegal _ _, some (.loadMul f) => encodeCommand (.encNdpInst (f.operands opcLoadMul 0 0))
  | _, _ => p

end Sys2Proof
end

