-- ==== Sys2Proof/Machine/State.lean ====
section
/-!
DEFINITION. The state of the block, the reasons a step can stop, and the state after reset.
Rules: 10_state.md R20 to R34 (the state), 30_encoding.md R76 and R84 (records, responses),
70_reset_and_hazards.md R160 (reset).
-/

namespace Sys2Proof.Machine

/-- Why a step stops. The block's own faults (60_exceptions.md R142) are no stops: they are latched in
`FAULT` and answered in a response, and the machine goes on. -/
inductive Fault where
  /-- Raised by `step` where the command input is empty: the block is idle between commands
  (60_exceptions.md R156) and the run is over (70_reset_and_hazards.md R175). Safe. -/
  | idle
  /-- Raised by `step` where the packet at the front of the input is not whole: the block is stuck
  until the host completes it or resets (60_exceptions.md R158). Safe. -/
  | packetIncomplete
  deriving DecidableEq, Repr

/-- Why an instruction has no meaning. -/
inductive Refusal where
  /-- Raised by `exec` for an instruction without a meaning yet. Safe. -/
  | notModelled (mnemonic : String)
  deriving DecidableEq, Repr

/-- The configuration register `CFG` (R22). -/
structure Cfg where
  profile : BitVec 3
  ndpScheme : BitVec 2
  normScheme : BitVec 2
  jtw : BitVec 4
  valid : Bool
  deriving DecidableEq, Repr

/-- The fault register `FAULT` (R29). -/
structure FaultReg where
  code : BitVec 8
  lane : BitVec 8
  info : BitVec 32
  deriving DecidableEq, Repr

/-- An output record (R76). A STORE record made by PACK_INTERLEAVED carries its lane index as a
side-band tag. -/
inductive Record where
  | ld (addr : Word)
  | st (addr : Word) (c : Chunk) (lane : Option Nat)
  deriving DecidableEq, Repr

/-- The packer's working state (R31): the instruction lists, one read index for each lane, the column
cursor and the count of chunks emitted. -/
structure Packer where
  lists : List (List Word)
  idx : List Nat
  col : BitVec 7
  k : Nat
  deriving DecidableEq, Repr

/-- A response: `RESP_CODE` and the result words (R84). -/
structure Response where
  code : BitVec 8
  results : List Word
  deriving DecidableEq, Repr

/-- The state of the block (R20), with the command input (R33), the responses given (R84), and the
model's own account of the host's sink: `sink`, the answers the host has already decided for the next
records, and `draws`, which free answer comes after them (60_exceptions.md R147; log entry 7). -/
structure State where
  /-- The read-only constant tables (R24, R26, R27; log entry 1). -/
  tables : Tables
  cfg : Cfg
  fault : FaultReg
  /-- `OUT`, oldest record first (R30). -/
  out : List Record
  /-- Present only inside a PACK_LINEAR, PACK_INTERLEAVED or PACK_START command (R31). -/
  packer : Option Packer
  /-- The words the host has written and the block has not consumed (R33; log entry 5). -/
  input : List Word
  /-- The responses, oldest first (R84). -/
  responses : List Response
  sink : List Bool
  draws : Nat
  deriving DecidableEq, Repr

/-- The state after reset (R160). The tables are the open parameters (log entries 1 and 2); `sink` and
`draws` are the model's own (DESIGN CHOICE, log entry 7). -/
def State.reset : State where
  tables := Config.tables
  cfg := ⟨0, 0, 0, 0, false⟩
  fault := ⟨0, 0, 0⟩
  out := []
  packer := none
  input := []
  responses := []
  sink := []
  draws := 0

end Sys2Proof.Machine
end

