-- ==== Sys2Proof/Machine/Ops.lean ====
section
/-!
DEFINITION. The named operations over the block's registers and streams. Raising a fault is
`State.raise`, the one operation every faulting command uses; the way back is `State.clearFault`.
Rules: 00_scope.md R13; 30_encoding.md R84; 60_exceptions.md R141 to R147; 44_control.md R136.
-/

namespace Sys2Proof.Machine

/-! ### Fault codes -/

/-- The fault codes (R142). -/
inductive FaultCode where
  | illegalCommand
  | cfgInvalidProfile
  | cfgInvalidScheme
  | cfgInvalidJtw
  | notConfigured
  | capacityOverflow
  | laneOverflow
  | outputFailure
  deriving DecidableEq, Repr

/-- The number of a fault code (R142). -/
def FaultCode.bits : FaultCode → BitVec 8
  | .illegalCommand => 0x01
  | .cfgInvalidProfile => 0x02
  | .cfgInvalidScheme => 0x03
  | .cfgInvalidJtw => 0x04
  | .notConfigured => 0x05
  | .capacityOverflow => 0x06
  | .laneOverflow => 0x07
  | .outputFailure => 0x08

/-- The response code of a refused command (R84, R144). -/
def respRefused : BitVec 8 := 0xFF

/-! ### Responses and the fault latch -/

/-- A response's header word: `RESP_CODE` at [7:0], `NRES` at [15:8] (R84). -/
def Response.header (r : Response) : Word :=
  place (zext r.code) 8 0 ||| place (BitVec.ofNat 64 r.results.length) 8 8

/-- The words of a response (R84). -/
def Response.words (r : Response) : List Word := r.header :: r.results

/-- `Respond(code, results)` (R13): the one response a command gives. -/
def State.respond (code : BitVec 8) (results : List Word) (s : State) : State :=
  { s with responses := s.responses ++ [⟨code, results⟩] }

/-- The latch (R143): the first fault not yet cleared wins. -/
def State.latch (c : FaultCode) (lane info : Nat) (s : State) : State :=
  if s.fault.code = 0 then
    { s with fault := ⟨c.bits, BitVec.ofNat 8 lane, BitVec.ofNat 32 info⟩ }
  else s

/-- `raise Fault(code, lane, info)` (R143): latch, then respond with the code. `results` is empty but
for OUTPUT_FAILURE, which carries the result words as they stand (R84). -/
def State.raise (c : FaultCode) (lane info : Nat) (results : List Word) (s : State) : State :=
  (s.latch c lane info).respond c.bits results

/-- The clearing of `FAULT` (R136). -/
def State.clearFault (s : State) : State := { s with fault := ⟨0, 0, 0⟩ }

/-- A refused command (R144): response 0xFF and nothing else. -/
def State.refuse (s : State) : State := s.respond respRefused []

/-! ### The configuration -/

/-- What a valid configuration selects. -/
structure Active where
  profile : Profile
  ndpScheme : Scheme
  normScheme : Scheme
  jtw : Nat
  deriving DecidableEq, Repr

/-- The profile of an identifier: 1, 2 or 4 (R22). -/
def profileOf : BitVec 3 → Option Profile
  | 1 => some .x4
  | 2 => some .x8
  | 4 => some .x16
  | _ => none

/-- The scheme of a code: 0, 1 or 2 (R62 to R65, R68 to R70). -/
def schemeOf : BitVec 2 → Option Scheme
  | 0 => some .rowColBankBankgroupRank
  | 1 => some .rowBankBankgroupRankCol
  | 2 => some .bankRowColBankgroupRank
  | _ => none

/-- The jump-target width of a JTW value: 9 or 10 (R22). -/
def jtwOf : BitVec 4 → Option Nat
  | 9 => some 9
  | 10 => some 10
  | _ => none

/-- What the configuration selects: `none` while CFG_VALID = 0 (R23). A valid CFG with an illegal
field, which no run reaches, selects nothing either (log entry 4). -/
def Cfg.active (c : Cfg) : Option Active :=
  if c.valid then
    match profileOf c.profile, schemeOf c.ndpScheme, schemeOf c.normScheme, jtwOf c.jtw with
    | some p, some s, some n, some j => some ⟨p, s, n, j⟩
    | _, _, _, _ => none
  else none

/-- The active profile's table `P` (R24). -/
def State.profile (s : State) (a : Active) : ProfileTable := s.tables.profile a.profile

/-- `OPC_LOOP` (R108). -/
def State.loopOpc (s : State) : BitVec 6 := s.tables.params.ndpOpc.loop

/-! ### The command input -/

/-- The command input set to the words not yet consumed (R33). -/
def State.setInput (ws : List Word) (s : State) : State := { s with input := ws }

/-! ### Acceptance -/

/-- Step 1 of R141 for the commands other than CSR_RD and FAULT_CLR: refused while a fault is
pending. -/
def State.whenNoFault (body : State → State) (s : State) : State :=
  if s.fault.code = 0 then body s else s.refuse

/-- Steps 1 and 3 of R141 for the commands 0x4 to 0xF: refused while a fault is pending, then
NOT_CONFIGURED without a configuration, then the command's own pseudocode. -/
def State.whenConfigured (cmd : Nat) (body : Active → State → State) (s : State) : State :=
  s.whenNoFault fun s =>
    match s.cfg.active with
    | none => s.raise .notConfigured 0 cmd []
    | some a => body a s

/-- Step 2 of R141: a whole packet with an illegal header. Step 1 comes first: while a fault is
pending it is refused unless its CMD is CSR_RD's or FAULT_CLR's. -/
def State.illegalHeader (h : Word) (s : State) : State :=
  if s.fault.code ≠ 0 ∧ headerCmd h ≠ 2 ∧ headerCmd h ≠ 3 then s.refuse
  else s.raise .illegalCommand 0 (slice h 32 32).toNat []

/-! ### The output stream and the host's sink -/

/-- The sink's answer for the next record (R147): the host's decision if it has made one, else a free
draw (log entry 7). -/
def State.answer (s : State) : Bool :=
  match s.sink with
  | b :: _ => b
  | [] => Config.sinkAccepts s.draws

/-- The state once the sink has given its next answer. -/
def State.popAnswer (s : State) : State :=
  match s.sink with
  | _ :: bs => { s with sink := bs }
  | [] => { s with draws := s.draws + 1 }

/-- A record at the end of OUT (R30). -/
def State.append (r : Record) (s : State) : State := { s with out := s.out ++ [r] }

/-- `Emit(rec)` (R13, R147): whether the sink took the record, and the state after. A record is
appended whole or not at all. -/
def State.emit (r : Record) (s : State) : Bool × State :=
  if s.answer then (true, s.popAnswer.append r) else (false, s.popAnswer)

/-- The pseudocode of a command that emits one record and responds with the count of records appended
(R125, R126). -/
def State.emitOne (r : Record) (s : State) : State :=
  match s.emit r with
  | (true, s') => s'.respond 0 [1]
  | (false, s') => s'.raise .outputFailure 0 0 [0]

/-- The sink's answers after the next `n`. -/
def State.skipAnswers : Nat → State → State
  | 0, s => s
  | n + 1, s => State.skipAnswers n s.popAnswer

/-- The sink takes each of the next `n` records. -/
def State.accepts : Nat → State → Bool
  | 0, _ => true
  | n + 1, s => s.answer && State.accepts n s.popAnswer

/-- The packer's working state set or ended (R31). -/
def State.setPacker (p : Option Packer) (s : State) : State := { s with packer := p }

end Sys2Proof.Machine
end

