-- ==== Sys2Proof/Machine/AddressCodec.lean ====
section
/-!
DEFINITION. The meanings of the Address Codec's commands.
Rules: 40_address_codec.md R91 to R94.
-/

namespace Sys2Proof.Machine

/-- ENC_NDP_ADDR (R91). -/
def execEncNdpAddr (c : Coords) (s : State) : Host.Outcome State Fault Refusal :=
  .next <| s.whenConfigured 0x4 fun a s => s.respond 0 [encNdp (s.profile a) a.ndpScheme c]

/-- DEC_NDP_ADDR (R92). -/
def execDecNdpAddr (addr : Word) (s : State) : Host.Outcome State Fault Refusal :=
  .next <| s.whenConfigured 0x5 fun a s =>
    s.respond 0 ((decNdp (s.profile a) a.ndpScheme addr).words ++
      [ndpFlags (s.profile a) a.ndpScheme addr])

/-- ENC_NORM_ADDR (R93). -/
def execEncNormAddr (c : NormCoords) (s : State) : Host.Outcome State Fault Refusal :=
  .next <| s.whenConfigured 0x6 fun a s =>
    s.respond 0 [encNorm s.tables.params.norm a.normScheme c]

/-- DEC_NORM_ADDR (R94). -/
def execDecNormAddr (addr : Word) (s : State) : Host.Outcome State Fault Refusal :=
  .next <| s.whenConfigured 0x7 fun a s =>
    s.respond 0 ((decNorm s.tables.params.norm a.normScheme addr).words ++
      [normFlags s.tables.params.norm a.normScheme addr])

end Sys2Proof.Machine
end

