-- ==== Sys2Proof/Machine/Control.lean ====
section
/-!
DEFINITION. The meanings of the control commands CFG_SET, CSR_RD and FAULT_CLR.
Rules: 44_control.md R132 to R136; 30_encoding.md R83.
-/

namespace Sys2Proof.Machine

/-- CFG written whole (R133). -/
def State.setCfg (c : Cfg) (s : State) : State := { s with cfg := c }

/-- CFG_SET's field checks (R132), in their order: PROFILE, the schemes, JTW. -/
def cfgSetFault (profile : BitVec 3) (ndpScheme normScheme : BitVec 2) (jtw : BitVec 4) :
    Option FaultCode :=
  if profileOf profile = none then some .cfgInvalidProfile
  else if schemeOf ndpScheme = none ∨ schemeOf normScheme = none then some .cfgInvalidScheme
  else if jtwOf jtw = none then some .cfgInvalidJtw
  else none

/-- CFG_SET (R132). -/
def execCfgSet (profile : BitVec 3) (ndpScheme normScheme : BitVec 2) (jtw : BitVec 4) (s : State) :
    Host.Outcome State Fault Refusal :=
  .next <| s.whenNoFault fun s =>
    match cfgSetFault profile ndpScheme normScheme jtw with
    | some c => s.raise c 0 (slice (cfgSetHeader profile ndpScheme normScheme jtw) 0 32).toNat []
    | none => (s.setCfg ⟨profile, ndpScheme, normScheme, jtw, true⟩).respond 0 []

/-- STATUS, selector 0 (R135). -/
def statusValue (s : State) : Word :=
  place (zext s.fault.code) 8 0 ||| place (bit s.cfg.valid) 1 8 ||| place (zext s.fault.lane) 8 16 |||
    place (zext s.fault.info) 32 32

/-- CONFIG, selector 1 (R135). -/
def configValue (c : Cfg) : Word :=
  place (zext c.profile) 3 0 ||| place (zext c.ndpScheme) 2 4 ||| place (zext c.normScheme) 2 6 |||
    place (zext c.jtw) 4 8 ||| place (bit c.valid) 1 12

/-- A number as a CSR field, masked to the field's width (R77; log entry 13). -/
def csrField (n w lo : Nat) : Word := place (BitVec.ofNat 64 n) w lo

/-- NDP_WIDTHS, selector 2 (R135). -/
def ndpWidthsValue (t : ProfileTable) : Word :=
  csrField t.g 6 0 ||| csrField (t.width .ch) 6 6 ||| csrField (t.width .pch) 6 12 |||
    csrField (t.width .ra) 6 18 ||| csrField (t.width .bg) 6 24 ||| csrField (t.width .ba) 6 30 |||
    csrField (t.width .ro) 6 36 ||| csrField (t.width .co) 6 42

/-- NORM_WIDTHS, selector 3 (R135). -/
def normWidthsValue (t : NormTable) : Word :=
  csrField t.gn 6 0 ||| csrField (t.width .ch) 6 6 ||| csrField (t.width .ra) 6 12 |||
    csrField (t.width .bg) 6 18 ||| csrField (t.width .ba) 6 24 ||| csrField (t.width .ro) 6 30 |||
    csrField (t.width .co) 6 36

/-- REGION(r), selectors 4 to 11 (R135). -/
def regionValue (t : ProfileTable) (r : Region) : Word :=
  if t.present r then
    csrField (t.region r).bg 8 0 ||| csrField (t.region r).ba 8 8 ||| csrField 1 1 16
  else 0

/-- LANES, selector 12 (R135). -/
def lanesValue (t : ProfileTable) : Word := csrField t.lanes 16 0 ||| csrField t.nDm 8 16

/-- A profile-dependent value: 0 while no profile is active (R134, R135). -/
def State.ofProfile (f : ProfileTable → Word) (s : State) : Word :=
  match s.cfg.active with
  | none => 0
  | some a => f (s.profile a)

/-- `CsrValue(SEL)` (R135); `none` for the reserved selectors 13 to 15 (R83). -/
def State.csrValue (s : State) : BitVec 4 → Option Word
  | 0 => some (statusValue s)
  | 1 => some (configValue s.cfg)
  | 2 => some (s.ofProfile ndpWidthsValue)
  | 3 => some (normWidthsValue s.tables.params.norm)
  | 4 => some (s.ofProfile (regionValue · .hcr))
  | 5 => some (s.ofProfile (regionValue · .haib))
  | 6 => some (s.ofProfile (regionValue · .dnc))
  | 7 => some (s.ofProfile (regionValue · .imem))
  | 8 => some (s.ofProfile (regionValue · .dm0))
  | 9 => some (s.ofProfile (regionValue · .dm1))
  | 10 => some (s.ofProfile (regionValue · .dm2))
  | 11 => some (s.ofProfile (regionValue · .dm3))
  | 12 => some (s.ofProfile lanesValue)
  | _ => none

/-- CSR_RD (R134). It runs while a fault is pending and without a configuration. -/
def execCsrRd (sel : BitVec 4) (s : State) : Host.Outcome State Fault Refusal :=
  .next <|
    match s.csrValue sel with
    | some v => s.respond 0 [v]
    | none => s.raise .illegalCommand 0 (slice (csrRdHeader sel) 32 32).toNat []

/-- FAULT_CLR (R136). It runs while a fault is pending and without a configuration. -/
def execFaultClr (s : State) : Host.Outcome State Fault Refusal :=
  .next (s.clearFault.respond 0 [])

end Sys2Proof.Machine
end

