-- ==== Sys2Proof/Machine/InstructionCodec.lean ====
section
/-!
DEFINITION. The meanings of the Instruction Codec's commands and of the named instruction words. To
the block a named instruction is the encode command whose opcode operand is written by that name
(30_encoding.md R85; the opcode table's rule for each is R100 or R102; log entry 11): it responds
with the instruction's word. The block executes no instruction word (00_scope.md R5).
Rules: 41_instruction_codec.md R100 to R109.
-/

namespace Sys2Proof.Machine

/-- The encoding of an NDP instruction (R100), with the checks of R141. -/
def State.encodeNdp (o : NdpOperands) (s : State) : State :=
  s.whenConfigured 0x8 fun a s => s.respond 0 [encNdpWord s.loopOpc a.jtw o]

/-- The encoding of an access descriptor (R102), with the checks of R141. -/
def State.encodeAcc (o : AccOperands) (s : State) : State :=
  s.whenConfigured 0xA fun _ s => s.respond 0 [encAccWord o]

/-- ENC_NDP_INST (R100). -/
def execEncNdpInst (o : NdpOperands) (s : State) : Host.Outcome State Fault Refusal :=
  .next (s.encodeNdp o)

/-- DEC_NDP_INST (R101). -/
def execDecNdpInst (word : Word) (s : State) : Host.Outcome State Fault Refusal :=
  .next <| s.whenConfigured 0x9 fun a s =>
    s.respond 0 ((decNdpWord s.loopOpc a.jtw word).words ++
      [instFlags s.loopOpc a.jtw word])

/-- ENC_ACC_INST (R102). -/
def execEncAccInst (o : AccOperands) (s : State) : Host.Outcome State Fault Refusal :=
  .next (s.encodeAcc o)

/-- DEC_ACC_INST (R103). -/
def execDecAccInst (word : Word) (s : State) : Host.Outcome State Fault Refusal :=
  .next <| s.whenConfigured 0xB fun _ s => s.respond 0 ((decAccWord word).words)

/-- LOAD_MUL: a plain-format word (R71, R100, R108). -/
def execLoadMul (f : NdpFields) (s : State) : Host.Outcome State Fault Refusal :=
  .next (s.encodeNdp (f.operands opcLoadMul 0 0))

/-- SCALE_ADD: a plain-format word (R71, R100, R108). -/
def execScaleAdd (f : NdpFields) (s : State) : Host.Outcome State Fault Refusal :=
  .next (s.encodeNdp (f.operands s.tables.params.ndpOpc.scaleAdd 0 0))

/-- WBD: a plain-format word (R71, R100, R108). -/
def execWbd (f : NdpFields) (s : State) : Host.Outcome State Fault Refusal :=
  .next (s.encodeNdp (f.operands s.tables.params.ndpOpc.wbd 0 0))

/-- EXIT: a plain-format word (R71, R100, R108). -/
def execExit (f : NdpFields) (s : State) : Host.Outcome State Fault Refusal :=
  .next (s.encodeNdp (f.operands s.tables.params.ndpOpc.exit 0 0))

/-- SELF_EXEC_ON: a plain-format word (R71, R100, R108). -/
def execSelfExecOn (f : NdpFields) (s : State) : Host.Outcome State Fault Refusal :=
  .next (s.encodeNdp (f.operands s.tables.params.ndpOpc.selfExecOn 0 0))

/-- SELF_EXEC_OFF: a plain-format word (R71, R100, R108). -/
def execSelfExecOff (f : NdpFields) (s : State) : Host.Outcome State Fault Refusal :=
  .next (s.encodeNdp (f.operands s.tables.params.ndpOpc.selfExecOff 0 0))

/-- VRED: a plain-format word (R71, R100, R108). -/
def execVred (f : NdpFields) (s : State) : Host.Outcome State Fault Refusal :=
  .next (s.encodeNdp (f.operands s.tables.params.ndpOpc.vred 0 0))

/-- SRED: a plain-format word (R71, R100, R108). -/
def execSred (f : NdpFields) (s : State) : Host.Outcome State Fault Refusal :=
  .next (s.encodeNdp (f.operands s.tables.params.ndpOpc.sred 0 0))

/-- LOOP: a LOOP-format word, its jump target `cfg.JTW` bits wide (R71, R100, R105, R108). -/
def execLoop (f : NdpFields) (loopCount jumpTarget : BitVec 10) (s : State) :
    Host.Outcome State Fault Refusal :=
  .next (s.encodeNdp (f.operands s.tables.params.ndpOpc.loop loopCount jumpTarget))

/-- RD: an access-descriptor word (R74, R102, R109). -/
def execRd (f : AccFields) (s : State) : Host.Outcome State Fault Refusal :=
  .next (s.encodeAcc (f.operands s.tables.params.accOpc.rd))

/-- WR: an access-descriptor word (R74, R102, R109). -/
def execWr (f : AccFields) (s : State) : Host.Outcome State Fault Refusal :=
  .next (s.encodeAcc (f.operands s.tables.params.accOpc.wr))

/-- BAR: an access-descriptor word (R74, R102, R109). -/
def execBar (f : AccFields) (s : State) : Host.Outcome State Fault Refusal :=
  .next (s.encodeAcc (f.operands s.tables.params.accOpc.bar))

/-- WAIT: an access-descriptor word (R74, R102, R109). -/
def execWait (f : AccFields) (s : State) : Host.Outcome State Fault Refusal :=
  .next (s.encodeAcc (f.operands s.tables.params.accOpc.wait))

/-- LOOP_START: an access-descriptor word (R74, R102, R109). -/
def execLoopStart (f : AccFields) (s : State) : Host.Outcome State Fault Refusal :=
  .next (s.encodeAcc (f.operands s.tables.params.accOpc.loopStart))

/-- LOOP_END: an access-descriptor word (R74, R102, R109). -/
def execLoopEnd (f : AccFields) (s : State) : Host.Outcome State Fault Refusal :=
  .next (s.encodeAcc (f.operands s.tables.params.accOpc.loopEnd))

/-- WAIT_RES: an access-descriptor word (R74, R102, R109). -/
def execWaitRes (f : AccFields) (s : State) : Host.Outcome State Fault Refusal :=
  .next (s.encodeAcc (f.operands s.tables.params.accOpc.waitRes))

/-- DONE: an access-descriptor word (R74, R102, R109). -/
def execDone (f : AccFields) (s : State) : Host.Outcome State Fault Refusal :=
  .next (s.encodeAcc (f.operands s.tables.params.accOpc.done))

end Sys2Proof.Machine
end

