-- ==== Sys2Proof/Machine/PayloadPacker.lean ====
section
/-!
DEFINITION. The meanings of the Payload Packer's commands.
Rules: 42_payload_packer.md R110 to R119; 10_state.md R31 (the working state).
-/

namespace Sys2Proof.Machine

/-- The working state at the start of a PACK command (R31). -/
def Packer.start (lists : List (List Word)) (col : BitVec 7) : Packer :=
  ⟨lists, lists.map fun _ => 0, col, 0⟩

/-- Lane `l`'s list. -/
def Packer.list (p : Packer) (l : Nat) : List Word := p.lists.getD l []

/-- Lane `l`'s read index `idx[l]`. -/
def Packer.index (p : Packer) (l : Nat) : Nat := p.idx.getD l 0

/-- Lane `l` still has words: `idx[l] < n[l]` (R114). -/
def Packer.pending (p : Packer) (l : Nat) : Bool := p.index l < (p.list l).length

/-- The working state after lane `l`'s chunk (R114): up to 8 words drained, the cursor one on and
wrapping from 127 to 0, one more chunk. -/
def Packer.advance (p : Packer) (l : Nat) : Packer :=
  { p with
    idx := p.idx.set l (p.index l + min chunkWords ((p.list l).length - p.index l))
    col := p.col + 1
    k := p.k + 1 }

/-- A chunk's record emitted inside a PACK command, `p` the working state after it. `false` where the
sink refuses the record, and the working state then stays (R147). -/
def State.emitChunk (r : Record) (p : Packer) (s : State) : Bool × State :=
  match s.emit r with
  | (true, s') => (true, s'.setPacker (some p))
  | (false, s') => (false, s')

/-- One visit of lane `l` (R114): nothing if the lane is drained, else its next chunk is emitted at
`addr`, under the tag `tag`. `false` where the sink refuses the record (R147). -/
def visitLane (addr : Packer → Word) (tag : Nat → Option Nat) (l : Nat) (s : State) : Bool × State :=
  match s.packer with
  | none => (true, s)
  | some p =>
    if p.pending l then
      s.emitChunk (.st (addr p) (chunk (p.list l) (p.index l)) (tag l)) (p.advance l)
    else (true, s)

/-- One round: the lanes visited in order (R113), to the end or to a refused record. -/
def visitRound (addr : Packer → Word) (tag : Nat → Option Nat) : List Nat → State → Bool × State
  | [], s => (true, s)
  | l :: ls, s =>
    match visitLane addr tag l s with
    | (true, s') => visitRound addr tag ls s'
    | (false, s') => (false, s')

/-- Some lane still has words. -/
def State.anyPending (s : State) (lanes : List Nat) : Bool :=
  match s.packer with
  | none => false
  | some p => lanes.any p.pending

/-- Rounds while some lane still has words (R114). The bound never bites: see `packRounds`. -/
def drain (addr : Packer → Word) (tag : Nat → Option Nat) (lanes : List Nat) :
    Nat → State → Bool × State
  | 0, s => (true, s)
  | n + 1, s =>
    if s.anyPending lanes then
      match visitRound addr tag lanes s with
      | (true, s') => drain addr tag lanes n s'
      | (false, s') => (false, s')
    else (true, s)

/-- The most rounds a PACK command takes: a list under 1024 words is drained in 128 (R111, R114). -/
def packRounds : Nat := imemWords / chunkWords

/-- The end of a PACK command: the working state goes, and the response carries the result words as
they stand, with OUTPUT_FAILURE and the count of records appended where the sink refused one (R112,
R114, R117, R147). -/
def State.packEnd (results : Packer → List Word) : Bool × State → State
  | (ok, s) =>
    match s.packer with
    | none => s
    | some p =>
      if ok then (s.setPacker none).respond 0 (results p)
      else (s.setPacker none).raise .outputFailure 0 p.k (results p)

/-- The `min(n, 2^32 - 1)` of R111 and R145. -/
def infoOf (n : Nat) : Nat := min n (2 ^ 32 - 1)

/-- PACK_LINEAR (R112). One list, visited alone in every round; chunk `k` goes to column
`start_col + k`, which wraps only in the address encoder (R119). -/
def execPackLinear (b : Base) (startCol : Word) (words : List Word) (s : State) :
    Host.Outcome State Fault Refusal :=
  .next <| s.whenConfigured 0xC fun a s =>
    if words.length ≥ imemWords then s.raise .capacityOverflow 0 (infoOf words.length) []
    else
      State.packEnd (fun p => [BitVec.ofNat 64 p.k])
        (drain
          (fun p => encNdp (s.profile a) a.ndpScheme (b.at (startCol + BitVec.ofNat 64 p.k)))
          (fun _ => none) [0] packRounds (s.setPacker (some (Packer.start [words] 0))))

/-- The lowest-indexed lane, counting from `l`, whose list is over capacity, with its length (R111,
R146). -/
def firstOver : Nat → List (List Word) → Option (Nat × Nat)
  | _, [] => none
  | l, ws :: rest => if ws.length ≥ imemWords then some (l, ws.length) else firstOver (l + 1) rest

/-- PACK_INTERLEAVED (R114). -/
def execPackInterleaved (b : Base) (startCol : BitVec 7) (lists : List (List Word)) (s : State) :
    Host.Outcome State Fault Refusal :=
  .next <| s.whenConfigured 0xD fun a s =>
    if lists.length ≠ (s.profile a).lanes then s.raise .illegalCommand 0 lists.length []
    else
      match firstOver 0 lists with
      | some (l, n) => s.raise .capacityOverflow l (infoOf n) []
      | none =>
        State.packEnd (fun p => [BitVec.ofNat 64 p.k, zext p.col])
          (drain (fun p => encNdp (s.profile a) a.ndpScheme (b.at (zext p.col)))
            some (List.range lists.length) packRounds
            (s.setPacker (some (Packer.start lists startCol))))

/-- PACK_START (R117). Its working state (R31) has an empty instruction list for each lane; the one
chunk is counted (log entry 14). -/
def execPackStart (c : Coords) (mask : Word) (s : State) : Host.Outcome State Fault Refusal :=
  .next <| s.whenConfigured 0xE fun a s =>
    if (s.profile a).lanes > chunkWords then
      s.raise .laneOverflow 0 (infoOf (s.profile a).lanes) []
    else
      let p := Packer.start (List.replicate (s.profile a).lanes []) 0
      State.packEnd (fun p => [BitVec.ofNat 64 p.k])
        ((s.setPacker (some p)).emitChunk
          (.st (encNdp (s.profile a) a.ndpScheme c) (startChunk mask (s.profile a).lanes) none)
          { p with k := p.k + 1 })

end Sys2Proof.Machine
end

