-- ==== Sys2Proof/Machine/TraceEmitter.lean ====
section
/-!
DEFINITION. The meanings of EMIT_LD and EMIT_ST, and the text form of the output stream.
Rules: 43_trace_record.md R125 to R131.
-/

namespace Sys2Proof.Machine

/-- EMIT_LD (R125): the address is taken as given. -/
def execEmitLd (addr : Word) (s : State) : Host.Outcome State Fault Refusal :=
  .next <| s.whenConfigured 0xF fun _ s => s.emitOne (.ld addr)

/-- EMIT_ST (R126): the address and the words are taken as given. -/
def execEmitSt (addr : Word) (c : Chunk) (s : State) : Host.Outcome State Fault Refusal :=
  .next <| s.whenConfigured 0xF fun _ s => s.emitOne (.st addr c none)

/-- An upper-case hexadecimal digit (R129). -/
def hexDigit (n : Nat) : Char := if n < 10 then Char.ofNat (48 + n) else Char.ofNat (55 + n)

/-- The low `n` hexadecimal digits of a value, most significant first. -/
def hexDigits (w : Nat) : Nat → List Char
  | 0 => []
  | n + 1 => hexDigits (w / 16) n ++ [hexDigit (w % 16)]

/-- A 64-bit value: `0x` and 16 digits (R129). -/
def hexWord (w : Word) : List Char := '0' :: 'x' :: hexDigits w.toNat 16

/-- A record's line without its terminator (R127, R128). The lane tag is not written (R131). -/
def Record.line : Record → List Char
  | .ld a => 'L' :: 'D' :: ' ' :: hexWord a
  | .st a c _ => 'S' :: 'T' :: ' ' :: (hexWord a ++ c.toList.flatMap fun w => ' ' :: hexWord w)

/-- The trace file of a record sequence: one line a record, each ended by LF (R130). -/
def traceText (rs : List Record) : List Char := rs.flatMap fun r => r.line ++ ['\n']

end Sys2Proof.Machine
end

