-- ==== Sys2Proof/Machine/Dispatch.lean ====
section
/-! DEFINITION. The dispatch: one arm for each constructor of Instr. -/

namespace Sys2Proof.Machine

def exec (i : Instr) (s : State) : Host.Outcome State Fault Refusal :=
  match i with
  | .cfgSet p n m j => Sys2Proof.Machine.execCfgSet p n m j s
  | .csrRd sel => Sys2Proof.Machine.execCsrRd sel s
  | .faultClr => Sys2Proof.Machine.execFaultClr s
  | .encNdpAddr c => Sys2Proof.Machine.execEncNdpAddr c s
  | .decNdpAddr a => Sys2Proof.Machine.execDecNdpAddr a s
  | .encNormAddr c => Sys2Proof.Machine.execEncNormAddr c s
  | .decNormAddr a => Sys2Proof.Machine.execDecNormAddr a s
  | .encNdpInst o => Sys2Proof.Machine.execEncNdpInst o s
  | .decNdpInst w => Sys2Proof.Machine.execDecNdpInst w s
  | .encAccInst o => Sys2Proof.Machine.execEncAccInst o s
  | .decAccInst w => Sys2Proof.Machine.execDecAccInst w s
  | .packLinear b col ws => Sys2Proof.Machine.execPackLinear b col ws s
  | .packInterleaved b col ls => Sys2Proof.Machine.execPackInterleaved b col ls s
  | .packStart c m => Sys2Proof.Machine.execPackStart c m s
  | .emitLd a => Sys2Proof.Machine.execEmitLd a s
  | .emitSt a c => Sys2Proof.Machine.execEmitSt a c s
  | .loadMul f => Sys2Proof.Machine.execLoadMul f s
  | .scaleAdd f => Sys2Proof.Machine.execScaleAdd f s
  | .wbd f => Sys2Proof.Machine.execWbd f s
  | .exit f => Sys2Proof.Machine.execExit f s
  | .selfExecOn f => Sys2Proof.Machine.execSelfExecOn f s
  | .selfExecOff f => Sys2Proof.Machine.execSelfExecOff f s
  | .vred f => Sys2Proof.Machine.execVred f s
  | .sred f => Sys2Proof.Machine.execSred f s
  | .loop f lc jt => Sys2Proof.Machine.execLoop f lc jt s
  | .rd f => Sys2Proof.Machine.execRd f s
  | .wr f => Sys2Proof.Machine.execWr f s
  | .bar f => Sys2Proof.Machine.execBar f s
  | .wait f => Sys2Proof.Machine.execWait f s
  | .loopStart f => Sys2Proof.Machine.execLoopStart f s
  | .loopEnd f => Sys2Proof.Machine.execLoopEnd f s
  | .waitRes f => Sys2Proof.Machine.execWaitRes f s
  | .done f => Sys2Proof.Machine.execDone f s

end Sys2Proof.Machine
end

