-- ==== Sys2Proof/Machine/Step.lean ====
section
/-!
DEFINITION. One step: one whole packet taken from the command input and run (00_scope.md R6,
60_exceptions.md R141, R158).
-/

namespace Sys2Proof.Machine

/-- One step. The packet's words are consumed whole, whatever becomes of the command (30_encoding.md
R81, 60_exceptions.md R144). -/
def step (s : State) : Host.Outcome State Fault Refusal :=
  match decode s.input with
  | .empty => .fault .idle
  | .incomplete => .fault .packetIncomplete
  | .illegal h rest => .next ((s.setInput rest).illegalHeader h)
  | .command i rest => exec i (s.setInput rest)

/-- `s` with the instruction of a table row's bits at the front of the command input, as the host
writes it (log entry 12). -/
def State.withFetchWord (s : State) (nbits w : Nat) : State :=
  s.setInput (fetchWords nbits w ++ s.input)

end Sys2Proof.Machine
end

