-- ==== Sys2Proof/Machine/HostActions.lean ====
section
/-!
DEFINITION. What the host can do to the block between steps.
Rules: 70_reset_and_hazards.md R160, R174, R178; 60_exceptions.md R147.
-/

namespace Sys2Proof.Machine

/-- The host's acts on the block (R174). FAULT_CLR and every other command is a packet it writes. -/
inductive HostAct where
  | reset
  | write (words : List Word)
  | decideSink (answers : List Bool)
  deriving DecidableEq, Repr

/-- Reset (R160): the registers at 0, OUT empty as the block sees it, a partly received packet thrown
away (R178), the tables unchanged. The sink is the host's and keeps its answers. -/
def State.hostReset (s : State) : State :=
  { State.reset with tables := s.tables, sink := s.sink, draws := s.draws }

/-- The host writes words to the command input (R33, R78). -/
def State.hostWrite (ws : List Word) (s : State) : State := s.setInput (s.input ++ ws)

/-- The host decides its sink's answers for the next records (R147). -/
def State.hostSink (answers : List Bool) (s : State) : State := { s with sink := s.sink ++ answers }

/-- The state after a host act (R174). -/
def State.hostAct (s : State) : HostAct → State
  | .reset => s.hostReset
  | .write ws => s.hostWrite ws
  | .decideSink bs => s.hostSink bs

end Sys2Proof.Machine
end

