-- ==== Sys2Proof/Safety.lean ====
section
/-!
DEFINITION. What counts as a legal state, a clean entry, a run that is over or faulted, and the host's
duties that can be stated.
Rules: 70_reset_and_hazards.md R163 to R168, R175, R176; 10_state.md R22, R29, R31; 20_memory.md R52.
-/

namespace Sys2Proof.Machine

/-! ### Legal states -/

/-- CFG holds either its reset value or a configuration CFG_SET accepts (R22, R23). -/
abbrev Cfg.Legal (c : Cfg) : Prop :=
  c = ⟨0, 0, 0, 0, false⟩ ∨
    (c.valid = true ∧ profileOf c.profile ≠ none ∧ schemeOf c.ndpScheme ≠ none ∧
      schemeOf c.normScheme ≠ none ∧ jtwOf c.jtw ≠ none)

/-- FAULT holds no fault and zeros, or one of the eight codes (R29, R142). -/
abbrev FaultReg.Legal (f : FaultReg) : Prop :=
  f = ⟨0, 0, 0⟩ ∨ (1 ≤ f.code.toNat ∧ f.code.toNat ≤ 8)

/-- A response carries success, a fault code or the refusal code (R84, R142), and fits NRES: no command
has more than ten result words (R80). -/
abbrev Response.Legal (r : Response) : Prop :=
  (r.code.toNat ≤ 8 ∨ r.code = respRefused) ∧ r.results.length ≤ 10

/-- The invariant of the machine between commands: legal registers, no packer working state (R31),
legal responses. -/
abbrev State.Inv (s : State) : Prop :=
  s.cfg.Legal ∧ s.fault.Legal ∧ s.packer = none ∧ ∀ r ∈ s.responses, r.Legal

/-- The conditions under which a command of codes 0x4 to 0xF runs its own pseudocode (60_exceptions.md
R141): no fault is pending and a configuration is active. -/
abbrev State.Ready (a : Active) (s : State) : Prop := s.fault.code = 0 ∧ s.cfg.active = some a

/-! ### Runs -/

/-- The words are whole packets, of legal or illegal headers, and nothing after them (R158). `n` bounds
the packets. -/
def wholePackets : Nat → List Word → Bool
  | 0, ws => ws.isEmpty
  | n + 1, ws =>
    match decode ws with
    | .empty => true
    | .incomplete => false
    | .illegal _ rest => wholePackets n rest
    | .command _ rest => wholePackets n rest

/-- No packet is partly received, neither at the front of the input nor behind whole ones (R176).
Every packet has at least one word, so as many packets as words are enough. -/
abbrev State.NoPartialPacket (s : State) : Prop := wholePackets s.input.length s.input = true

/-- The clean-entry state of a generation (R176): `a` is the profile, schemes and jump-target width the
generation needs, and `taken` how many records of OUT the host has taken for earlier ones. -/
abbrev State.CleanEntry (a : Active) (taken : Nat) (s : State) : Prop :=
  s.cfg.valid = true ∧ s.cfg.active = some a ∧ s.fault.code = 0 ∧ s.out.length = taken ∧
    s.NoPartialPacket

/-- The run is over: every packet is complete and answered (R175). -/
abbrev State.Over (s : State) : Prop := decode s.input = .empty

/-- The block is stuck on a packet that is not complete (R158, R175). -/
abbrev State.Stuck (s : State) : Prop := decode s.input = .incomplete

/-- A fault is pending, or some response was a fault or a refusal (R175). -/
abbrev State.Faulted (s : State) : Prop := s.fault.code ≠ 0 ∨ ∃ r ∈ s.responses, r.code ≠ 0

/-- What is observed of a run (R175). -/
structure Observation where
  responses : List Response
  out : List Record
  cfg : Cfg
  fault : FaultReg
  deriving DecidableEq, Repr

/-- The observation of a state (R175). -/
def State.observe (s : State) : Observation := ⟨s.responses, s.out, s.cfg, s.fault⟩

/-- The state in which the block stops taking packets, within `n` steps. -/
def State.runOut : Nat → State → State
  | 0, s => s
  | n + 1, s =>
    match step s with
    | .next s' => State.runOut n s'
    | .fault _ => s
    | .refused _ => s

/-- A run (R175): reset, then the host's packets, each step taking one. Every packet has at least one
word, so as many steps as words are enough. -/
def State.runFrom (s : State) (packets : List (List Word)) : State :=
  (s.hostReset.hostWrite packets.flatten).runOut packets.flatten.length

/-! ### Host duties the block does not check -/

/-- A lane's NDP program ends with EXIT (R164). -/
def endsWithExit (t : Tables) (jtw : Nat) (program : List Word) : Bool :=
  match program.getLast?.bind (nameNdpWord t jtw) with
  | some (.exit _) => true
  | _ => false

/-- A lane's access-descriptor program ends with DONE (R164). -/
def endsWithDone (t : Tables) (program : List Word) : Bool :=
  match program.getLast?.bind (nameAccWord t) with
  | some (.done _) => true
  | _ => false

/-- A generation issues no CFG_SET (R163). -/
def noCfgSet (commands : List Instr) : Bool :=
  commands.all fun i => match i with
    | .cfgSet _ _ _ _ => false
    | _ => true

/-- A command's chunks reuse no column (R168): at most 128, and at most `2^W_CO`. -/
def noColumnReuse (t : ProfileTable) (chunks : Nat) : Bool :=
  chunks ≤ 128 && chunks ≤ 2 ^ t.width .co

/-- The loop count a host passes for an iteration count (R165). -/
def hostLoopCount (iterations : Word) : Word :=
  if Config.loopCountBias then iterations - 1 else iterations

/-- Byte `n % 8` (0 the least significant) of word `n / 8` of a payload chunk. -/
def Chunk.byte (c : Chunk) (n : Fin 64) : BitVec 8 :=
  slice (c.toList.getD (n.val / 8) 0) (8 * (n.val % 8)) 8

/-- A payload chunk in the 64 bytes of a burst, as a consumer lays it out: byte `i` of the burst is
the payload byte whose place is `i` (R52). That there is exactly one such byte is the model's DESIGN
CHOICE (log entry 15). -/
def Chunk.burst (c : Chunk) : List (BitVec 8) :=
  (List.finRange 64).map fun i => Chunk.byte c (Config.payloadByteOrder.symm i)

end Sys2Proof.Machine
end

