-- ==== Sys2Proof/Certificates/Slice0/Obligations.lean ====
section
/-!
DEFINITION. The statements for the provers, and the words they are said in. Layouts are written out
from the tables of 30_encoding.md, bit by bit, not by the encoders' own loops; records are written in
closed form, not by the packer's rounds.
-/

namespace Sys2Proof

/-- An NDP operand tuple masked to the profile's widths. -/
def Coords.masked (c : Coords) (t : ProfileTable) : List Word :=
  [c.ch &&& mask (t.width .ch), c.pch &&& mask (t.width .pch), c.ra &&& mask (t.width .ra),
    c.bg &&& mask (t.width .bg), c.ba &&& mask (t.width .ba), c.ro &&& mask (t.width .ro),
    c.co &&& mask (t.width .co)]

/-- A normal operand tuple masked to the normal widths. -/
def NormCoords.masked (c : NormCoords) (t : NormTable) : List Word :=
  [c.ch &&& mask (t.width .ch), c.ra &&& mask (t.width .ra), c.bg &&& mask (t.width .bg),
    c.ba &&& mask (t.width .ba), c.ro &&& mask (t.width .ro), c.co &&& mask (t.width .co)]

/-- The low bits of ENC_NDP_INST's operands, at the word's field widths (R77). -/
def NdpOperands.low (o : NdpOperands) : NdpFields :=
  ⟨slice o.osz 0 7, slice o.laneId 0 3, slice o.bg 0 3, slice o.ba 0 2⟩

/-- The low bits of ENC_ACC_INST's operands, at the word's field widths (R77). -/
def AccOperands.low (o : AccOperands) : AccFields :=
  ⟨slice o.osz 0 7, slice o.ch 0 3, slice o.pch 0 2, slice o.bg 0 3, slice o.ba 0 2,
    slice o.ro 0 18, slice o.co 0 7, slice o.id 0 3, slice o.aux 0 15⟩

/-- The command code of an instruction's packet (R79, R85). -/
def Instr.cmd : Instr → Nat
  | .cfgSet _ _ _ _ => 0x1
  | .csrRd _ => 0x2
  | .faultClr => 0x3
  | .encNdpAddr _ => 0x4
  | .decNdpAddr _ => 0x5
  | .encNormAddr _ => 0x6
  | .decNormAddr _ => 0x7
  | .encNdpInst _ | .loadMul _ | .scaleAdd _ | .wbd _ | .exit _ | .selfExecOn _ | .selfExecOff _
  | .vred _ | .sred _ | .loop _ _ _ => 0x8
  | .decNdpInst _ => 0x9
  | .encAccInst _ | .rd _ | .wr _ | .bar _ | .wait _ | .loopStart _ | .loopEnd _ | .waitRes _
  | .done _ => 0xA
  | .decAccInst _ => 0xB
  | .packLinear _ _ _ => 0xC
  | .packInterleaved _ _ _ => 0xD
  | .packStart _ _ => 0xE
  | .emitLd _ | .emitSt _ _ => 0xF

/-- The number of result words of a command that succeeds (R80). -/
def Instr.resultCount : Instr → Nat
  | .cfgSet _ _ _ _ | .faultClr => 0
  | .csrRd _ | .encNdpAddr _ | .encNormAddr _ | .encNdpInst _ | .encAccInst _ | .packLinear _ _ _
  | .packStart _ _ | .emitLd _ | .emitSt _ _ => 1
  | .loadMul _ | .scaleAdd _ | .wbd _ | .exit _ | .selfExecOn _ | .selfExecOff _ | .vred _ | .sred _
  | .loop _ _ _ | .rd _ | .wr _ | .bar _ | .wait _ | .loopStart _ | .loopEnd _ | .waitRes _
  | .done _ => 1
  | .packInterleaved _ _ _ => 2
  | .decNormAddr _ => 7
  | .decNdpAddr _ | .decNdpInst _ => 8
  | .decAccInst _ => 10

/-- The header bits below CMD that R80 gives a field, by command code. -/
def headerField (cmd i : Nat) : Bool :=
  (cmd == 1 && (i < 3 || (4 ≤ i && i < 12))) || (cmd == 2 && i < 4) || (cmd == 12 && i < 32) ||
    (cmd == 13 && (i < 7 || (8 ≤ i && i < 16))) || (cmd == 15 && i == 0)

end Sys2Proof

namespace Sys2Proof.Machine

/-- The state after a command that only answers: its response added, everything else as it was. -/
abbrev State.answered (code : BitVec 8) (results : List Word) (s : State) : State :=
  { s with responses := s.responses ++ [⟨code, results⟩] }

/-- The state after a command that faults with no fault pending: the fault latched, the response
added, everything else as it was. -/
abbrev State.faulted (code : BitVec 8) (lane : BitVec 8) (info : BitVec 32) (results : List Word)
    (s : State) : State :=
  { s with fault := ⟨code, lane, info⟩, responses := s.responses ++ [⟨code, results⟩] }

/-- The offsets of the tables of R62, R63 and R64, by scheme code. -/
def ndpLo (t : ProfileTable) (code : BitVec 2) : Field → Nat
  | .ch => t.g
  | .pch => t.g + t.width .ch
  | .ra =>
    if code = 1 then t.g + t.width .ch + t.width .pch + t.width .co
    else t.g + t.width .ch + t.width .pch
  | .bg =>
    if code = 1 then t.g + t.width .ch + t.width .pch + t.width .co + t.width .ra
    else t.g + t.width .ch + t.width .pch + t.width .ra
  | .ba =>
    if code = 0 then t.g + t.width .ch + t.width .pch + t.width .ra + t.width .bg
    else if code = 1 then
      t.g + t.width .ch + t.width .pch + t.width .co + t.width .ra + t.width .bg
    else t.g + t.width .ch + t.width .pch + t.width .ra + t.width .bg + t.width .co + t.width .ro
  | .ro =>
    if code = 0 then
      t.g + t.width .ch + t.width .pch + t.width .ra + t.width .bg + t.width .ba + t.width .co
    else if code = 1 then
      t.g + t.width .ch + t.width .pch + t.width .co + t.width .ra + t.width .bg + t.width .ba
    else t.g + t.width .ch + t.width .pch + t.width .ra + t.width .bg + t.width .co
  | .co =>
    if code = 0 then
      t.g + t.width .ch + t.width .pch + t.width .ra + t.width .bg + t.width .ba
    else if code = 1 then t.g + t.width .ch + t.width .pch
    else t.g + t.width .ch + t.width .pch + t.width .ra + t.width .bg

/-- The offsets R68, R69 and R70 list, by scheme code. There is no pseudo-channel; its entry is never
read. -/
def normLo (t : NormTable) (code : BitVec 2) : Field → Nat
  | .ch => t.gn
  | .pch => 0
  | .ra => if code = 1 then t.gn + t.width .ch + t.width .co else t.gn + t.width .ch
  | .bg =>
    if code = 1 then t.gn + t.width .ch + t.width .co + t.width .ra
    else t.gn + t.width .ch + t.width .ra
  | .ba =>
    if code = 0 then t.gn + t.width .ch + t.width .ra + t.width .bg
    else if code = 1 then t.gn + t.width .ch + t.width .co + t.width .ra + t.width .bg
    else t.gn + t.width .ch + t.width .ra + t.width .bg + t.width .co + t.width .ro
  | .ro =>
    if code = 0 then
      t.gn + t.width .ch + t.width .ra + t.width .bg + t.width .ba + t.width .co
    else if code = 1 then
      t.gn + t.width .ch + t.width .co + t.width .ra + t.width .bg + t.width .ba
    else t.gn + t.width .ch + t.width .ra + t.width .bg + t.width .co
  | .co =>
    if code = 0 then t.gn + t.width .ch + t.width .ra + t.width .bg + t.width .ba
    else if code = 1 then t.gn + t.width .ch
    else t.gn + t.width .ch + t.width .ra + t.width .bg

/-- The offset above the top NDP field: G and all the widths (R61). -/
def ndpTop (t : ProfileTable) : Nat :=
  t.g + t.width .ch + t.width .pch + t.width .ra + t.width .bg + t.width .ba + t.width .ro + t.width .co

/-- The offset above the top normal field. -/
def normTop (t : NormTable) : Nat :=
  t.gn + t.width .ch + t.width .ra + t.width .bg + t.width .ba + t.width .ro + t.width .co

/-- The flags word of the address decoders, by the address as a number: LOW_NZ at bit 0 and HIGH_NZ at
bit 1 (R80, R92, R94). -/
def addrFlags (a : Word) (g top : Nat) : Word :=
  (if 2 ^ top ≤ a.toNat then 2 else 0) + (if a.toNat % 2 ^ g ≠ 0 then 1 else 0)

/-- A plain-format NDP word, field by field from bit 63 down (R71). -/
def plainWord (opc : BitVec 6) (f : NdpFields) : Word :=
  opc ++ f.osz ++ f.laneId ++ f.bg ++ f.ba ++ 0#43

/-- A LOOP-format NDP word with a 10-bit jump target (R71). -/
def loopWord10 (opc : BitVec 6) (f : NdpFields) (lc jt : BitVec 10) : Word :=
  opc ++ f.osz ++ f.laneId ++ f.bg ++ f.ba ++ 0#1 ++ lc ++ 0#22 ++ jt

/-- A LOOP-format NDP word with a 9-bit jump target (R71). -/
def loopWord9 (opc : BitVec 6) (f : NdpFields) (lc : BitVec 10) (jt : BitVec 9) : Word :=
  opc ++ f.osz ++ f.laneId ++ f.bg ++ f.ba ++ 0#1 ++ lc ++ 0#23 ++ jt

/-- An access-descriptor word, field by field from bit 63 down (R74). -/
def accWord (opc : BitVec 4) (f : AccFields) : Word :=
  opc ++ f.osz ++ f.ch ++ f.pch ++ f.bg ++ f.ba ++ f.ro ++ f.co ++ f.id ++ f.aux

/-- `ceil(n / 8)`. -/
def chunks (n : Nat) : Nat := (n + 7) / 8

/-- PACK_LINEAR's records (R112): chunk `j` at column `start_col + j`. -/
def linearRecords (t : ProfileTable) (sch : Scheme) (b : Base) (col : Word) (ws : List Word) :
    List Record :=
  (List.range (chunks ws.length)).map fun j =>
    .st (encNdp t sch ⟨b.ch, b.pch, b.ra, b.bg, b.ba, b.ro, col + BitVec.ofNat 64 j⟩)
      (chunk ws (8 * j)) none

/-- PACK_INTERLEAVED's visits in order: in round `r` every lane with more than `8 * r` words, in lane
order (R113, R114). -/
def interleavedVisits (lists : List (List Word)) : List (Nat × Nat) :=
  (List.range 128).flatMap fun r =>
    ((List.range lists.length).filter fun l => 8 * r < (lists.getD l []).length).map fun l => (l, r)

/-- PACK_INTERLEAVED's records (R114): the `i`-th visit, lane `l` in round `r`, emits that lane's
`r`-th chunk at column `(START_COL + i) mod 128`, tagged `l`. -/
def interleavedRecords (t : ProfileTable) (sch : Scheme) (b : Base) (col : BitVec 7)
    (lists : List (List Word)) : List Record :=
  (interleavedVisits lists).mapIdx fun i v =>
    .st (encNdp t sch ⟨b.ch, b.pch, b.ra, b.bg, b.ba, b.ro,
        BitVec.ofNat 64 ((col.toNat + i) % 128)⟩)
      (chunk (lists.getD v.1 []) (8 * v.2)) (some v.1)

/-- A value in the text form: `0x` and the 16 digits of its nibbles, most significant first (R129). -/
def textWord (w : Word) : List Char :=
  '0' :: 'x' :: (List.range 16).map fun i =>
    ['0', '1', '2', '3', '4', '5', '6', '7', '8', '9', 'A', 'B', 'C', 'D', 'E', 'F'].getD
      (w.toNat / 16 ^ (15 - i) % 16) '0'

/-- A record's payload words. -/
def Record.payload : Record → List Word
  | .ld _ => []
  | .st _ c _ => c.toList

/-- A record's lane tag. -/
def Record.lane : Record → Option Nat
  | .ld _ => none
  | .st _ _ l => l

/-- A record without its lane tag: all that its text carries (R131). -/
def Record.untagged : Record → Record
  | .ld a => .ld a
  | .st a c _ => .st a c none

end Sys2Proof.Machine

open Sys2Proof Sys2Proof.Machine

/-! ### Parameters, reset, host acts -/

/-- 00_scope.md R10 (well-formedness and the refusal are the spec's own decision D8), with the ranges of
R9 and the 64-bit counts of 44_control.md R135 (log entry 3): a parameter set makes tables exactly
when these conditions hold. -/
def Obligations.ParameterSetRefusedUnlessWellFormed : Prop :=
  ∀ q : Params, (Tables.ofParams q).isSome = true ↔
    (∀ p : Profile,
      (∀ f, ∃ k, k ≤ 63 ∧ (q.profile p).count f = 2 ^ k) ∧ (q.profile p).g ≤ 63 ∧
        ndpTop (q.profile p) ≤ 64 ∧ 1 ≤ (q.profile p).nDm ∧ (q.profile p).nDm ≤ 4 ∧
        ∀ r, ((q.profile p).region r).bg < (q.profile p).nBg ∧
          ((q.profile p).region r).ba < (q.profile p).nBa) ∧
    (∀ f, ∃ k, k ≤ 63 ∧ q.norm.count f = 2 ^ k) ∧ normTop q.norm ≤ 64 ∧
    [2, q.ndpOpc.scaleAdd, q.ndpOpc.wbd, q.ndpOpc.loop, q.ndpOpc.exit, q.ndpOpc.selfExecOn,
      q.ndpOpc.selfExecOff, q.ndpOpc.vred, q.ndpOpc.sred].Nodup ∧
    [q.accOpc.rd, q.accOpc.wr, q.accOpc.bar, q.accOpc.wait, q.accOpc.loopStart, q.accOpc.loopEnd,
      q.accOpc.waitRes, q.accOpc.done].Nodup

/-- 70_reset_and_hazards.md R160: what reset leaves, in any state and right after power-on. Where the
block waits for the rest of a packet, the words received are thrown away, and what the host writes
next is all that stands in the input. -/
def Obligations.ResetLeavesTheStateOfTheTable : Prop :=
  (∀ s : State,
    s.hostReset.cfg = ⟨0, 0, 0, 0, false⟩ ∧ s.hostReset.fault = ⟨0, 0, 0⟩ ∧ s.hostReset.out = [] ∧
      s.hostReset.packer = none ∧ s.hostReset.tables = s.tables ∧
      (decode s.input = .incomplete → ∀ ws, (s.hostReset.hostWrite ws).input = ws)) ∧
  State.reset.cfg = ⟨0, 0, 0, 0, false⟩ ∧ State.reset.fault = ⟨0, 0, 0⟩ ∧ State.reset.out = [] ∧
    State.reset.packer = none ∧ State.reset.input = []

/-! ### Steps and packets -/

/-- A step runs the decoded instruction: the command at the front of the input, its packet's words
consumed; an illegal packet raises its fault with its words consumed; an empty input and a packet not
whole stop the step. -/
def Obligations.StepRunsTheDecodedCommand : Prop :=
  ∀ s : State,
    (∀ i rest, decode s.input = .command i rest → step s = exec i { s with input := rest }) ∧
    (∀ h rest, decode s.input = .illegal h rest →
      step s = .next (State.illegalHeader h { s with input := rest })) ∧
    (decode s.input = .incomplete → step s = .fault .packetIncomplete) ∧
    (decode s.input = .empty → step s = .fault .idle)

/-- Words of the opcode table, written out bit by bit: some headers, and LOAD_MUL's instruction word.
The words of PACK_LINEAR, PACK_INTERLEAVED and EMIT_LD read as whole instructions only because
`decodeTableWord` takes the words after them as 0 (log entry 12, a DESIGN CHOICE): by 30_encoding.md
R81 and 60_exceptions.md R158 such a word alone is an incomplete packet. That LOAD_MUL's word reads as
the named instruction is the model's choice too (log entries 11 and 12). -/
def Obligations.TableWordsDecode : Prop :=
  decodeTableWord 64 0x1000000000000962 = some (.cfgSet 2 2 1 9) ∧
  decodeTableWord 64 0x200000000000000C = some (.csrRd 12) ∧
  decodeTableWord 64 0x1000000000000A09 = none ∧
  decodeTableWord 64 0xC000000000000002 = some (.packLinear ⟨0, 0, 0, 0, 0, 0⟩ 0 [0, 0]) ∧
  decodeTableWord 64 0xD00000000000017E = some (.packInterleaved ⟨0, 0, 0, 0, 0, 0⟩ 126 [[]]) ∧
  decodeTableWord 64 0xF000000000000000 = some (.emitLd 0) ∧
  decodeTableWord 64 0x0BF8600000000000 = some (.loadMul ⟨127, 0, 3, 0⟩)

/-- Every well-formed instruction's packet decodes to the command that stands for it, with every
operand, and leaves the words after it. A named instruction's command is the encode command with the
name's opcode value (log entry 11). -/
def Obligations.DecodeInvertsEncode : Prop :=
  ∀ (t : Tables) (i : Instr) (rest : List Word), i.WellFormed →
    decode (encode t i ++ rest) = .command (i.command t) rest

/-- A step on any well-formed instruction's packet is that instruction, run with the packet
consumed. -/
def Obligations.StepRunsTheEncodedInstruction : Prop :=
  ∀ (s : State) (i : Instr) (rest : List Word), i.WellFormed →
    s.input = encode s.tables i ++ rest → step s = exec i { s with input := rest }

/-- Incomplete packets (60_exceptions.md; the spec's own decision D34): until a whole packet has arrived
the block takes no step, whatever the packet's header, legal or not: its length (30_encoding.md,
command packets) cannot be told yet, or is more than the words there are. No command starts before;
the remaining words let it start. That the packet of a named instruction, its encode command's, runs
that instruction is the model's choice (log entry 11). -/
def Obligations.StepWaitsForTheWholePacket : Prop :=
  (∀ s : State, s.input ≠ [] →
    (packetLength s.input = none ∨ ∃ n, packetLength s.input = some n ∧ s.input.length < n) →
    step s = .fault .packetIncomplete) ∧
  ∀ (s : State) (i : Instr) (later : List Word), i.WellFormed → s.input ≠ [] → later ≠ [] →
    s.input ++ later = encode s.tables i →
    step s = .fault .packetIncomplete ∧ step (s.hostWrite later) = exec i { s with input := [] }

/-- 30_encoding.md R81 (the spec's own decision D2): the length of a packet from its own words. Of a
PACK_INTERLEAVED packet with count words it is known once they are there, and of one with none from
the header. -/
def Obligations.PacketLengthFollowsTheTable : Prop :=
  ∀ (h : Word) (ops : List Word),
    let cmd := h.toNat / 2 ^ 60
    let nl := h.toNat / 2 ^ 8 % 2 ^ 8
    packetLength (h :: ops) =
      if cmd ≤ 3 then some 1
      else if cmd = 4 ∨ cmd = 8 then some 8
      else if cmd = 5 ∨ cmd = 7 ∨ cmd = 9 ∨ cmd = 11 then some 2
      else if cmd = 6 then some 7
      else if cmd = 10 then some 11
      else if cmd = 12 then some (8 + h.toNat % 2 ^ 32)
      else if cmd = 13 then
        if nl = 0 ∨ 6 + nl ≤ ops.length then
          some (7 + nl + ((List.range nl).map fun l => (ops.getD (6 + l) 0).toNat).sum)
        else none
      else if cmd = 14 then some 9
      else if h.toNat % 2 = 0 then some 2
      else some 10

/-- 30_encoding.md R82 (the spec's own decision D35): a whole packet of length `n` (R81) whose header
has CMD 0, or a nonzero bit that R80 gives no field, faults ILLEGAL_COMMAND, FAULT_INFO its header's
high half, and is consumed whole. -/
def Obligations.IllegalHeaderFaults : Prop :=
  ∀ (s : State) (h : Word) (ops : List Word) (n : Nat),
    s.input = h :: ops → packetLength s.input = some n → n ≤ s.input.length → s.fault.code = 0 →
    (h.toNat / 2 ^ 60 = 0 ∨
      ∃ i, i < 60 ∧ h.getLsbD i = true ∧ headerField (h.toNat / 2 ^ 60) i = false) →
    step s = .next (State.faulted 0x01 0 (BitVec.ofNat 32 (h.toNat / 2 ^ 32)) []
      { s with input := s.input.drop n })

/-- Refusal (60_exceptions.md, fault latch and refusal; the spec's own decision D15): while a fault is
pending, a packet of any command but CSR_RD and FAULT_CLR is consumed whole and answered 0xFF, and
nothing else changes. The refusal lasts: no command but FAULT_CLR changes FAULT. That the named
instructions count as their encode commands, with a packet and a refusal, is the model's choice (log
entry 11). -/
def Obligations.PendingFaultRefusesEveryOtherCommand : Prop :=
  ∀ (s : State) (i : Instr), s.fault.code ≠ 0 → i ≠ .faultClr →
    ((∀ sel, i ≠ .csrRd sel) →
      exec i s = .next (s.answered 0xFF []) ∧
      ∀ rest, i.WellFormed → s.input = encode s.tables i ++ rest →
        step s = .next (State.answered 0xFF [] { s with input := rest })) ∧
    ∃ t, exec i s = .next t ∧ t.fault = s.fault

/-- A packet with an illegal header while a fault is pending (60_exceptions.md, steps 1 and 2 of the
acceptance order): refused, unless its CMD is CSR_RD's or FAULT_CLR's; of those two the response tells
ILLEGAL_COMMAND, and FAULT is left as it was. -/
def Obligations.PendingFaultAndIllegalPackets : Prop :=
  ∀ (s : State) (h : Word) (rest : List Word), decode s.input = .illegal h rest → s.fault.code ≠ 0 →
    step s = .next (State.answered
      (if h.toNat / 2 ^ 60 = 2 ∨ h.toNat / 2 ^ 60 = 3 then 0x01 else 0xFF) []
      { s with input := rest })

/-- 10_state.md R23 and 60_exceptions.md R141 step 3, R145: with no fault pending and CFG_VALID = 0,
every command of codes 0x4 to 0xF faults NOT_CONFIGURED, FAULT_INFO its code. -/
def Obligations.UnconfiguredCommandFaults : Prop :=
  ∀ (s : State) (i : Instr), s.fault.code = 0 → s.cfg.valid = false → 4 ≤ i.cmd →
    exec i s = .next (s.faulted 0x05 0 (BitVec.ofNat 32 i.cmd) [])

/-! ### Control -/

/-- The configuration register selects the profile's table, the schemes and the jump-target width, by
the codes of 10_state.md; the widths are the logarithms of the counts. An illegal field selects
nothing (log entry 4). -/
def Obligations.ConfigurationSelectsTheTables : Prop :=
  ∀ (s : State) (a : Active),
    (s.cfg.active = some a ↔ s.cfg.valid = true ∧
      s.cfg.profile = (match a.profile with | .x4 => 1 | .x8 => 2 | .x16 => 4) ∧
      s.cfg.ndpScheme = (match a.ndpScheme with
        | .rowColBankBankgroupRank => 0 | .rowBankBankgroupRankCol => 1
        | .bankRowColBankgroupRank => 2) ∧
      s.cfg.normScheme = (match a.normScheme with
        | .rowColBankBankgroupRank => 0 | .rowBankBankgroupRankCol => 1
        | .bankRowColBankgroupRank => 2) ∧
      (a.jtw = 9 ∨ a.jtw = 10) ∧ s.cfg.jtw.toNat = a.jtw) ∧
    s.profile a = (match a.profile with
      | .x4 => s.tables.params.p1 | .x8 => s.tables.params.p2 | .x16 => s.tables.params.p4) ∧
    (∀ f, (s.profile a).count f = 2 ^ (s.profile a).width f) ∧
    ∀ f, s.tables.params.norm.count f = 2 ^ s.tables.params.norm.width f

/-- 44_control.md R132: CFG_SET with legal fields writes every field of CFG and nothing else. With an
illegal field it writes no field of CFG and faults by the first check that fails, PROFILE then the
schemes then JTW, FAULT_INFO the header's low half. The first clause is its packet. -/
def Obligations.CfgSetWritesAllOrNothing : Prop :=
  ∀ (s : State) (p : BitVec 3) (n m : BitVec 2) (j : BitVec 4),
    encode s.tables (.cfgSet p n m j) = [1#4 ++ 0#48 ++ j ++ m ++ n ++ 0#1 ++ p] ∧
    (s.fault.code = 0 → (p = 1 ∨ p = 2 ∨ p = 4) → n ≠ 3 → m ≠ 3 → (j = 9 ∨ j = 10) →
      exec (.cfgSet p n m j) s =
        .next { s with cfg := ⟨p, n, m, j, true⟩, responses := s.responses ++ [⟨0x00, []⟩] }) ∧
    (s.fault.code = 0 → ¬ ((p = 1 ∨ p = 2 ∨ p = 4) ∧ n ≠ 3 ∧ m ≠ 3 ∧ (j = 9 ∨ j = 10)) →
      exec (.cfgSet p n m j) s =
        .next (s.faulted
          (if ¬ (p = 1 ∨ p = 2 ∨ p = 4) then 0x02 else if n = 3 ∨ m = 3 then 0x03 else 0x04) 0
          (0#20 ++ j ++ m ++ n ++ 0#1 ++ p) []))

/-- 44_control.md R134, R135, selectors 0 and 1: STATUS and CONFIG, whatever the state; CSR_RD changes
nothing but the responses, also while a fault is pending. -/
def Obligations.CsrRdReadsStatusAndConfig : Prop :=
  ∀ s : State,
    exec (.csrRd 0) s = .next (s.answered 0x00
      [s.fault.info ++ 0#8 ++ s.fault.lane ++ 0#7 ++ BitVec.ofBool s.cfg.valid ++ s.fault.code]) ∧
    exec (.csrRd 1) s = .next (s.answered 0x00
      [0#51 ++ BitVec.ofBool s.cfg.valid ++ s.cfg.jtw ++ s.cfg.normScheme ++ s.cfg.ndpScheme ++
        0#1 ++ s.cfg.profile])

/-- 44_control.md R135, selectors 2, 3 and 12: the widths of the active profile, the normal widths
(whatever CFG holds) and the lanes. A number wider than its field is masked (R77, log entry 13). -/
def Obligations.CsrRdReadsWidthsAndLanes : Prop :=
  (∀ (s : State) (a : Active), s.cfg.active = some a →
    let t := s.profile a
    exec (.csrRd 2) s = .next (s.answered 0x00
      [0#16 ++ BitVec.ofNat 6 (t.width .co) ++ BitVec.ofNat 6 (t.width .ro) ++
        BitVec.ofNat 6 (t.width .ba) ++ BitVec.ofNat 6 (t.width .bg) ++
        BitVec.ofNat 6 (t.width .ra) ++ BitVec.ofNat 6 (t.width .pch) ++
        BitVec.ofNat 6 (t.width .ch) ++ BitVec.ofNat 6 t.g]) ∧
    exec (.csrRd 12) s = .next (s.answered 0x00
      [0#40 ++ BitVec.ofNat 8 t.nDm ++ BitVec.ofNat 16 (t.nCh * t.nPch)])) ∧
  (∀ s : State,
    let t := s.tables.params.norm
    exec (.csrRd 3) s = .next (s.answered 0x00
      [0#22 ++ BitVec.ofNat 6 (t.width .co) ++ BitVec.ofNat 6 (t.width .ro) ++
        BitVec.ofNat 6 (t.width .ba) ++ BitVec.ofNat 6 (t.width .bg) ++
        BitVec.ofNat 6 (t.width .ra) ++ BitVec.ofNat 6 (t.width .ch) ++ BitVec.ofNat 6 t.gn]))

/-- 44_control.md R135, selectors 4 to 11: region `r` = SEL - 4; a data memory at or above N_DM is
absent and reads 0. -/
def Obligations.CsrRdReadsRegions : Prop :=
  ∀ (s : State) (a : Active), s.cfg.active = some a →
    ∀ (r : Nat) (g : Region), regions[r]? = some g →
      exec (.csrRd (BitVec.ofNat 4 (r + 4))) s = .next (s.answered 0x00
        [if r < 4 + (s.profile a).nDm then
          0#47 ++ 1#1 ++ BitVec.ofNat 8 ((s.profile a).region g).ba ++
            BitVec.ofNat 8 ((s.profile a).region g).bg
        else 0])

/-- 44_control.md R134, R135: the profile-dependent selectors read 0 while CFG_VALID = 0. -/
def Obligations.CsrRdUnconfiguredReadsZero : Prop :=
  ∀ (s : State) (sel : BitVec 4), s.cfg.valid = false →
    (sel = 2 ∨ (4 ≤ sel.toNat ∧ sel.toNat ≤ 12)) →
    exec (.csrRd sel) s = .next (s.answered 0x00 [0])

/-- 30_encoding.md R83 (the spec's own decision D29): the selectors 0 to 12 answer a value; 13 to 15
raise ILLEGAL_COMMAND. With no fault pending it is latched; with one pending, FAULT is left unchanged
and only the response tells. The first clause is the packet. -/
def Obligations.ReservedSelectorsFault : Prop :=
  ∀ (s : State) (sel : BitVec 4),
    encode s.tables (.csrRd sel) = [2#4 ++ 0#56 ++ sel] ∧
    (sel.toNat ≤ 12 → ∃ v, exec (.csrRd sel) s = .next (s.answered 0x00 [v])) ∧
    (13 ≤ sel.toNat → exec (.csrRd sel) s =
      .next (if s.fault.code = 0 then s.faulted 0x01 0 0x20000000 [] else s.answered 0x01 []))

/-- 44_control.md R136 (the spec's own decision D15): FAULT_CLR clears FAULT and nothing else. A
FAULT_CLR packet with a nonzero reserved bit clears nothing. -/
def Obligations.FaultClrClearsOnlyTheFault : Prop :=
  ∀ s : State, encode s.tables .faultClr = [0x3000000000000000] ∧
    exec .faultClr s =
      .next { s with fault := ⟨0, 0, 0⟩, responses := s.responses ++ [⟨0x00, []⟩] } ∧
    ∀ (h : Word) (rest : List Word), s.input = h :: rest → h.toNat / 2 ^ 60 = 3 →
      h.toNat % 2 ^ 60 ≠ 0 → step s = .next (if s.fault.code = 0 then
        State.faulted 0x01 0 (BitVec.ofNat 32 (h.toNat / 2 ^ 32)) [] { s with input := rest }
        else State.answered 0x01 [] { s with input := rest })

/-! ### Address codec -/

/-- 40_address_codec.md R91 with the layouts of 30_encoding.md R62 to R64: each operand masked to its
field's width at the field's offset. -/
def Obligations.EncNdpAddrPlacesEveryField : Prop :=
  ∀ (s : State) (a : Active) (c : Coords), s.Ready a →
    let t := s.profile a
    let lo := ndpLo t s.cfg.ndpScheme
    encode s.tables (.encNdpAddr c) =
      [0x4000000000000000, c.ch, c.pch, c.ra, c.bg, c.ba, c.ro, c.co] ∧
    exec (.encNdpAddr c) s = .next (s.answered 0x00
      [place c.ch (t.width .ch) (lo .ch) ||| place c.pch (t.width .pch) (lo .pch) |||
        place c.ra (t.width .ra) (lo .ra) ||| place c.bg (t.width .bg) (lo .bg) |||
        place c.ba (t.width .ba) (lo .ba) ||| place c.ro (t.width .ro) (lo .ro) |||
        place c.co (t.width .co) (lo .co)])

/-- 40_address_codec.md R92 with the layouts of R62 to R64: each field read at its offset, in the
packet's order whatever the scheme, and the two flags. -/
def Obligations.DecNdpAddrReadsEveryField : Prop :=
  ∀ (s : State) (a : Active) (w : Word), s.Ready a →
    let t := s.profile a
    let lo := ndpLo t s.cfg.ndpScheme
    encode s.tables (.decNdpAddr w) = [0x5000000000000000, w] ∧
    exec (.decNdpAddr w) s = .next (s.answered 0x00
      [extract w (t.width .ch) (lo .ch), extract w (t.width .pch) (lo .pch),
        extract w (t.width .ra) (lo .ra), extract w (t.width .bg) (lo .bg),
        extract w (t.width .ba) (lo .ba), extract w (t.width .ro) (lo .ro),
        extract w (t.width .co) (lo .co), addrFlags w t.g (ndpTop t)])

/-- 40_address_codec.md R93 with the layouts of 30_encoding.md R68 to R70. The address depends on CFG by
the normal scheme only. -/
def Obligations.EncNormAddrPlacesEveryField : Prop :=
  ∀ (s : State) (a : Active) (c : NormCoords), s.Ready a →
    let t := s.tables.params.norm
    let lo := normLo t s.cfg.normScheme
    encode s.tables (.encNormAddr c) = [0x6000000000000000, c.ch, c.ra, c.bg, c.ba, c.ro, c.co] ∧
    exec (.encNormAddr c) s = .next (s.answered 0x00
      [place c.ch (t.width .ch) (lo .ch) ||| place c.ra (t.width .ra) (lo .ra) |||
        place c.bg (t.width .bg) (lo .bg) ||| place c.ba (t.width .ba) (lo .ba) |||
        place c.ro (t.width .ro) (lo .ro) ||| place c.co (t.width .co) (lo .co)])

/-- 40_address_codec.md R94 with the layouts of R68 to R70. -/
def Obligations.DecNormAddrReadsEveryField : Prop :=
  ∀ (s : State) (a : Active) (w : Word), s.Ready a →
    let t := s.tables.params.norm
    let lo := normLo t s.cfg.normScheme
    encode s.tables (.decNormAddr w) = [0x7000000000000000, w] ∧
    exec (.decNormAddr w) s = .next (s.answered 0x00
      [extract w (t.width .ch) (lo .ch), extract w (t.width .ra) (lo .ra),
        extract w (t.width .bg) (lo .bg), extract w (t.width .ba) (lo .ba),
        extract w (t.width .ro) (lo .ro), extract w (t.width .co) (lo .co),
        addrFlags w t.gn (normTop t)])

/-- The round trip of 40_address_codec.md R95 (which the spec derives): decoding the address an encode
command answers gives back the operands masked, with flags 0, for both address spaces. -/
def Obligations.AddressRoundTrip : Prop :=
  ∀ (s : State) (a : Active), s.Ready a →
    (∀ c : Coords, ∃ t w, exec (.encNdpAddr c) s = .next t ∧ t = s.answered 0x00 [w] ∧
      exec (.decNdpAddr w) t = .next (t.answered 0x00 (c.masked (s.profile a) ++ [0]))) ∧
    (∀ c : NormCoords, ∃ t w, exec (.encNormAddr c) s = .next t ∧ t = s.answered 0x00 [w] ∧
      exec (.decNormAddr w) t =
        .next (t.answered 0x00 (c.masked s.tables.params.norm ++ [0])))

/-- Field independence, 40_address_codec.md R96 (which the spec derives): operands that differ in one
field give addresses that differ only in that field's bits. -/
def Obligations.AddressFieldIndependence : Prop :=
  ∀ (s : State) (a : Active) (f : Field), s.Ready a →
    (∀ c c' : Coords, (∀ g, g ≠ f → c.get g = c'.get g) →
      ∃ w w', exec (.encNdpAddr c) s = .next (s.answered 0x00 [w]) ∧
        exec (.encNdpAddr c') s = .next (s.answered 0x00 [w']) ∧
        ∀ i, (i < ndpLo (s.profile a) s.cfg.ndpScheme f ∨
            ndpLo (s.profile a) s.cfg.ndpScheme f + (s.profile a).width f ≤ i) →
          w.getLsbD i = w'.getLsbD i) ∧
    (∀ c c' : NormCoords, f ≠ .pch → (∀ g, g ≠ f → c.get g = c'.get g) →
      ∃ w w', exec (.encNormAddr c) s = .next (s.answered 0x00 [w]) ∧
        exec (.encNormAddr c') s = .next (s.answered 0x00 [w']) ∧
        ∀ i, (i < normLo s.tables.params.norm s.cfg.normScheme f ∨
            normLo s.tables.params.norm s.cfg.normScheme f + s.tables.params.norm.width f ≤ i) →
          w.getLsbD i = w'.getLsbD i)

/-- Granularity, 40_address_codec.md R97 and 20_memory.md R53 (which the spec derives): every encoded
address is a multiple of `2^G`, or of `2^GN`. -/
def Obligations.EncodedAddressesAreAligned : Prop :=
  ∀ (s : State) (a : Active), s.Ready a →
    (∀ c : Coords, ∃ w, exec (.encNdpAddr c) s = .next (s.answered 0x00 [w]) ∧
      w.toNat % 2 ^ (s.profile a).g = 0) ∧
    (∀ c : NormCoords, ∃ w, exec (.encNormAddr c) s = .next (s.answered 0x00 [w]) ∧
      w.toNat % 2 ^ s.tables.params.norm.gn = 0)

/-! ### Instruction codec -/

/-- 41_instruction_codec.md R100 (LOOP by the masked opcode, R104) with the word of 30_encoding.md R71:
every operand's low bits in its field, the loop fields only for OPC_LOOP, the jump target `cfg.JTW`
bits wide. -/
def Obligations.EncNdpInstBuildsTheWord : Prop :=
  ∀ (s : State) (a : Active) (o : NdpOperands), s.Ready a →
    let opc := slice o.opc 0 6
    encode s.tables (.encNdpInst o) = [0x8000000000000000, o.opc, o.osz, o.laneId, o.bg, o.ba,
      o.loopCount, o.jumpTarget] ∧
    exec (.encNdpInst o) s = .next (s.answered 0x00
      [if opc ≠ s.tables.params.ndpOpc.loop then plainWord opc o.low
      else if s.cfg.jtw = 10 then loopWord10 opc o.low (slice o.loopCount 0 10) (slice o.jumpTarget 0 10)
      else loopWord9 opc o.low (slice o.loopCount 0 10) (slice o.jumpTarget 0 9)])

/-- 41_instruction_codec.md R101: the fields of an NDP word; a plain word's loop fields read 0; IS_LOOP
at bit 0 of the flags word and RSVD_NZ at bit 1. -/
def Obligations.DecNdpInstReadsTheWord : Prop :=
  ∀ (s : State) (a : Active) (w : Word), s.Ready a →
    let isLoop := slice w 58 6 = s.tables.params.ndpOpc.loop
    let jtw := s.cfg.jtw.toNat
    encode s.tables (.decNdpInst w) = [0x9000000000000000, w] ∧
    exec (.decNdpInst w) s = .next (s.answered 0x00
      [zext (slice w 58 6), zext (slice w 51 7), zext (slice w 48 3), zext (slice w 45 3),
        zext (slice w 43 2), if isLoop then zext (slice w 32 10) else 0,
        if isLoop then zext (slice w 0 jtw) else 0,
        (if (if isLoop then slice w 42 1 ≠ 0 ∨ slice w jtw (32 - jtw) ≠ 0 else slice w 0 43 ≠ 0)
          then 2 else 0) + (if isLoop then 1 else 0)])

/-- The round trip of 41_instruction_codec.md R106 (which the spec derives), for every opcode: decoding
the encoded word gives the operands masked to the word's fields, the loop operands only for LOOP,
with RSVD_NZ 0. -/
def Obligations.NdpInstRoundTrip : Prop :=
  ∀ (s : State) (a : Active) (o : NdpOperands), s.Ready a →
    let isLoop := slice o.opc 0 6 = s.tables.params.ndpOpc.loop
    ∃ t w, exec (.encNdpInst o) s = .next t ∧ t = s.answered 0x00 [w] ∧
      exec (.decNdpInst w) t = .next (t.answered 0x00
        [o.opc &&& mask 6, o.osz &&& mask 7, o.laneId &&& mask 3, o.bg &&& mask 3, o.ba &&& mask 2,
          if isLoop then o.loopCount &&& mask 10 else 0,
          if isLoop then o.jumpTarget &&& mask s.cfg.jtw.toNat else 0, if isLoop then 1 else 0])

/-- 41_instruction_codec.md R102 with the word of 30_encoding.md R74. -/
def Obligations.EncAccInstBuildsTheWord : Prop :=
  ∀ (s : State) (a : Active) (o : AccOperands), s.Ready a →
    encode s.tables (.encAccInst o) = [0xA000000000000000, o.opc, o.osz, o.ch, o.pch, o.bg, o.ba,
      o.ro, o.co, o.id, o.aux] ∧
    exec (.encAccInst o) s = .next (s.answered 0x00 [accWord (slice o.opc 0 4) o.low])

/-- 41_instruction_codec.md R103: the ten fields of a descriptor word. -/
def Obligations.DecAccInstReadsTheWord : Prop :=
  ∀ (s : State) (a : Active) (w : Word), s.Ready a →
    encode s.tables (.decAccInst w) = [0xB000000000000000, w] ∧
    exec (.decAccInst w) s = .next (s.answered 0x00
      [zext (slice w 60 4), zext (slice w 53 7), zext (slice w 50 3), zext (slice w 48 2),
        zext (slice w 45 3), zext (slice w 43 2), zext (slice w 25 18), zext (slice w 18 7),
        zext (slice w 15 3), zext (slice w 0 15)])

/-- Every 64-bit word decodes as a descriptor, and encoding what it decodes to gives the word back (41
R103's corner case, which the spec derives). -/
def Obligations.AccInstRoundTrip : Prop :=
  ∀ (s : State) (a : Active) (w : Word), s.Ready a →
    ∃ t, ∃ o : AccOperands, exec (.decAccInst w) s = .next t ∧ t = s.answered 0x00 o.words ∧
      exec (.encAccInst o) t = .next (t.answered 0x00 [w])

/-- 60_exceptions.md R149: a field value that exceeds its width is no fault. Every encode command does
with any operands just what it does with the operands masked to their fields: no fault, flag or
status tells. -/
def Obligations.EncodersMaskSilently : Prop :=
  ∀ s : State,
    (∀ (a : Active) (c : Coords), s.cfg.active = some a → ∀ c' : Coords,
      c'.words = c.masked (s.profile a) → exec (.encNdpAddr c) s = exec (.encNdpAddr c') s) ∧
    (∀ c c' : NormCoords, c'.words = c.masked s.tables.params.norm →
      exec (.encNormAddr c) s = exec (.encNormAddr c') s) ∧
    (∀ o : NdpOperands, exec (.encNdpInst o) s = exec (.encNdpInst
      ⟨o.opc &&& mask 6, o.osz &&& mask 7, o.laneId &&& mask 3, o.bg &&& mask 3, o.ba &&& mask 2,
        o.loopCount &&& mask 10, o.jumpTarget &&& mask s.cfg.jtw.toNat⟩) s) ∧
    ∀ o : AccOperands, exec (.encAccInst o) s = exec (.encAccInst
      ⟨o.opc &&& mask 4, o.osz &&& mask 7, o.ch &&& mask 3, o.pch &&& mask 2, o.bg &&& mask 3,
        o.ba &&& mask 2, o.ro &&& mask 18, o.co &&& mask 7, o.id &&& mask 3, o.aux &&& mask 15⟩) s

/-- The named NDP instructions (41 R108, 30 R71, R85): each answers its word, its opcode value over its
fields. That a named instruction stands for its encode command is the model's reading (log entry
11). -/
def Obligations.NamedNdpInstructionsAnswerTheirWords : Prop :=
  ∀ (s : State) (a : Active) (f : NdpFields), s.Ready a →
    let o := s.tables.params.ndpOpc
    exec (.loadMul f) s = .next (s.answered 0x00 [plainWord 2 f]) ∧
    exec (.scaleAdd f) s = .next (s.answered 0x00 [plainWord o.scaleAdd f]) ∧
    exec (.wbd f) s = .next (s.answered 0x00 [plainWord o.wbd f]) ∧
    exec (.exit f) s = .next (s.answered 0x00 [plainWord o.exit f]) ∧
    exec (.selfExecOn f) s = .next (s.answered 0x00 [plainWord o.selfExecOn f]) ∧
    exec (.selfExecOff f) s = .next (s.answered 0x00 [plainWord o.selfExecOff f]) ∧
    exec (.vred f) s = .next (s.answered 0x00 [plainWord o.vred f]) ∧
    exec (.sred f) s = .next (s.answered 0x00 [plainWord o.sred f]) ∧
    ∀ lc jt, exec (.loop f lc jt) s = .next (s.answered 0x00
      [if s.cfg.jtw = 10 then loopWord10 o.loop f lc jt else loopWord9 o.loop f lc (jt.setWidth 9)])

/-- The named access descriptors (41 R109, 30 R74, R85): each answers its word (log entry 11). -/
def Obligations.NamedDescriptorsAnswerTheirWords : Prop :=
  ∀ (s : State) (a : Active) (f : AccFields), s.Ready a →
    let o := s.tables.params.accOpc
    exec (.rd f) s = .next (s.answered 0x00 [accWord o.rd f]) ∧
    exec (.wr f) s = .next (s.answered 0x00 [accWord o.wr f]) ∧
    exec (.bar f) s = .next (s.answered 0x00 [accWord o.bar f]) ∧
    exec (.wait f) s = .next (s.answered 0x00 [accWord o.wait f]) ∧
    exec (.loopStart f) s = .next (s.answered 0x00 [accWord o.loopStart f]) ∧
    exec (.loopEnd f) s = .next (s.answered 0x00 [accWord o.loopEnd f]) ∧
    exec (.waitRes f) s = .next (s.answered 0x00 [accWord o.waitRes f]) ∧
    exec (.done f) s = .next (s.answered 0x00 [accWord o.done f])

/-- Within its format, no two names share a word: the word a named NDP instruction answers, read as an
NDP word, reads back as that instruction, and the word a named access descriptor answers, read as a
descriptor, as that descriptor, whatever the opcode parameters (00_scope.md R10 makes them distinct
within each format; across the formats words may coincide). A LOOP's jump target comes back
masked to JTW bits. -/
def Obligations.NamedWordsReadBackAsNamed : Prop :=
  ∀ (t : Tables) (jtw : Nat) (f : NdpFields) (g : AccFields) (lc jt : BitVec 10),
    (jtw = 9 ∨ jtw = 10) →
    let o := t.params.ndpOpc
    let p := t.params.accOpc
    nameNdpWord t jtw (plainWord 2 f) = some (.loadMul f) ∧
    nameNdpWord t jtw (plainWord o.scaleAdd f) = some (.scaleAdd f) ∧
    nameNdpWord t jtw (plainWord o.wbd f) = some (.wbd f) ∧
    nameNdpWord t jtw (plainWord o.exit f) = some (.exit f) ∧
    nameNdpWord t jtw (plainWord o.selfExecOn f) = some (.selfExecOn f) ∧
    nameNdpWord t jtw (plainWord o.selfExecOff f) = some (.selfExecOff f) ∧
    nameNdpWord t jtw (plainWord o.vred f) = some (.vred f) ∧
    nameNdpWord t jtw (plainWord o.sred f) = some (.sred f) ∧
    nameNdpWord t jtw (loopWord10 o.loop f lc jt) =
      some (.loop f lc (if jtw = 10 then jt else (jt.setWidth 9).setWidth 10)) ∧
    nameAccWord t (accWord p.rd g) = some (.rd g) ∧ nameAccWord t (accWord p.wr g) = some (.wr g) ∧
    nameAccWord t (accWord p.bar g) = some (.bar g) ∧
    nameAccWord t (accWord p.wait g) = some (.wait g) ∧
    nameAccWord t (accWord p.loopStart g) = some (.loopStart g) ∧
    nameAccWord t (accWord p.loopEnd g) = some (.loopEnd g) ∧
    nameAccWord t (accWord p.waitRes g) = some (.waitRes g) ∧
    nameAccWord t (accWord p.done g) = some (.done g)

/-! ### Payload packer -/

/-- 42_payload_packer.md R110 (the padding of every chunk is the spec's own decision D22): word `w` of the
chunk at `i` is the list's word `i + w`, and 0 after the list's last. -/
def Obligations.ChunkPadsWithZeros : Prop :=
  ∀ (ws : List Word) (i w : Nat), w < 8 →
    (chunk ws i).toList[w]? = some (if h : i + w < ws.length then ws[i + w] else 0)

/-- 42_payload_packer.md R112. A list under 1024 words, the sink taking every record: `ceil(N/8)` records
at columns counting up from the start column are appended, and their count is answered. The sink
taking `k` and refusing the next: the `k` stay, OUTPUT_FAILURE is latched with `k`, and `k` is
answered. A list of 1024 words or more: CAPACITY_OVERFLOW with its length, no record. The first clause
is the packet. -/
def Obligations.PackLinearAppendsItsRecords : Prop :=
  ∀ (s : State) (a : Active) (b : Base) (col : Word) (ws : List Word), s.Ready a →
    let rs := linearRecords (s.profile a) a.ndpScheme b col ws
    encode s.tables (.packLinear b col ws) = (0xC#4 ++ 0#28 ++ BitVec.ofNat 32 ws.length) ::
      b.ch :: b.pch :: b.ra :: b.bg :: b.ba :: b.ro :: col :: ws ∧
    (ws.length < 1024 → s.accepts (chunks ws.length) = true →
      exec (.packLinear b col ws) s = .next { s.skipAnswers (chunks ws.length) with
        out := s.out ++ rs
        packer := none
        responses := s.responses ++ [⟨0x00, [BitVec.ofNat 64 (chunks ws.length)]⟩] }) ∧
    (∀ k, ws.length < 1024 → k < chunks ws.length → s.accepts k = true →
      (s.skipAnswers k).answer = false →
      exec (.packLinear b col ws) s = .next { s.skipAnswers (k + 1) with
        out := s.out ++ rs.take k
        packer := none
        fault := ⟨0x08, 0, BitVec.ofNat 32 k⟩
        responses := s.responses ++ [⟨0x08, [BitVec.ofNat 64 k]⟩] }) ∧
    (1024 ≤ ws.length → exec (.packLinear b col ws) s =
      .next (s.faulted 0x06 0 (BitVec.ofNat 32 (min ws.length (2 ^ 32 - 1))) []))

/-- 42_payload_packer.md R114 (the lane tag and the padding are the spec's own decision D22). One list
under 1024 words for each lane, the sink taking every record: the round-robin's records are appended,
and their count and the cursor are answered. The sink taking `k` and refusing the next: the `k` stay,
OUTPUT_FAILURE is latched with `k`, and count and cursor are answered as they stand. A lane count
other than the active profile's: ILLEGAL_COMMAND with NL, before the capacity check. A list of 1024
words or more: CAPACITY_OVERFLOW with the lowest such lane and its length. The first clause is the
packet. -/
def Obligations.PackInterleavedAppendsItsRecords : Prop :=
  ∀ (s : State) (a : Active) (b : Base) (col : BitVec 7) (ls : List (List Word)), s.Ready a →
    let lanes := (s.profile a).nCh * (s.profile a).nPch
    let rs := interleavedRecords (s.profile a) a.ndpScheme b col ls
    encode s.tables (.packInterleaved b col ls) =
      (0xD#4 ++ 0#44 ++ BitVec.ofNat 8 ls.length ++ 0#1 ++ col) ::
        b.ch :: b.pch :: b.ra :: b.bg :: b.ba :: b.ro ::
          (ls.map (fun l => BitVec.ofNat 64 l.length) ++ ls.flatten) ∧
    (ls.length = lanes → (∀ l ∈ ls, l.length < 1024) → s.accepts rs.length = true →
      exec (.packInterleaved b col ls) s = .next { s.skipAnswers rs.length with
        out := s.out ++ rs
        packer := none
        responses := s.responses ++
          [⟨0x00, [BitVec.ofNat 64 rs.length, BitVec.ofNat 64 ((col.toNat + rs.length) % 128)]⟩] }) ∧
    (∀ k, ls.length = lanes → (∀ l ∈ ls, l.length < 1024) → k < rs.length → s.accepts k = true →
      (s.skipAnswers k).answer = false →
      exec (.packInterleaved b col ls) s = .next { s.skipAnswers (k + 1) with
        out := s.out ++ rs.take k
        packer := none
        fault := ⟨0x08, 0, BitVec.ofNat 32 k⟩
        responses := s.responses ++
          [⟨0x08, [BitVec.ofNat 64 k, BitVec.ofNat 64 ((col.toNat + k) % 128)]⟩] }) ∧
    (ls.length ≠ lanes → exec (.packInterleaved b col ls) s =
      .next (s.faulted 0x01 0 (BitVec.ofNat 32 ls.length) [])) ∧
    (∀ (l : Nat) (big : List Word), ls.length = lanes → ls[l]? = some big → 1024 ≤ big.length →
      (∀ m small, m < l → ls[m]? = some small → small.length < 1024) →
      exec (.packInterleaved b col ls) s =
        .next (s.faulted 0x06 (BitVec.ofNat 8 l) (BitVec.ofNat 32 (min big.length (2 ^ 32 - 1))) []))

/-- The completeness law of 42_payload_packer.md R116 (which the spec derives): the packers append
`ceil(n/8)` records for each list, and each list's payloads in order begin with the list. -/
def Obligations.PackedRecordsHoldTheLists : Prop :=
  ∀ (s : State) (a : Active) (b : Base), s.Ready a →
    (∀ (col : Word) (ws : List Word), ws.length < 1024 → s.accepts (chunks ws.length) = true →
      ∃ t rs, exec (.packLinear b col ws) s = .next t ∧ t.out = s.out ++ rs ∧
        rs.length = chunks ws.length ∧ (rs.flatMap Record.payload).take ws.length = ws) ∧
    (∀ (col : BitVec 7) (ls : List (List Word)),
      ls.length = (s.profile a).nCh * (s.profile a).nPch → (∀ l ∈ ls, l.length < 1024) →
      s.accepts (ls.map fun l => chunks l.length).sum = true →
      ∃ t rs, exec (.packInterleaved b col ls) s = .next t ∧ t.out = s.out ++ rs ∧
        rs.length = (ls.map fun l => chunks l.length).sum ∧
        ∀ l words, ls[l]? = some words →
          ((rs.filter fun r => r.lane == some l).flatMap Record.payload).take words.length = words)

/-- The fairness law of 42_payload_packer.md R115 (which the spec derives): where two records in a row
carry the same lane, every other lane's list was drained before the second. -/
def Obligations.InterleavedFairness : Prop :=
  ∀ (s : State) (a : Active) (b : Base) (col : BitVec 7) (ls : List (List Word)), s.Ready a →
    ls.length = (s.profile a).nCh * (s.profile a).nPch → (∀ l ∈ ls, l.length < 1024) →
    s.accepts (ls.map fun l => chunks l.length).sum = true →
    ∃ t rs, exec (.packInterleaved b col ls) s = .next t ∧ t.out = s.out ++ rs ∧
      ∀ (i : Nat) (r r' : Record), rs[i]? = some r → rs[i + 1]? = some r' → r.lane = r'.lane →
        ∀ l words, ls[l]? = some words → r.lane ≠ some l →
          ((rs.take (i + 1)).filter fun q => q.lane == some l).length = chunks words.length

/-- 42_payload_packer.md R117 (the spec's own decision D23). At most 8 lanes, the sink taking the record:
one STORE is appended whose word `w` is mask bit `w` for a lane that exists and 0 above, and 1 is
answered. The sink refusing it: OUTPUT_FAILURE with 0, and 0 is answered. More than 8 lanes:
LANE_OVERFLOW with their number. The first clause is the packet. -/
def Obligations.PackStartAppendsOneRecord : Prop :=
  ∀ (s : State) (a : Active) (c : Coords) (m : Word), s.Ready a →
    let lanes := (s.profile a).nCh * (s.profile a).nPch
    encode s.tables (.packStart c m) =
      [0xE000000000000000, c.ch, c.pch, c.ra, c.bg, c.ba, c.ro, c.co, m] ∧
    (lanes ≤ 8 → s.answer = true → ∃ p : Chunk,
      exec (.packStart c m) s = .next { s.popAnswer with
        out := s.out ++ [.st (encNdp (s.profile a) a.ndpScheme c) p none]
        packer := none
        responses := s.responses ++ [⟨0x00, [1]⟩] } ∧
      ∀ w v, p.toList[w]? = some v → v = if w < lanes ∧ m.toNat / 2 ^ w % 2 = 1 then 1 else 0) ∧
    (lanes ≤ 8 → s.answer = false →
      exec (.packStart c m) s =
        .next (State.faulted 0x08 0 0 [0] { s.popAnswer with packer := none })) ∧
    (8 < lanes → exec (.packStart c m) s =
      .next (s.faulted 0x07 0 (BitVec.ofNat 32 (min lanes (2 ^ 32 - 1))) []))

/-! ### Trace emitter -/

/-- 43_trace_record.md R125 (the spec's own decision D38): EMIT_LD appends the LOAD record of the address
as given and answers 1; refused, it appends nothing, latches OUTPUT_FAILURE with 0 and answers 0. The
first clause is the packet. -/
def Obligations.EmitLdAppendsTheRecordAsGiven : Prop :=
  ∀ (s : State) (a : Active) (addr : Word), s.Ready a →
    encode s.tables (.emitLd addr) = [0xF000000000000000, addr] ∧
    (s.answer = true → exec (.emitLd addr) s = .next { s.popAnswer with
      out := s.out ++ [.ld addr], responses := s.responses ++ [⟨0x00, [1]⟩] }) ∧
    (s.answer = false → exec (.emitLd addr) s = .next (State.faulted 0x08 0 0 [0] s.popAnswer))

/-- 43_trace_record.md R126 (the spec's own decision D38): EMIT_ST appends the STORE record of the
address and the eight words as given and answers 1; refused, as EMIT_LD. The first clause is the
packet. -/
def Obligations.EmitStAppendsTheRecordAsGiven : Prop :=
  ∀ (s : State) (a : Active) (addr : Word) (c : Chunk), s.Ready a →
    encode s.tables (.emitSt addr c) =
      [0xF000000000000001, addr, c.c0, c.c1, c.c2, c.c3, c.c4, c.c5, c.c6, c.c7] ∧
    (s.answer = true → exec (.emitSt addr c) s = .next { s.popAnswer with
      out := s.out ++ [.st addr c none], responses := s.responses ++ [⟨0x00, [1]⟩] }) ∧
    (s.answer = false → exec (.emitSt addr c) s = .next (State.faulted 0x08 0 0 [0] s.popAnswer))

/-- 43_trace_record.md R127 to R130 (separators and line ends are the spec's own decision D25): the line
of each record, its numbers as `textWord` says, and the file: every line in order, each ended by
LF. -/
def Obligations.RecordTextForm : Prop :=
  (∀ (a : Word) (c : Chunk) (l : Option Nat),
    Record.line (.st a c l) = ['S', 'T', ' '] ++ textWord a ++ [' '] ++ textWord c.c0 ++ [' '] ++
      textWord c.c1 ++ [' '] ++ textWord c.c2 ++ [' '] ++ textWord c.c3 ++ [' '] ++ textWord c.c4 ++
      [' '] ++ textWord c.c5 ++ [' '] ++ textWord c.c6 ++ [' '] ++ textWord c.c7) ∧
  (∀ a : Word, Record.line (.ld a) = ['L', 'D', ' '] ++ textWord a) ∧
  traceText [] = [] ∧
  ∀ (r : Record) (rs : List Record), traceText (r :: rs) = r.line ++ [Char.ofNat 0x0A] ++ traceText rs

/-- The text form carries all but the lane tag (43_trace_record.md): the trace text of two record sequences is the same exactly when
the sequences are the same but for their lane tags. -/
def Obligations.TraceTextDeterminesTheRecords : Prop :=
  ∀ rs rs' : List Record, traceText rs = traceText rs' ↔ rs.map Record.untagged = rs'.map Record.untagged

/-! ### The whole machine -/

/-- Every step keeps the invariant: CFG at its reset value or a legal configuration, FAULT clear or one
of the eight codes, no packer working state outside a command, legal responses. -/
def Obligations.StepKeepsTheInvariant : Prop :=
  ∀ s t : State, s.Inv → step s = .next t → t.Inv

/-- The invariant holds at reset, and after every act of the host. -/
def Obligations.ResetAndHostActsMeetTheInvariant : Prop :=
  State.reset.Inv ∧ ∀ (s : State) (h : HostAct), s.Inv → (s.hostAct h).Inv

/-- A named instruction is the encode command with the name's opcode value (log entry 11), and every
other instruction its own command. -/
def Obligations.NamedInstructionIsItsCommand : Prop :=
  ∀ (i : Instr) (s : State), exec i s = exec (i.command s.tables) s

/-- 30_encoding.md R84 and 10_state.md R30, R34: every step gives exactly one response, OUT only grows at
its end, and the constant tables never change. -/
def Obligations.StepAnswersOnceAndOnlyAppends : Prop :=
  ∀ s t : State, step s = .next t →
    (∃ r, t.responses = s.responses ++ [r]) ∧ (∃ rs, t.out = s.out ++ rs) ∧ t.tables = s.tables

/-- The writers of the registers (10_state.md R22, R29): only CFG_SET writes CFG, and a pending fault
stays until FAULT_CLR. The named instructions count as their encode commands (log entry 11). -/
def Obligations.RegistersHaveOneWriter : Prop :=
  ∀ (s t : State) (i : Instr), exec i s = .next t →
    ((∀ p n m j, i ≠ .cfgSet p n m j) → t.cfg = s.cfg) ∧
    (s.fault.code ≠ 0 → i ≠ .faultClr → t.fault = s.fault)

/-- The frame of the codecs and of CSR_RD (20_memory.md, ordering; 30_encoding.md, the records column of
the command packets): they append no record, ask the sink nothing, and change no register but FAULT,
which changes only where they fault with no fault pending. The named instructions count as their
encode commands (log entry 11). -/
def Obligations.CodecCommandsAppendNothing : Prop :=
  ∀ (s t : State) (i : Instr), exec i s = .next t → i.cmd < 0xC → i.cmd ≠ 1 → i.cmd ≠ 3 →
    ∃ f r, t = { s with fault := f, responses := s.responses ++ [r] } ∧
      (r.code = 0x00 ∨ s.fault.code ≠ 0 → f = s.fault)

/-- 60_exceptions.md R140, R143: a command answered by a fault other than OUTPUT_FAILURE, or refused,
changes nothing but the latch and the responses. The named instructions count as their encode commands
(log entry 11). -/
def Obligations.FaultsArePrecise : Prop :=
  ∀ (s t : State) (i : Instr) (r : Response), exec i s = .next t →
    t.responses = s.responses ++ [r] → r.code ≠ 0x00 → r.code ≠ 0x08 →
    r.results = [] ∧ t = { s with fault := t.fault, responses := t.responses } ∧
      (s.fault.code = 0 → t.fault.code = r.code)

/-- A command of the packers and emitters keeps the rest: whatever the sink answers, PACK and EMIT write
no field of CFG (10_state.md, configuration register), leave no working state behind (packer working
state), and leave the tables and the input behind their packet alone (constant tables, command
input). -/
def Obligations.EmittingCommandsKeepTheRest : Prop :=
  ∀ (s t : State) (i : Instr), exec i s = .next t → 0xC ≤ i.cmd → s.packer = none →
    t.cfg = s.cfg ∧ t.packer = none ∧ t.input = s.input ∧ t.tables = s.tables

/-- A run (70_reset_and_hazards.md, the end of a run; the liveness of its timing rule): after reset, the
packets of any well-formed instructions are all taken, and each is answered. That reset empties the
list of responses and the input is the model's choice (log entry 8), and the packet of a named
instruction is its encode command's (log entry 11). -/
def Obligations.RunAnswersEveryPacket : Prop :=
  ∀ (s : State) (is : List Instr), (∀ i ∈ is, i.WellFormed) →
    let t := s.runFrom (is.map (encode s.tables))
    t.Over ∧ t.input = [] ∧ t.responses.length = is.length

/-- Responses (30_encoding.md, command packets; the spec's own decision D2). The words of a response: a
header with the code at [7:0], the number of result words at [15:8] and zeros above, then the result words. Every command
gives one response, its code success, a fault code or 0xFF, with the command's result words on success
or OUTPUT_FAILURE and none on any other fault or a refusal; and so does every illegal packet. That a
named instruction answers as its encode command, with one result word, is the model's choice (log
entry 11). -/
def Obligations.ResponsesFollowTheFormat : Prop :=
  (∀ r : Response, r.results.length < 2 ^ 8 →
    r.words = (0#48 ++ BitVec.ofNat 8 r.results.length ++ r.code) :: r.results) ∧
  (∀ (s : State) (i : Instr), ∃ t r, exec i s = .next t ∧ t.responses = s.responses ++ [r] ∧
    (r.code.toNat ≤ 8 ∨ r.code = 0xFF) ∧
    (r.code = 0x00 ∨ r.code = 0x08 → r.results.length = i.resultCount) ∧
    (r.code ≠ 0x00 → r.code ≠ 0x08 → r.results = [])) ∧
  ∀ (s : State) (h : Word) (rest : List Word), decode s.input = .illegal h rest →
    ∃ t r, step s = .next t ∧ t.responses = s.responses ++ [r] ∧ (r.code = 0x01 ∨ r.code = 0xFF) ∧
      r.results = []

/-- The premise of a generation (70_reset_and_hazards.md, boot). In a clean-entry state every codec, pack
and emit command (codes 0x4 to 0xF) runs: it is answered, and neither by NOT_CONFIGURED nor by the
refusal code. No packet is partly received, so the block takes every packet of the input and ends
over. The named instructions count as their encode commands, of codes 0x8 and 0xA (log entry 11). -/
def Obligations.CleanEntryRunsToItsEnd : Prop :=
  ∀ (s : State) (a : Active) (taken : Nat), s.CleanEntry a taken →
    (∀ i : Instr, 0x4 ≤ i.cmd → ∃ t r, exec i s = .next t ∧ t.responses = s.responses ++ [r] ∧
      r.code ≠ 0x05 ∧ r.code ≠ 0xFF) ∧
    (s.runOut s.input.length).Over
end

