-- ==== Sys2Proof/Laws/Bits.lean ====
section
/-! SUPPORT. The bits of the notation's helpers: what `mask`, `place`, `extract`, `slice` and `zext` hold
at each bit, and when a field read finds a field placed. Proofs about encoders and decoders cite these
and unfold none of the helpers. -/

namespace Sys2Proof.Laws

theorem getLsbD_mask (w i : Nat) : (mask w).getLsbD i = (decide (i < 64) && decide (i < w)) := by
  rw [mask, BitVec.getLsbD_ofNat, Nat.testBit_two_pow_sub_one]

theorem getLsbD_place (v : Word) (w lo i : Nat) :
    (place v w lo).getLsbD i =
      (decide (i < 64) && decide (lo ≤ i) && decide (i - lo < w) && v.getLsbD (i - lo)) := by
  rw [place, BitVec.getLsbD_shiftLeft, BitVec.getLsbD_and, getLsbD_mask]
  rcases Nat.lt_or_ge i 64 with h1 | h1
  · have h3 : i - lo < 64 := by omega
    rcases Nat.lt_or_ge i lo with h2 | h2
    · simp only [h1, h2, Nat.not_le.mpr h2, decide_true, decide_false, Bool.not_true, Bool.and_false,
        Bool.false_and]
    · simp only [h1, h2, h3, Nat.not_lt.mpr h2, decide_true, decide_false, Bool.not_false,
        Bool.true_and, Bool.and_comm]
  · simp only [Nat.not_lt.mpr h1, decide_false, Bool.false_and]

theorem getLsbD_extract (x : Word) (w lo i : Nat) :
    (extract x w lo).getLsbD i = (decide (i < w) && x.getLsbD (lo + i)) := by
  rw [extract, BitVec.getLsbD_and, BitVec.getLsbD_ushiftRight, getLsbD_mask]
  rcases Nat.lt_or_ge i 64 with h | h
  · simp only [h, decide_true, Bool.true_and, Bool.and_comm]
  · rw [BitVec.getLsbD_of_ge x (lo + i) (by omega)]
    simp only [Bool.false_and, Bool.and_false]

theorem getLsbD_slice (x : Word) (lo w i : Nat) :
    (slice x lo w).getLsbD i = (decide (i < w) && x.getLsbD (lo + i)) := by
  rw [slice, BitVec.getLsbD_extractLsb']

theorem getLsbD_zext {w : Nat} (v : BitVec w) (i : Nat) :
    (zext v).getLsbD i = (decide (i < 64) && v.getLsbD i) := by
  rw [zext, BitVec.getLsbD_setWidth]

/-- A field placed and read back is the operand masked to the field's width (R77, R149). -/
theorem extract_place_same (v : Word) (w lo : Nat) (h : lo + w ≤ 64) :
    extract (place v w lo) w lo = v &&& mask w := by
  apply BitVec.eq_of_getLsbD_eq
  intro i hi
  rw [getLsbD_extract, getLsbD_place, BitVec.getLsbD_and, getLsbD_mask, Nat.add_sub_cancel_left]
  rcases Nat.lt_or_ge i w with hw | hw
  · have h1 : lo + i < 64 := by omega
    simp only [hw, hi, h1, Nat.le_add_right, decide_true, Bool.true_and, Bool.and_true]
  · simp only [Nat.not_lt.mpr hw, decide_false, Bool.false_and, Bool.and_false]

/-- A field read finds nothing of a field placed wholly below it or above it. -/
theorem extract_place_apart (v : Word) (w w' lo lo' : Nat) (h : lo + w ≤ lo' ∨ lo' + w' ≤ lo) :
    extract (place v w lo) w' lo' = 0 := by
  apply BitVec.eq_of_getLsbD_eq
  intro i hi
  rw [getLsbD_extract, getLsbD_place, show (0 : BitVec _).getLsbD i = false from BitVec.getLsbD_zero]
  rcases Nat.lt_or_ge i w' with hw | hw
  · rcases Nat.lt_or_ge (lo' + i) lo with h1 | h1
    · simp only [Nat.not_le.mpr h1, decide_false, Bool.false_and, Bool.and_false]
    · have h2 : ¬ lo' + i - lo < w := by omega
      simp only [h2, decide_false, Bool.false_and, Bool.and_false]
  · simp only [Nat.not_lt.mpr hw, decide_false, Bool.false_and]

/-- A field read of the encoders' OR. -/
theorem extract_or (x y : Word) (w lo : Nat) :
    extract (x ||| y) w lo = extract x w lo ||| extract y w lo := by
  apply BitVec.eq_of_getLsbD_eq
  intro i hi
  rw [BitVec.getLsbD_or, getLsbD_extract, getLsbD_extract, getLsbD_extract, BitVec.getLsbD_or,
    Bool.and_or_distrib_left]

/-- A word masked to a width it fits in is the word. -/
theorem zext_and_mask {w : Nat} (v : BitVec w) : zext v &&& mask w = zext v := by
  apply BitVec.eq_of_getLsbD_eq
  intro i hi
  rw [BitVec.getLsbD_and, getLsbD_zext, getLsbD_mask]
  rcases Nat.lt_or_ge i w with hw | hw
  · simp only [hi, hw, decide_true, Bool.and_true, Bool.true_and]
  · rw [BitVec.getLsbD_of_ge v i hw]
    simp only [Bool.and_false, Bool.false_and]

/-- A slice is the field read at its own width. -/
theorem zext_slice (x : Word) (lo w : Nat) : zext (slice x lo w) = extract x w lo := by
  apply BitVec.eq_of_getLsbD_eq
  intro i hi
  rw [getLsbD_zext, getLsbD_slice, getLsbD_extract]
  simp only [hi, decide_true, Bool.true_and]

/-- The header's CMD field, once placed, reads back. -/
theorem slice_place_zext {w : Nat} (v : BitVec w) (lo : Nat) (h : lo + w ≤ 64) :
    slice (place (zext v) w lo) lo w = v := by
  apply BitVec.eq_of_getLsbD_eq
  intro i hi
  rw [getLsbD_slice, getLsbD_place, getLsbD_zext, Nat.add_sub_cancel_left]
  have h1 : lo + i < 64 := by omega
  have h2 : i < 64 := by omega
  simp only [hi, h1, h2, Nat.le_add_right, decide_true, Bool.true_and, Bool.and_true]

/-- A slice of an OR. -/
theorem slice_or (x y : Word) (lo w : Nat) : slice (x ||| y) lo w = slice x lo w ||| slice y lo w := by
  apply BitVec.eq_of_getLsbD_eq
  intro i hi
  rw [BitVec.getLsbD_or, getLsbD_slice, getLsbD_slice, getLsbD_slice, BitVec.getLsbD_or,
    Bool.and_or_distrib_left]

/-- A slice finds nothing of a field placed wholly below it or above it. -/
theorem slice_place_apart (v : Word) (w w' lo lo' : Nat) (h : lo + w ≤ lo' ∨ lo' + w' ≤ lo) :
    slice (place v w lo) lo' w' = 0 := by
  apply BitVec.eq_of_getLsbD_eq
  intro i hi
  rw [getLsbD_slice, getLsbD_place, show (0 : BitVec _).getLsbD i = false from BitVec.getLsbD_zero]
  rcases Nat.lt_or_ge (lo' + i) lo with h1 | h1
  · simp only [Nat.not_le.mpr h1, decide_false, Bool.false_and, Bool.and_false]
  · have h2 : ¬ lo' + i - lo < w := by omega
    simp only [h2, decide_false, Bool.false_and, Bool.and_false]

end Sys2Proof.Laws
end

