-- ==== Sys2Proof/Laws/Codec.lean ====
section
/-! SUPPORT. What the address encoders' loop builds: zeros below its start, zeros above its top, and at
each field's place the operand masked (40_address_codec.md R91, R93). Proofs about the address codec
cite these and unfold no loop. -/

namespace Sys2Proof.Laws

open Sys2Proof.Machine

variable (width : Field → Nat) (v : Field → Word)

/-- The bits below the first field are 0. -/
theorem getLsbD_encodeFields_below (fs : List Field) (pos i : Nat) (h : i < pos) :
    (encodeFields width v fs pos).getLsbD i = false := by
  induction fs generalizing pos with
  | nil => exact BitVec.getLsbD_zero
  | cons f fs ih =>
    rw [encodeFields, BitVec.getLsbD_or, getLsbD_place, ih _ (by omega)]
    simp only [Nat.not_le.mpr h, decide_false, Bool.and_false, Bool.false_and, Bool.or_self]

/-- The bits above the last field are 0. -/
theorem getLsbD_encodeFields_above (fs : List Field) (pos i : Nat) (h : fieldsTop width fs pos ≤ i) :
    (encodeFields width v fs pos).getLsbD i = false := by
  induction fs generalizing pos with
  | nil => exact BitVec.getLsbD_zero
  | cons f fs ih =>
    rw [fieldsTop, List.map_cons, List.sum_cons] at h
    rw [encodeFields, BitVec.getLsbD_or, getLsbD_place, ih _ (by rw [fieldsTop]; omega)]
    have h1 : ¬ i - pos < width f := by omega
    simp only [h1, decide_false, Bool.and_false, Bool.false_and, Bool.or_self]

/-- At a field's place stands its operand, masked to the field's width. -/
theorem getLsbD_encodeFields (fs : List Field) (pos : Nat) (f : Field) (hf : f ∈ fs) (hn : fs.Nodup)
    (i : Nat) (hi : i < width f) (ht : fieldsTop width fs pos ≤ 64) :
    (encodeFields width v fs pos).getLsbD (fieldLo width fs pos f + i) = (v f).getLsbD i := by
  induction fs generalizing pos with
  | nil => exact absurd hf List.not_mem_nil
  | cons g fs ih =>
    rw [List.nodup_cons] at hn
    rw [fieldsTop, List.map_cons, List.sum_cons] at ht
    rw [encodeFields, BitVec.getLsbD_or, fieldLo]
    by_cases e : g = f
    · subst e
      have h1 : pos + i < 64 := by omega
      rw [if_pos rfl, getLsbD_place, getLsbD_encodeFields_below _ _ _ _ _ (by omega),
        Nat.add_sub_cancel_left]
      simp only [h1, hi, Nat.le_add_right, decide_true, Bool.true_and, Bool.or_false]
    · have hm : f ∈ fs := (List.mem_cons.mp hf).resolve_left fun c => e c.symm
      have hlo : ∀ (gs : List Field) (q : Nat), q ≤ fieldLo width gs q f := by
        intro gs
        induction gs with
        | nil => intro q; exact Nat.le_refl q
        | cons k gs ihg =>
          intro q
          rw [fieldLo]
          split
          · exact Nat.le_refl q
          · exact Nat.le_trans (Nat.le_add_right ..) (ihg _)
      have h1 : ¬ fieldLo width fs (pos + width g) f + i - pos < width g := by
        have := hlo fs (pos + width g)
        omega
      rw [if_neg e, getLsbD_place, ih _ hm hn.2 (by rw [fieldsTop]; omega)]
      simp only [h1, decide_false, Bool.and_false, Bool.false_and, Bool.false_or]

end Sys2Proof.Laws
end

