-- ==== Sys2Proof/Laws/State.lean ====
section
/-! SUPPORT. What each named update leaves in each field of the state, true by `rfl`; for the fault latch
and the sink's answer, which choose a case, what they leave alone. -/

namespace Sys2Proof.Laws

open Sys2Proof.Machine

variable (s : State)

@[simp] theorem respond_tables (c : BitVec 8) (rs : List Word) : (s.respond c rs).tables = s.tables := rfl
@[simp] theorem respond_cfg (c : BitVec 8) (rs : List Word) : (s.respond c rs).cfg = s.cfg := rfl
@[simp] theorem respond_fault (c : BitVec 8) (rs : List Word) : (s.respond c rs).fault = s.fault := rfl
@[simp] theorem respond_out (c : BitVec 8) (rs : List Word) : (s.respond c rs).out = s.out := rfl
@[simp] theorem respond_packer (c : BitVec 8) (rs : List Word) : (s.respond c rs).packer = s.packer := rfl
@[simp] theorem respond_input (c : BitVec 8) (rs : List Word) : (s.respond c rs).input = s.input := rfl
@[simp] theorem respond_responses (c : BitVec 8) (rs : List Word) : (s.respond c rs).responses = s.responses ++ [⟨c, rs⟩] := rfl
@[simp] theorem respond_sink (c : BitVec 8) (rs : List Word) : (s.respond c rs).sink = s.sink := rfl
@[simp] theorem respond_draws (c : BitVec 8) (rs : List Word) : (s.respond c rs).draws = s.draws := rfl

@[simp] theorem clearFault_tables : (s.clearFault).tables = s.tables := rfl
@[simp] theorem clearFault_cfg : (s.clearFault).cfg = s.cfg := rfl
@[simp] theorem clearFault_fault : (s.clearFault).fault = ⟨0, 0, 0⟩ := rfl
@[simp] theorem clearFault_out : (s.clearFault).out = s.out := rfl
@[simp] theorem clearFault_packer : (s.clearFault).packer = s.packer := rfl
@[simp] theorem clearFault_input : (s.clearFault).input = s.input := rfl
@[simp] theorem clearFault_responses : (s.clearFault).responses = s.responses := rfl
@[simp] theorem clearFault_sink : (s.clearFault).sink = s.sink := rfl
@[simp] theorem clearFault_draws : (s.clearFault).draws = s.draws := rfl

@[simp] theorem setCfg_tables (c : Cfg) : (s.setCfg c).tables = s.tables := rfl
@[simp] theorem setCfg_cfg (c : Cfg) : (s.setCfg c).cfg = c := rfl
@[simp] theorem setCfg_fault (c : Cfg) : (s.setCfg c).fault = s.fault := rfl
@[simp] theorem setCfg_out (c : Cfg) : (s.setCfg c).out = s.out := rfl
@[simp] theorem setCfg_packer (c : Cfg) : (s.setCfg c).packer = s.packer := rfl
@[simp] theorem setCfg_input (c : Cfg) : (s.setCfg c).input = s.input := rfl
@[simp] theorem setCfg_responses (c : Cfg) : (s.setCfg c).responses = s.responses := rfl
@[simp] theorem setCfg_sink (c : Cfg) : (s.setCfg c).sink = s.sink := rfl
@[simp] theorem setCfg_draws (c : Cfg) : (s.setCfg c).draws = s.draws := rfl

@[simp] theorem setInput_tables (ws : List Word) : (s.setInput ws).tables = s.tables := rfl
@[simp] theorem setInput_cfg (ws : List Word) : (s.setInput ws).cfg = s.cfg := rfl
@[simp] theorem setInput_fault (ws : List Word) : (s.setInput ws).fault = s.fault := rfl
@[simp] theorem setInput_out (ws : List Word) : (s.setInput ws).out = s.out := rfl
@[simp] theorem setInput_packer (ws : List Word) : (s.setInput ws).packer = s.packer := rfl
@[simp] theorem setInput_input (ws : List Word) : (s.setInput ws).input = ws := rfl
@[simp] theorem setInput_responses (ws : List Word) : (s.setInput ws).responses = s.responses := rfl
@[simp] theorem setInput_sink (ws : List Word) : (s.setInput ws).sink = s.sink := rfl
@[simp] theorem setInput_draws (ws : List Word) : (s.setInput ws).draws = s.draws := rfl

@[simp] theorem append_tables (r : Record) : (s.append r).tables = s.tables := rfl
@[simp] theorem append_cfg (r : Record) : (s.append r).cfg = s.cfg := rfl
@[simp] theorem append_fault (r : Record) : (s.append r).fault = s.fault := rfl
@[simp] theorem append_out (r : Record) : (s.append r).out = s.out ++ [r] := rfl
@[simp] theorem append_packer (r : Record) : (s.append r).packer = s.packer := rfl
@[simp] theorem append_input (r : Record) : (s.append r).input = s.input := rfl
@[simp] theorem append_responses (r : Record) : (s.append r).responses = s.responses := rfl
@[simp] theorem append_sink (r : Record) : (s.append r).sink = s.sink := rfl
@[simp] theorem append_draws (r : Record) : (s.append r).draws = s.draws := rfl

@[simp] theorem setPacker_tables (p : Option Packer) : (s.setPacker p).tables = s.tables := rfl
@[simp] theorem setPacker_cfg (p : Option Packer) : (s.setPacker p).cfg = s.cfg := rfl
@[simp] theorem setPacker_fault (p : Option Packer) : (s.setPacker p).fault = s.fault := rfl
@[simp] theorem setPacker_out (p : Option Packer) : (s.setPacker p).out = s.out := rfl
@[simp] theorem setPacker_packer (p : Option Packer) : (s.setPacker p).packer = p := rfl
@[simp] theorem setPacker_input (p : Option Packer) : (s.setPacker p).input = s.input := rfl
@[simp] theorem setPacker_responses (p : Option Packer) : (s.setPacker p).responses = s.responses := rfl
@[simp] theorem setPacker_sink (p : Option Packer) : (s.setPacker p).sink = s.sink := rfl
@[simp] theorem setPacker_draws (p : Option Packer) : (s.setPacker p).draws = s.draws := rfl

@[simp] theorem hostWrite_tables (ws : List Word) : (s.hostWrite ws).tables = s.tables := rfl
@[simp] theorem hostWrite_cfg (ws : List Word) : (s.hostWrite ws).cfg = s.cfg := rfl
@[simp] theorem hostWrite_fault (ws : List Word) : (s.hostWrite ws).fault = s.fault := rfl
@[simp] theorem hostWrite_out (ws : List Word) : (s.hostWrite ws).out = s.out := rfl
@[simp] theorem hostWrite_packer (ws : List Word) : (s.hostWrite ws).packer = s.packer := rfl
@[simp] theorem hostWrite_input (ws : List Word) : (s.hostWrite ws).input = s.input ++ ws := rfl
@[simp] theorem hostWrite_responses (ws : List Word) : (s.hostWrite ws).responses = s.responses := rfl
@[simp] theorem hostWrite_sink (ws : List Word) : (s.hostWrite ws).sink = s.sink := rfl
@[simp] theorem hostWrite_draws (ws : List Word) : (s.hostWrite ws).draws = s.draws := rfl

@[simp] theorem hostSink_tables (bs : List Bool) : (s.hostSink bs).tables = s.tables := rfl
@[simp] theorem hostSink_cfg (bs : List Bool) : (s.hostSink bs).cfg = s.cfg := rfl
@[simp] theorem hostSink_fault (bs : List Bool) : (s.hostSink bs).fault = s.fault := rfl
@[simp] theorem hostSink_out (bs : List Bool) : (s.hostSink bs).out = s.out := rfl
@[simp] theorem hostSink_packer (bs : List Bool) : (s.hostSink bs).packer = s.packer := rfl
@[simp] theorem hostSink_input (bs : List Bool) : (s.hostSink bs).input = s.input := rfl
@[simp] theorem hostSink_responses (bs : List Bool) : (s.hostSink bs).responses = s.responses := rfl
@[simp] theorem hostSink_sink (bs : List Bool) : (s.hostSink bs).sink = s.sink ++ bs := rfl
@[simp] theorem hostSink_draws (bs : List Bool) : (s.hostSink bs).draws = s.draws := rfl

@[simp] theorem latch_tables (c : FaultCode) (lane info : Nat) : (s.latch c lane info).tables = s.tables := by
  unfold State.latch; split <;> rfl
@[simp] theorem latch_cfg (c : FaultCode) (lane info : Nat) : (s.latch c lane info).cfg = s.cfg := by
  unfold State.latch; split <;> rfl
@[simp] theorem latch_out (c : FaultCode) (lane info : Nat) : (s.latch c lane info).out = s.out := by
  unfold State.latch; split <;> rfl
@[simp] theorem latch_packer (c : FaultCode) (lane info : Nat) : (s.latch c lane info).packer = s.packer := by
  unfold State.latch; split <;> rfl
@[simp] theorem latch_input (c : FaultCode) (lane info : Nat) : (s.latch c lane info).input = s.input := by
  unfold State.latch; split <;> rfl
@[simp] theorem latch_responses (c : FaultCode) (lane info : Nat) : (s.latch c lane info).responses = s.responses := by
  unfold State.latch; split <;> rfl
@[simp] theorem latch_sink (c : FaultCode) (lane info : Nat) : (s.latch c lane info).sink = s.sink := by
  unfold State.latch; split <;> rfl
@[simp] theorem latch_draws (c : FaultCode) (lane info : Nat) : (s.latch c lane info).draws = s.draws := by
  unfold State.latch; split <;> rfl

/-- The latch with no fault pending (60_exceptions.md R143). -/
theorem latch_fault_clear (c : FaultCode) (lane info : Nat) (h : s.fault.code = 0) :
    (s.latch c lane info).fault = ⟨c.bits, BitVec.ofNat 8 lane, BitVec.ofNat 32 info⟩ := by
  rw [State.latch, if_pos h]

/-- The latch with a fault pending: the first fault wins (60_exceptions.md R143). -/
theorem latch_pending (c : FaultCode) (lane info : Nat) (h : s.fault.code ≠ 0) :
    s.latch c lane info = s := by
  rw [State.latch, if_neg h]

@[simp] theorem popAnswer_tables : s.popAnswer.tables = s.tables := by
  unfold State.popAnswer; split <;> rfl
@[simp] theorem popAnswer_cfg : s.popAnswer.cfg = s.cfg := by
  unfold State.popAnswer; split <;> rfl
@[simp] theorem popAnswer_fault : s.popAnswer.fault = s.fault := by
  unfold State.popAnswer; split <;> rfl
@[simp] theorem popAnswer_out : s.popAnswer.out = s.out := by
  unfold State.popAnswer; split <;> rfl
@[simp] theorem popAnswer_packer : s.popAnswer.packer = s.packer := by
  unfold State.popAnswer; split <;> rfl
@[simp] theorem popAnswer_input : s.popAnswer.input = s.input := by
  unfold State.popAnswer; split <;> rfl
@[simp] theorem popAnswer_responses : s.popAnswer.responses = s.responses := by
  unfold State.popAnswer; split <;> rfl

/-- An answer the host has decided is taken from `sink` (60_exceptions.md R147). -/
theorem popAnswer_decided (b : Bool) (bs : List Bool) (h : s.sink = b :: bs) :
    s.answer = b ∧ s.popAnswer = { s with sink := bs } := by
  simp only [State.answer, State.popAnswer, h, and_self]

/-- With none decided the answer is a free draw (60_exceptions.md R147). -/
theorem popAnswer_drawn (h : s.sink = []) :
    s.answer = Config.sinkAccepts s.draws ∧ s.popAnswer = { s with draws := s.draws + 1 } := by
  simp only [State.answer, State.popAnswer, h, and_self]

@[simp] theorem skipAnswers_tables (n : Nat) : (s.skipAnswers n).tables = s.tables := by
  induction n generalizing s with
  | zero => rfl
  | succ n ih => rw [State.skipAnswers, ih, popAnswer_tables]
@[simp] theorem skipAnswers_cfg (n : Nat) : (s.skipAnswers n).cfg = s.cfg := by
  induction n generalizing s with
  | zero => rfl
  | succ n ih => rw [State.skipAnswers, ih, popAnswer_cfg]
@[simp] theorem skipAnswers_fault (n : Nat) : (s.skipAnswers n).fault = s.fault := by
  induction n generalizing s with
  | zero => rfl
  | succ n ih => rw [State.skipAnswers, ih, popAnswer_fault]
@[simp] theorem skipAnswers_out (n : Nat) : (s.skipAnswers n).out = s.out := by
  induction n generalizing s with
  | zero => rfl
  | succ n ih => rw [State.skipAnswers, ih, popAnswer_out]
@[simp] theorem skipAnswers_packer (n : Nat) : (s.skipAnswers n).packer = s.packer := by
  induction n generalizing s with
  | zero => rfl
  | succ n ih => rw [State.skipAnswers, ih, popAnswer_packer]
@[simp] theorem skipAnswers_input (n : Nat) : (s.skipAnswers n).input = s.input := by
  induction n generalizing s with
  | zero => rfl
  | succ n ih => rw [State.skipAnswers, ih, popAnswer_input]
@[simp] theorem skipAnswers_responses (n : Nat) : (s.skipAnswers n).responses = s.responses := by
  induction n generalizing s with
  | zero => rfl
  | succ n ih => rw [State.skipAnswers, ih, popAnswer_responses]

/-- Raising with no fault pending (60_exceptions.md R143). -/
theorem raise_clear (c : FaultCode) (lane info : Nat) (rs : List Word) (h : s.fault.code = 0) :
    s.raise c lane info rs =
      { s with
        fault := ⟨c.bits, BitVec.ofNat 8 lane, BitVec.ofNat 32 info⟩
        responses := s.responses ++ [⟨c.bits, rs⟩] } := by
  rw [State.raise, State.latch, if_pos h]; rfl

/-- Raising with a fault pending: only the response (60_exceptions.md R143). -/
theorem raise_pending (c : FaultCode) (lane info : Nat) (rs : List Word) (h : s.fault.code ≠ 0) :
    s.raise c lane info rs = s.respond c.bits rs := by
  rw [State.raise, latch_pending s c lane info h]

end Sys2Proof.Laws
end

