-- ==== Sys2Proof/Laws/Ops.lean ====
section
/-! SUPPORT. One lemma for each shared operation: all it can do. Proofs about a meaning cite these and
unfold none of the operations. -/

namespace Sys2Proof.Laws

open Sys2Proof.Machine

variable (s : State)

/-- Step 1 of R141, passed. -/
theorem whenNoFault_clear (body : State → State) (h : s.fault.code = 0) :
    s.whenNoFault body = body s := by
  rw [State.whenNoFault, if_pos h]

/-- Step 1 of R141: refused (R144). -/
theorem whenNoFault_pending (body : State → State) (h : s.fault.code ≠ 0) :
    s.whenNoFault body = s.refuse := by
  rw [State.whenNoFault, if_neg h]

/-- Steps 1 and 3 of R141, both passed. -/
theorem whenConfigured_active (cmd : Nat) (body : Active → State → State) (a : Active)
    (h : s.fault.code = 0) (ha : s.cfg.active = some a) : s.whenConfigured cmd body = body a s := by
  rw [State.whenConfigured, whenNoFault_clear s _ h]; simp only [ha]

/-- Step 3 of R141: not configured. -/
theorem whenConfigured_inactive (cmd : Nat) (body : Active → State → State)
    (h : s.fault.code = 0) (ha : s.cfg.active = none) :
    s.whenConfigured cmd body = s.raise .notConfigured 0 cmd [] := by
  rw [State.whenConfigured, whenNoFault_clear s _ h]; simp only [ha]

/-- Step 1 of R141: refused (R144). -/
theorem whenConfigured_pending (cmd : Nat) (body : Active → State → State)
    (h : s.fault.code ≠ 0) : s.whenConfigured cmd body = s.refuse :=
  whenNoFault_pending s _ h

/-- All a command of codes 0x4 to 0xF can do before its own pseudocode (R141). -/
theorem whenConfigured_cases (cmd : Nat) (body : Active → State → State) :
    (s.fault.code ≠ 0 ∧ s.whenConfigured cmd body = s.refuse) ∨
      (s.fault.code = 0 ∧ s.cfg.active = none ∧
        s.whenConfigured cmd body = s.raise .notConfigured 0 cmd []) ∨
      ∃ a, s.fault.code = 0 ∧ s.cfg.active = some a ∧ s.whenConfigured cmd body = body a s := by
  by_cases h : s.fault.code = 0
  · cases ha : s.cfg.active with
    | none => exact .inr (.inl ⟨h, rfl, whenConfigured_inactive s cmd body h ha⟩)
    | some a => exact .inr (.inr ⟨a, h, rfl, whenConfigured_active s cmd body a h ha⟩)
  · exact .inl ⟨h, whenConfigured_pending s cmd body h⟩

/-- All `Emit` can do (R13, R147). -/
theorem emit_cases (r : Record) :
    (s.answer = true ∧ s.emit r = (true, s.popAnswer.append r)) ∨
      (s.answer = false ∧ s.emit r = (false, s.popAnswer)) := by
  unfold State.emit
  cases h : s.answer <;> simp

/-- A command of one record whose record the sink takes. -/
theorem emitOne_accepted (r : Record) (h : s.answer = true) :
    s.emitOne r = (s.popAnswer.append r).respond 0 [1] := by
  simp only [State.emitOne, State.emit, h, if_true]

/-- A command of one record whose record the sink refuses (R147). -/
theorem emitOne_refused (r : Record) (h : s.answer = false) :
    s.emitOne r = s.popAnswer.raise .outputFailure 0 0 [0] := by
  simp only [State.emitOne, State.emit, h, Bool.false_eq_true, if_false]

/-- Raising a fault leaves CFG, OUT, the tables, the input, the packer and the sink alone (R143). -/
theorem raise_frame (c : FaultCode) (lane info : Nat) (rs : List Word) :
    (s.raise c lane info rs).tables = s.tables ∧ (s.raise c lane info rs).cfg = s.cfg ∧
      (s.raise c lane info rs).out = s.out ∧ (s.raise c lane info rs).packer = s.packer ∧
      (s.raise c lane info rs).input = s.input ∧ (s.raise c lane info rs).sink = s.sink ∧
      (s.raise c lane info rs).draws = s.draws ∧
      (s.raise c lane info rs).responses = s.responses ++ [⟨c.bits, rs⟩] := by
  simp [State.raise]

end Sys2Proof.Laws
end

