-- ==== Sys2Proof/Laws/Packer.lean ====
section
/-! SUPPORT. What the PACK commands do, once for all three: a chunk is emitted or refused, a command ends
with or without a refused record; for the two that pack lists, a drain is one pass over its lanes
repeated, and a pass appends a planned list of records as far as the sink takes them. Proofs about the
packers cite these and unfold no round. -/

namespace Sys2Proof.Laws

open Sys2Proof.Machine

variable (addr : Packer → Word) (tag : Nat → Option Nat)

/-- The cursor one chunk on, then `n` more. -/
theorem col_succ (c : BitVec 7) (n : Nat) :
    c + 1 + BitVec.ofNat 7 n = c + BitVec.ofNat 7 (n + 1) := by
  rw [Nat.add_comm n 1, BitVec.ofNat_add, BitVec.add_assoc]
  rfl

/-- The record a visit of a pending lane emits (42_payload_packer.md R114). -/
def visitRecord (p : Packer) (l : Nat) : Record := .st (addr p) (chunk (p.list l) (p.index l)) (tag l)

/-- The records a pass over a list of lanes emits, the sink taking all. -/
def passRecords : List Nat → Packer → List Record
  | [], _ => []
  | l :: ls, p =>
    if p.pending l then visitRecord addr tag p l :: passRecords ls (p.advance l) else passRecords ls p

/-- The working state after a pass, the sink taking all. -/
def passEnd : List Nat → Packer → Packer
  | [], p => p
  | l :: ls, p => if p.pending l then passEnd ls (p.advance l) else passEnd ls p

/-- The lanes a pass finds pending, each with its read index. -/
def passVisits : List Nat → Packer → List (Nat × Nat)
  | [], _ => []
  | l :: ls, p =>
    if p.pending l then (l, p.index l) :: passVisits ls (p.advance l) else passVisits ls p

/-- A state inside a PACK command: OUT and the working state as given. -/
def packing (s : State) (o : List Record) (p : Packer) : State := { s with out := o, packer := some p }

theorem popAnswer_packing (s : State) (o : List Record) (p : Packer) :
    (packing s o p).popAnswer = packing s.popAnswer o p := by
  unfold State.popAnswer packing
  cases s.sink <;> rfl

/-- All the emission of a chunk can do: the record taken and the working state on, or both refused. -/
theorem emitChunk_packing (r : Record) (q : Packer) (s : State) (o : List Record) (p : Packer) :
    (packing s o p).emitChunk r q =
      if s.answer then (true, packing s.popAnswer (o ++ [r]) q)
      else (false, packing s.popAnswer o p) := by
  have ha : (packing s o p).answer = s.answer := rfl
  cases h : s.answer
  · simp only [State.emitChunk, State.emit, ha, h, popAnswer_packing, Bool.false_eq_true, if_false]
  · simp only [State.emitChunk, State.emit, ha, h, popAnswer_packing, if_true]
    rfl

/-- The end of a PACK command whose records were all taken (R112, R114, R117). -/
theorem packEnd_taken (results : Packer → List Word) (s : State) (o : List Record) (p : Packer) :
    State.packEnd results (true, packing s o p) =
      State.respond 0 (results p) { s with out := o, packer := none } := rfl

/-- The end of a PACK command one of whose records was refused (R147). -/
theorem packEnd_refused (results : Packer → List Word) (s : State) (o : List Record) (p : Packer) :
    State.packEnd results (false, packing s o p) =
      State.raise .outputFailure 0 p.k (results p) { s with out := o, packer := none } := rfl

/-- All a visit can do: nothing for a drained lane, else one record, taken or refused. -/
theorem visitLane_packing (l : Nat) (s : State) (o : List Record) (p : Packer) :
    visitLane addr tag l (packing s o p) =
      if p.pending l then
        if s.answer then
          (true, packing s.popAnswer (o ++ [visitRecord addr tag p l]) (p.advance l))
        else (false, packing s.popAnswer o p)
      else (true, packing s o p) := by
  show (if p.pending l then
      (packing s o p).emitChunk (visitRecord addr tag p l) (p.advance l)
    else (true, packing s o p)) = _
  rw [emitChunk_packing]

/-- A pass whose records the sink takes. -/
theorem visitRound_taken (ls : List Nat) (s : State) (o : List Record) (p : Packer)
    (h : s.accepts (passRecords addr tag ls p).length = true) :
    visitRound addr tag ls (packing s o p) =
      (true, packing (s.skipAnswers (passRecords addr tag ls p).length)
        (o ++ passRecords addr tag ls p) (passEnd ls p)) := by
  induction ls generalizing s o p with
  | nil => simp only [passRecords, passEnd, visitRound, List.append_nil]; rfl
  | cons l ls ih =>
    rw [visitRound, visitLane_packing]
    by_cases hp : p.pending l
    · simp only [passRecords, passEnd, hp, if_true, List.length_cons, State.accepts,
        Bool.and_eq_true] at h ⊢
      simp only [h.1, if_true, ih _ _ _ h.2, List.append_assoc, List.singleton_append,
        State.skipAnswers]
    · simp only [passRecords, passEnd, hp, Bool.false_eq_true, if_false] at h ⊢
      exact ih _ _ _ h

/-- A pass one of whose records the sink refuses: those before it stay, and the pass stops (R147). -/
theorem visitRound_refused (ls : List Nat) (s : State) (o : List Record) (p : Packer) (k : Nat)
    (hk : s.accepts k = true) (ha : (s.skipAnswers k).answer = false)
    (hl : k < (passRecords addr tag ls p).length) :
    ∃ q : Packer, q.k = p.k + k ∧ q.col = p.col + BitVec.ofNat 7 k ∧
      visitRound addr tag ls (packing s o p) =
        (false, packing (s.skipAnswers (k + 1)) (o ++ (passRecords addr tag ls p).take k) q) := by
  induction ls generalizing s o p k with
  | nil => exact absurd hl (Nat.not_lt_zero k)
  | cons l ls ih =>
    rw [visitRound, visitLane_packing]
    by_cases hp : p.pending l
    · simp only [passRecords, hp, if_true, List.length_cons] at hl ⊢
      cases k with
      | zero =>
        have ha' : s.answer = false := ha
        refine ⟨p, rfl, (BitVec.add_zero p.col).symm, ?_⟩
        simp only [ha', Bool.false_eq_true, if_false, List.take_zero, List.append_nil,
          State.skipAnswers]
      | succ k =>
        simp only [State.accepts, Bool.and_eq_true] at hk
        obtain ⟨q, h1, h2, h3⟩ := ih s.popAnswer (o ++ [visitRecord addr tag p l]) (p.advance l) k
          hk.2 ha (by omega)
        refine ⟨q, by rw [h1]; simp only [Packer.advance]; omega, ?_, ?_⟩
        · rw [h2]; exact col_succ p.col k
        · simp only [hk.1, if_true, h3, List.take_succ_cons, List.append_assoc,
            List.singleton_append, State.skipAnswers]
    · simp only [passRecords, hp, Bool.false_eq_true, if_false] at hl ⊢
      exact ih s o p k hk ha hl

theorem visitRound_append (a b : List Nat) (s : State) :
    visitRound addr tag (a ++ b) s =
      match visitRound addr tag a s with
      | (true, s') => visitRound addr tag b s'
      | (false, s') => (false, s') := by
  induction a generalizing s with
  | nil => rfl
  | cons l ls ih =>
    rw [List.cons_append, visitRound, visitRound]
    cases visitLane addr tag l s with
    | mk ok s' => cases ok <;> simp only [ih]

/-- A pass that finds no lane pending does nothing. -/
theorem visitRound_idle (ls : List Nat) (s : State)
    (h : ∀ p, s.packer = some p → ∀ l ∈ ls, p.pending l = false) :
    visitRound addr tag ls s = (true, s) := by
  induction ls with
  | nil => rfl
  | cons l ls ih =>
    have hv : visitLane addr tag l s = (true, s) := by
      unfold visitLane
      cases hp : s.packer with
      | none => rfl
      | some p => simp only [h p hp l (List.mem_cons_self ..), Bool.false_eq_true, if_false]
    rw [visitRound, hv]
    exact ih fun p hp m hm => h p hp m (List.mem_cons_of_mem l hm)

/-- A drain of `n` rounds is one pass over the lanes repeated `n` times. -/
theorem drain_eq_visitRound (lanes : List Nat) (n : Nat) (s : State) :
    drain addr tag lanes n s = visitRound addr tag (List.replicate n lanes).flatten s := by
  induction n generalizing s with
  | zero => rfl
  | succ n ih =>
    rw [drain]
    by_cases h : s.anyPending lanes
    · rw [if_pos h, List.replicate_succ, List.flatten_cons, visitRound_append]
      cases visitRound addr tag lanes s with
      | mk ok s' => cases ok <;> simp only [ih]
    · rw [if_neg h, visitRound_idle]
      intro p hp l hl
      simp only [State.anyPending, hp, Bool.not_eq_true, List.any_eq_false] at h
      obtain ⟨x, hx, hlx⟩ := List.mem_flatten.mp hl
      rw [List.eq_of_mem_replicate hx] at hlx
      exact Bool.not_eq_true _ ▸ h l hlx

theorem passVisits_append (a b : List Nat) (p : Packer) :
    passVisits (a ++ b) p = passVisits a p ++ passVisits b (passEnd a p) := by
  induction a generalizing p with
  | nil => rfl
  | cons l ls ih =>
    rw [List.cons_append, passVisits, passVisits, passEnd]
    split <;> simp only [ih, List.cons_append]

/-- A pass emits one record a visit; the column cursor and the count go on by one each, so the `i`-th
record's address is that of the count and cursor `i` on. -/
theorem passRecords_eq (at_ : Nat → BitVec 7 → Word) (ls : List Nat) (p : Packer) :
    passRecords (fun p => at_ p.k p.col) tag ls p = (passVisits ls p).mapIdx fun i v =>
      .st (at_ (p.k + i) (p.col + BitVec.ofNat 7 i)) (chunk (p.list v.1) v.2) (tag v.1) := by
  induction ls generalizing p with
  | nil => rfl
  | cons l ls ih =>
    rw [passRecords, passVisits]
    split
    · rw [List.mapIdx_cons, ih]
      have hf : ∀ i, (p.advance l).col + BitVec.ofNat 7 i = p.col + BitVec.ofNat 7 (i + 1) :=
        fun i => col_succ p.col i
      have hk : ∀ i, (p.advance l).k + i = p.k + (i + 1) := by
        intro i
        simp only [Packer.advance]
        omega
      simp only [hf, hk, visitRecord, Nat.add_zero, BitVec.add_zero]
      rfl
    · exact ih p

/-- What a pass leaves: the count and the cursor on by the visits made, the lists as they were. -/
theorem passEnd_frame (ls : List Nat) (p : Packer) :
    (passEnd ls p).k = p.k + (passVisits ls p).length ∧
      (passEnd ls p).col = p.col + BitVec.ofNat 7 (passVisits ls p).length ∧
      (passEnd ls p).lists = p.lists ∧ (passEnd ls p).idx.length = p.idx.length := by
  induction ls generalizing p with
  | nil => exact ⟨rfl, (BitVec.add_zero p.col).symm, rfl, rfl⟩
  | cons l ls ih =>
    rw [passEnd, passVisits]
    split
    · obtain ⟨h1, h2, h3, h4⟩ := ih (p.advance l)
      refine ⟨?_, ?_, h3, ?_⟩
      · rw [h1, List.length_cons]; simp only [Packer.advance]; omega
      · rw [h2, List.length_cons]; exact col_succ p.col _
      · rw [h4]; exact List.length_set
    · exact ih p

/-- What a chunk does to the read indexes: the lane's moves on by up to 8 words (R114). -/
theorem index_advance (p : Packer) (l m : Nat) (h : l < p.idx.length) :
    (p.advance l).index m =
      if m = l then p.index l + min chunkWords ((p.list l).length - p.index l) else p.index m := by
  simp only [Packer.advance, Packer.index, List.getD_eq_getElem?_getD, List.getElem?_set]
  split
  · next e => subst e; simp only [if_true, Option.getD_some]
  · next e => rw [if_neg fun c => e c.symm]

/-- Asking the sink changes its answers and nothing else. -/
theorem skipAnswers_frame (n : Nat) (s : State) :
    s.skipAnswers n =
      { s with sink := (s.skipAnswers n).sink, draws := (s.skipAnswers n).draws } := by
  induction n generalizing s with
  | zero => rfl
  | succ n ih =>
    rw [State.skipAnswers, ih]
    unfold State.popAnswer
    cases s.sink <;> rfl

end Sys2Proof.Laws
end

