-- ==== Sys2Proof/Laws/PerInstr.lean ====
section
/-! SUPPORT. The family `PacketHeader`, instruction by instruction: a well-formed instruction's packet has
a legal header (30_encoding.md R82) and tells its own length whatever words follow (R81). -/

namespace Sys2Proof.Laws

/-- A placed field meets a mask nowhere, if the mask has no bit in the field. -/
theorem place_and_eq_zero (v m : Word) (w lo : Nat) (h : extract m w lo = 0) :
    place v w lo &&& m = 0 := by
  apply BitVec.eq_of_getLsbD_eq
  intro i hi
  rw [BitVec.getLsbD_and, getLsbD_place, show (0 : Word).getLsbD i = false from BitVec.getLsbD_zero]
  rcases Nat.lt_or_ge i lo with h1 | h1
  · simp only [Nat.not_le.mpr h1, decide_false, Bool.false_and, Bool.and_false]
  · rcases Nat.lt_or_ge (i - lo) w with h2 | h2
    · have h3 := getLsbD_extract m w lo (i - lo)
      rw [h, show (0 : Word).getLsbD (i - lo) = false from BitVec.getLsbD_zero,
        Nat.add_sub_cancel' h1] at h3
      simp only [h2, decide_true, Bool.true_and] at h3
      rw [← h3, Bool.and_false]
    · simp only [Nat.not_lt.mpr h2, decide_false, Bool.false_and, Bool.and_false]

/-- A header's CMD, where the command's own fields stay below bit 60 (R78). -/
theorem headerCmd_mkHeader (cmd : BitVec 4) (fields : Word) (h : slice fields 60 4 = 0) :
    headerCmd (mkHeader cmd fields) = cmd := by
  rw [headerCmd, mkHeader, slice_or, slice_place_zext cmd 60 (by decide), h]
  exact BitVec.or_zero

/-- A field of a header other than CMD. -/
theorem slice_mkHeader (cmd : BitVec 4) (fields : Word) (lo w : Nat) (h : lo + w ≤ 60) :
    slice (mkHeader cmd fields) lo w = slice fields lo w := by
  rw [mkHeader, slice_or, slice_place_apart _ _ _ _ _ (.inr h)]
  exact BitVec.zero_or

/-- A header is legal where its CMD is none of the illegal one and its fields meet no reserved bit. -/
theorem headerIllegal_mkHeader (cmd : BitVec 4) (fields : Word) (h : slice fields 60 4 = 0)
    (hc : cmd ≠ 0) (hr : place (zext cmd) 4 60 &&& reservedMask cmd = 0)
    (hf : fields &&& reservedMask cmd = 0) : headerIllegal (mkHeader cmd fields) = false := by
  have h1 : mkHeader cmd fields &&& reservedMask cmd = 0 := by
    apply BitVec.eq_of_getLsbD_eq
    intro i hi
    have e1 := congrArg (BitVec.getLsbD · i) hr
    have e2 := congrArg (BitVec.getLsbD · i) hf
    simp only [BitVec.getLsbD_and] at e1 e2
    rw [mkHeader, BitVec.getLsbD_and, BitVec.getLsbD_or, Bool.and_or_distrib_right, e1, e2, Bool.or_self]
  rw [headerIllegal, headerCmd_mkHeader cmd fields h, h1]
  exact (Bool.or_false _).trans (beq_eq_false_iff_ne.mpr hc)

/-- The packet of a well-formed instruction has a legal header and the length R81 gives it. -/
def PacketHeader.Statement (i : Instr) : Prop :=
  ∀ (t : Tables) (rest : List Word), i.WellFormed →
    (encode t i).head?.map headerIllegal = some false ∧
      packetLength (encode t i ++ rest) = some (encode t i).length

/-- CFG_SET's fields stay below CMD and off its reserved bits. -/
theorem cfgSet_fields (p : BitVec 3) (n m : BitVec 2) (j : BitVec 4) :
    slice (place (zext p) 3 0 ||| place (zext n) 2 4 ||| place (zext m) 2 6 ||| place (zext j) 4 8) 60 4 = 0 ∧
      (place (zext p) 3 0 ||| place (zext n) 2 4 ||| place (zext m) 2 6 ||| place (zext j) 4 8) &&&
        reservedMask 0x1 = 0 := by
  constructor
  · simp only [slice_or]
    rw [slice_place_apart _ _ _ _ _ (.inl (by decide)), slice_place_apart _ _ _ _ _ (.inl (by decide)),
      slice_place_apart _ _ _ _ _ (.inl (by decide)), slice_place_apart _ _ _ _ _ (.inl (by decide))]
    decide
  · have h1 := place_and_eq_zero (zext p) (reservedMask 0x1) 3 0 (by decide)
    have h2 := place_and_eq_zero (zext n) (reservedMask 0x1) 2 4 (by decide)
    have h3 := place_and_eq_zero (zext m) (reservedMask 0x1) 2 6 (by decide)
    have h4 := place_and_eq_zero (zext j) (reservedMask 0x1) 4 8 (by decide)
    apply BitVec.eq_of_getLsbD_eq
    intro i hi
    have e1 := congrArg (BitVec.getLsbD · i) h1
    have e2 := congrArg (BitVec.getLsbD · i) h2
    have e3 := congrArg (BitVec.getLsbD · i) h3
    have e4 := congrArg (BitVec.getLsbD · i) h4
    simp only [BitVec.getLsbD_and] at e1 e2 e3 e4
    simp only [BitVec.getLsbD_and, BitVec.getLsbD_or, Bool.and_or_distrib_right, e1, e2, e3, e4,
      Bool.or_self]

theorem PacketHeader.cfgSet (p : BitVec 3) (n m : BitVec 2) (j : BitVec 4) :
    PacketHeader.Statement (.cfgSet p n m j) := by
  intro t rest _
  obtain ⟨h1, h2⟩ := cfgSet_fields p n m j
  have hi := headerIllegal_mkHeader 0x1 _ h1 (by decide) (by decide) h2
  have hc := headerCmd_mkHeader 0x1 _ h1
  refine ⟨congrArg some hi, ?_⟩
  simp only [encode, Instr.command, encodeCommand, List.cons_append, packetLength, cfgSetHeader, hc]
  rfl

theorem PacketHeader.csrRd (sel : BitVec 4) : PacketHeader.Statement (.csrRd sel) := by
  intro t rest _
  have h1 : slice (place (zext sel) 4 0) 60 4 = 0 := slice_place_apart _ _ _ _ _ (.inl (by decide))
  have hi := headerIllegal_mkHeader 0x2 _ h1 (by decide) (by decide)
    (place_and_eq_zero (zext sel) (reservedMask 0x2) 4 0 (by decide))
  have hc := headerCmd_mkHeader 0x2 _ h1
  refine ⟨congrArg some hi, ?_⟩
  simp only [encode, Instr.command, encodeCommand, List.cons_append, packetLength, csrRdHeader, hc]
  rfl

theorem PacketHeader.faultClr : PacketHeader.Statement .faultClr := fun _ _ _ => ⟨rfl, rfl⟩

/-- PACK_LINEAR's count, read back from its header (R80). -/
theorem packLinear_header (n : Nat) (h : n < 2 ^ 32) :
    let hd := mkHeader 0xC (place (BitVec.ofNat 64 n) 32 0)
    headerCmd hd = 0xC ∧ headerIllegal hd = false ∧ headerN hd = n := by
  have h1 : slice (place (BitVec.ofNat 64 n) 32 0) 60 4 = 0 :=
    slice_place_apart _ _ _ _ _ (.inl (by decide))
  refine ⟨headerCmd_mkHeader 0xC _ h1, headerIllegal_mkHeader 0xC _ h1 (by decide) (by decide)
    (place_and_eq_zero _ (reservedMask 0xC) 32 0 (by decide)), ?_⟩
  have e : BitVec.ofNat 64 n = zext (BitVec.ofNat 32 n) := by
    apply BitVec.eq_of_toNat_eq
    rw [zext, BitVec.toNat_setWidth, BitVec.toNat_ofNat, BitVec.toNat_ofNat]
    omega
  rw [headerN, slice_mkHeader _ _ _ _ (by decide), e, slice_place_zext _ _ (by decide),
    BitVec.toNat_ofNat]
  omega

theorem PacketHeader.packLinear (b : Base) (col : Word) (ws : List Word) :
    PacketHeader.Statement (.packLinear b col ws) := by
  intro t rest h
  obtain ⟨hc, hi, hn⟩ := packLinear_header ws.length h
  refine ⟨congrArg some hi, ?_⟩
  simp only [encode, Instr.command, encodeCommand, List.cons_append, packetLength, hc, hn,
    List.length_cons]
  exact congrArg some (by omega)

/-- PACK_INTERLEAVED's cursor and lane count, read back from its header (R80). -/
theorem packInterleaved_header (col : BitVec 7) (n : Nat) (h : n < 2 ^ 8) :
    let hd := mkHeader 0xD (place (zext col) 7 0 ||| place (BitVec.ofNat 64 n) 8 8)
    headerCmd hd = 0xD ∧ headerIllegal hd = false ∧ headerNl hd = n ∧ slice hd 0 7 = col := by
  have h1 : slice (place (zext col) 7 0 ||| place (BitVec.ofNat 64 n) 8 8) 60 4 = 0 := by
    rw [slice_or, slice_place_apart _ _ _ _ _ (.inl (by decide)),
      slice_place_apart _ _ _ _ _ (.inl (by decide))]
    decide
  have e : BitVec.ofNat 64 n = zext (BitVec.ofNat 8 n) := by
    apply BitVec.eq_of_toNat_eq
    rw [zext, BitVec.toNat_setWidth, BitVec.toNat_ofNat, BitVec.toNat_ofNat]
    omega
  refine ⟨headerCmd_mkHeader 0xD _ h1, headerIllegal_mkHeader 0xD _ h1 (by decide) (by decide) ?_, ?_, ?_⟩
  · have e1 := place_and_eq_zero (zext col) (reservedMask 0xD) 7 0 (by decide)
    have e2 := place_and_eq_zero (BitVec.ofNat 64 n) (reservedMask 0xD) 8 8 (by decide)
    apply BitVec.eq_of_getLsbD_eq
    intro i hi
    have f1 := congrArg (BitVec.getLsbD · i) e1
    have f2 := congrArg (BitVec.getLsbD · i) e2
    simp only [BitVec.getLsbD_and] at f1 f2
    simp only [BitVec.getLsbD_and, BitVec.getLsbD_or, Bool.and_or_distrib_right, f1, f2, Bool.or_self]
  · rw [headerNl, slice_mkHeader _ _ _ _ (by decide), slice_or,
      slice_place_apart _ _ _ _ _ (.inl (by decide)), e, slice_place_zext _ _ (by decide)]
    rw [show (0 : BitVec 8) ||| BitVec.ofNat 8 n = BitVec.ofNat 8 n from BitVec.zero_or,
      BitVec.toNat_ofNat]
    omega
  · rw [slice_mkHeader _ _ _ _ (by decide), slice_or, slice_place_zext _ _ (by decide),
      slice_place_apart _ _ _ _ _ (.inr (by decide))]
    exact BitVec.or_zero

/-- The count words, read back as the lists' lengths (R80). -/
theorem count_words (ls : List (List Word)) (h : ∀ l ∈ ls, l.length < 2 ^ 64) :
    (ls.map fun l => BitVec.ofNat 64 l.length).map BitVec.toNat = ls.map List.length := by
  rw [List.map_map]
  apply List.map_congr_left
  intro l hl
  rw [Function.comp_apply, BitVec.toNat_ofNat, Nat.mod_eq_of_lt (h l hl)]

theorem PacketHeader.packInterleaved (b : Base) (col : BitVec 7) (ls : List (List Word)) :
    PacketHeader.Statement (.packInterleaved b col ls) := by
  intro t rest h
  obtain ⟨hc, hi, hn, _⟩ := packInterleaved_header col ls.length h.1
  refine ⟨congrArg some hi, ?_⟩
  have hlen : (ls.map fun l => BitVec.ofNat 64 l.length).length = ls.length := List.length_map _
  have htake : ((ls.map fun l => (BitVec.ofNat 64 l.length : Word)) ++ ls.flatten ++ rest).take ls.length =
      ls.map fun l => BitVec.ofNat 64 l.length := by
    rw [List.append_assoc, List.take_left' hlen]
  simp only [encode, Instr.command, encodeCommand, List.cons_append, packetLength, hc, hn,
    List.length_cons, List.length_append, List.drop_succ_cons, List.drop_zero, htake, count_words ls h.2,
    List.length_map, List.length_flatten]
  rw [if_neg fun c => by omega]
  exact congrArg some (by omega)

theorem PacketHeader.decNdpAddr (a : Word) : PacketHeader.Statement (.decNdpAddr a) :=
  fun _ _ _ => ⟨rfl, rfl⟩

theorem PacketHeader.encNdpAddr (c : Coords) : PacketHeader.Statement (.encNdpAddr c) :=
  fun _ _ _ => ⟨rfl, rfl⟩

theorem PacketHeader.encNormAddr (c : NormCoords) : PacketHeader.Statement (.encNormAddr c) :=
  fun _ _ _ => ⟨rfl, rfl⟩

theorem PacketHeader.decNormAddr (a : Word) : PacketHeader.Statement (.decNormAddr a) :=
  fun _ _ _ => ⟨rfl, rfl⟩

theorem PacketHeader.encNdpInst (o : NdpOperands) : PacketHeader.Statement (.encNdpInst o) :=
  fun _ _ _ => ⟨rfl, rfl⟩

theorem PacketHeader.decNdpInst (w : Word) : PacketHeader.Statement (.decNdpInst w) :=
  fun _ _ _ => ⟨rfl, rfl⟩

theorem PacketHeader.encAccInst (o : AccOperands) : PacketHeader.Statement (.encAccInst o) :=
  fun _ _ _ => ⟨rfl, rfl⟩

theorem PacketHeader.decAccInst (w : Word) : PacketHeader.Statement (.decAccInst w) :=
  fun _ _ _ => ⟨rfl, rfl⟩

theorem PacketHeader.packStart (c : Coords) (m : Word) : PacketHeader.Statement (.packStart c m) :=
  fun _ _ _ => ⟨rfl, rfl⟩

theorem PacketHeader.emitLd (a : Word) : PacketHeader.Statement (.emitLd a) :=
  fun _ _ _ => ⟨rfl, rfl⟩

theorem PacketHeader.emitSt (a : Word) (c : Chunk) : PacketHeader.Statement (.emitSt a c) :=
  fun _ _ _ => ⟨rfl, rfl⟩

theorem PacketHeader.loadMul (f : NdpFields) : PacketHeader.Statement (.loadMul f) :=
  fun _ _ _ => ⟨rfl, rfl⟩

theorem PacketHeader.scaleAdd (f : NdpFields) : PacketHeader.Statement (.scaleAdd f) :=
  fun _ _ _ => ⟨rfl, rfl⟩

theorem PacketHeader.wbd (f : NdpFields) : PacketHeader.Statement (.wbd f) :=
  fun _ _ _ => ⟨rfl, rfl⟩

theorem PacketHeader.exit (f : NdpFields) : PacketHeader.Statement (.exit f) :=
  fun _ _ _ => ⟨rfl, rfl⟩

theorem PacketHeader.selfExecOn (f : NdpFields) : PacketHeader.Statement (.selfExecOn f) :=
  fun _ _ _ => ⟨rfl, rfl⟩

theorem PacketHeader.selfExecOff (f : NdpFields) : PacketHeader.Statement (.selfExecOff f) :=
  fun _ _ _ => ⟨rfl, rfl⟩

theorem PacketHeader.vred (f : NdpFields) : PacketHeader.Statement (.vred f) :=
  fun _ _ _ => ⟨rfl, rfl⟩

theorem PacketHeader.sred (f : NdpFields) : PacketHeader.Statement (.sred f) :=
  fun _ _ _ => ⟨rfl, rfl⟩

theorem PacketHeader.loop (f : NdpFields) (lc : BitVec 10) (jt : BitVec 10) : PacketHeader.Statement (.loop f lc jt) :=
  fun _ _ _ => ⟨rfl, rfl⟩

theorem PacketHeader.rd (f : AccFields) : PacketHeader.Statement (.rd f) :=
  fun _ _ _ => ⟨rfl, rfl⟩

theorem PacketHeader.wr (f : AccFields) : PacketHeader.Statement (.wr f) :=
  fun _ _ _ => ⟨rfl, rfl⟩

theorem PacketHeader.bar (f : AccFields) : PacketHeader.Statement (.bar f) :=
  fun _ _ _ => ⟨rfl, rfl⟩

theorem PacketHeader.wait (f : AccFields) : PacketHeader.Statement (.wait f) :=
  fun _ _ _ => ⟨rfl, rfl⟩

theorem PacketHeader.loopStart (f : AccFields) : PacketHeader.Statement (.loopStart f) :=
  fun _ _ _ => ⟨rfl, rfl⟩

theorem PacketHeader.loopEnd (f : AccFields) : PacketHeader.Statement (.loopEnd f) :=
  fun _ _ _ => ⟨rfl, rfl⟩

theorem PacketHeader.waitRes (f : AccFields) : PacketHeader.Statement (.waitRes f) :=
  fun _ _ _ => ⟨rfl, rfl⟩

theorem PacketHeader.done (f : AccFields) : PacketHeader.Statement (.done f) :=
  fun _ _ _ => ⟨rfl, rfl⟩

end Sys2Proof.Laws
end

