-- ==== Sys2Proof/Tests/Slice0.lean ====
section
/-!
SUPPORT. Tests. Expected values are the vectors V1 to V46 of 95_test_vectors.md, under its example
parameters EX and EXOPC, or words written out from the tables of 30_encoding.md. Then one witness or
more for every statement with hypotheses.
-/

namespace Sys2Proof.Tests

open Sys2Proof.Machine

/-- EX's table, the same for the three profiles. -/
def exProfile : ProfileTable :=
  ⟨2, 2, 1, 8, 4, 65536, 128, 6, 2, ⟨7, 3⟩, ⟨6, 3⟩, ⟨7, 2⟩, ⟨7, 1⟩, ⟨0, 0⟩, ⟨1, 0⟩, ⟨0, 0⟩, ⟨0, 0⟩⟩

/-- EX and EXOPC. -/
def exParams : Params :=
  ⟨exProfile, exProfile, exProfile, ⟨2, 1, 8, 4, 65536, 128, 6⟩, ⟨3, 4, 16, 63, 20, 21, 24, 25⟩,
    ⟨1, 2, 3, 4, 5, 6, 7, 15⟩⟩

def exTables : Tables := ⟨exParams, by decide⟩

/-- EX right after reset, with the sink's answers and the input given. -/
def fresh (sink : List Bool) (input : List Word) : State :=
  ⟨exTables, ⟨0, 0, 0, 0, false⟩, ⟨0, 0, 0⟩, [], none, input, [], sink, 0⟩

/-- EX configured. -/
def configured (profile : BitVec 3) (ndp norm : BitVec 2) (jtw : BitVec 4) : State :=
  { fresh [] [] with cfg := ⟨profile, ndp, norm, jtw, true⟩ }

/-- The clean entry of 95_test_vectors.md, with the sink's answers and the input given. -/
def clean (sink : List Bool) (input : List Word) : State :=
  { configured 1 0 0 10 with sink := sink, input := input }

/-- The clean entry with a fault pending. -/
def faulty (input : List Word) : State := { clean [] input with fault := ⟨6, 1, 1024⟩ }

/-- EX with nine lanes' worth of channels, under profile 1. -/
def wideTables : Tables := ⟨{ exParams with p1 := { exProfile with nCh := 8 } }, by decide⟩

def wide : State := { clean [true] [] with tables := wideTables }

def active : Active := ⟨.x4, .rowColBankBankgroupRank, .rowColBankBankgroupRank, 10⟩

def taken : List Bool := List.replicate 8 true

/-- The response a step or command gives. -/
def response : Host.Outcome State Machine.Fault Refusal → Option Response
  | .next s => s.responses.getLast?
  | _ => none

/-- The records OUT holds after. -/
def records : Host.Outcome State Machine.Fault Refusal → List Record
  | .next s => s.out
  | _ => []

/-- What CSR_RD 0 would read after. -/
def status : Host.Outcome State Machine.Fault Refusal → Option Word
  | .next s => some (statusValue s)
  | _ => none

/-- The words `a`, `a + 1`, ... -/
def seq (a n : Nat) : List Word := (List.range n).map fun i => BitVec.ofNat 64 (a + i)

/-! ### Well-formedness -/

/-- A list whose count does not fit header [31:0] (30_encoding.md R80). -/
theorem test_wellFormed_refuses_long_list :
    ¬ (Instr.packLinear ⟨0, 0, 0, 0, 0, 0⟩ 0 (List.replicate (2 ^ 32) 0)).WellFormed := by
  rw [Instr.WellFormed, List.length_replicate]
  exact Nat.lt_irrefl _

/-- A lane count that does not fit header [15:8] (R80). -/
theorem test_wellFormed_refuses_256_lanes :
    ¬ (Instr.packInterleaved ⟨0, 0, 0, 0, 0, 0⟩ 0 (List.replicate 256 [])).WellFormed := by
  rw [Instr.WellFormed, List.length_replicate]
  exact fun h => Nat.lt_irrefl _ h.1

/-- A lane's count that does not fit its count word (R80). -/
theorem test_wellFormed_refuses_long_lane :
    ¬ (Instr.packInterleaved ⟨0, 0, 0, 0, 0, 0⟩ 0 [List.replicate (2 ^ 64) 0]).WellFormed := by
  intro h
  have := h.2 _ (List.mem_singleton_self _)
  rw [List.length_replicate] at this
  exact Nat.lt_irrefl _ this

/-- A count that is no power of two makes no tables (00_scope.md R10). -/
theorem test_params_refuse_count_three :
    Tables.ofParams { exParams with p1 := { exProfile with nCh := 3 } } = none := by decide

/-- Fields past bit 63 make no tables (R10). -/
theorem test_params_refuse_width_65 :
    Tables.ofParams { exParams with norm := ⟨2, 1, 8, 4, 65536, 128, 36⟩ } = none := by decide

/-- An NDP opcode parameter of 2 makes no tables (R10). -/
theorem test_params_refuse_second_load_mul :
    Tables.ofParams { exParams with ndpOpc := ⟨2, 4, 16, 63, 20, 21, 24, 25⟩ } = none := by decide

/-! ### Decoding, from words written out by 30_encoding.md R78 and R80 -/

theorem test_decode_cfg_set :
    decode [0x1000000000000962] = .command (.cfgSet 2 2 1 9) [] := by decide

theorem test_decode_csr_rd : decode [0x200000000000000C, 7] = .command (.csrRd 12) [7] := by decide

theorem test_decode_fault_clr : decode [0x3000000000000000] = .command .faultClr [] := by decide

theorem test_decode_enc_ndp_addr :
    decode [0x4000000000000000, 1, 2, 3, 4, 5, 6, 7] =
      .command (.encNdpAddr ⟨1, 2, 3, 4, 5, 6, 7⟩) [] := by decide

theorem test_decode_dec_ndp_addr :
    decode [0x5000000000000000, 1] = .command (.decNdpAddr 1) [] := by decide

theorem test_decode_enc_norm_addr :
    decode [0x6000000000000000, 1, 2, 3, 4, 5, 6] =
      .command (.encNormAddr ⟨1, 2, 3, 4, 5, 6⟩) [] := by decide

theorem test_decode_dec_norm_addr :
    decode [0x7000000000000000, 1] = .command (.decNormAddr 1) [] := by decide

theorem test_decode_enc_ndp_inst :
    decode [0x8000000000000000, 1, 2, 3, 4, 5, 6, 7] =
      .command (.encNdpInst ⟨1, 2, 3, 4, 5, 6, 7⟩) [] := by decide

theorem test_decode_dec_ndp_inst :
    decode [0x9000000000000000, 1] = .command (.decNdpInst 1) [] := by decide

theorem test_decode_enc_acc_inst :
    decode [0xA000000000000000, 1, 2, 3, 4, 5, 6, 7, 8, 9, 10] =
      .command (.encAccInst ⟨1, 2, 3, 4, 5, 6, 7, 8, 9, 10⟩) [] := by decide

theorem test_decode_dec_acc_inst :
    decode [0xB000000000000000, 1] = .command (.decAccInst 1) [] := by decide

theorem test_decode_pack_linear :
    decode [0xC000000000000002, 1, 2, 3, 4, 5, 6, 7, 8, 9, 10] =
      .command (.packLinear ⟨1, 2, 3, 4, 5, 6⟩ 7 [8, 9]) [10] := by decide

theorem test_decode_pack_interleaved :
    decode [0xD00000000000027E, 1, 2, 3, 4, 5, 6, 1, 2, 7, 8, 9, 10] =
      .command (.packInterleaved ⟨1, 2, 3, 4, 5, 6⟩ 126 [[7], [8, 9]]) [10] := by decide

theorem test_decode_pack_start :
    decode [0xE000000000000000, 1, 2, 3, 4, 5, 6, 7, 8] =
      .command (.packStart ⟨1, 2, 3, 4, 5, 6, 7⟩ 8) [] := by decide

theorem test_decode_emit_ld : decode [0xF000000000000000, 1] = .command (.emitLd 1) [] := by decide

theorem test_decode_emit_st :
    decode [0xF000000000000001, 1, 2, 3, 4, 5, 6, 7, 8, 9] =
      .command (.emitSt 1 ⟨2, 3, 4, 5, 6, 7, 8, 9⟩) [] := by decide

/-- The NDP words of R71, the opcode values EXOPC's. -/
theorem test_decode_ndp_words :
    [nameNdpWord exTables 10 0x0BF8600000000000, nameNdpWord exTables 10 0x0E02B80000000000,
      nameNdpWord exTables 10 0x13F8F80000000000, nameNdpWord exTables 10 0xFC00000000000000,
      nameNdpWord exTables 10 0x5000000000000000, nameNdpWord exTables 10 0x5400000000000000,
      nameNdpWord exTables 10 0x6000000000000000, nameNdpWord exTables 10 0x6400000000000000,
      nameNdpWord exTables 10 0x40194BFF000003FF, nameNdpWord exTables 9 0x40194BFF000003FF,
      nameNdpWord exTables 10 0] =
    [some (.loadMul ⟨127, 0, 3, 0⟩), some (.scaleAdd ⟨64, 2, 5, 3⟩), some (.wbd ⟨127, 0, 7, 3⟩),
      some (.exit ⟨0, 0, 0, 0⟩), some (.selfExecOn ⟨0, 0, 0, 0⟩), some (.selfExecOff ⟨0, 0, 0, 0⟩),
      some (.vred ⟨0, 0, 0, 0⟩), some (.sred ⟨0, 0, 0, 0⟩), some (.loop ⟨3, 1, 2, 1⟩ 1023 1023),
      some (.loop ⟨3, 1, 2, 1⟩ 1023 511), none] := by decide

/-- The access-descriptor words of R74, the opcode values EXOPC's. -/
theorem test_decode_access_words :
    [nameAccWord exTables 0x1FE570000A290000, nameAccWord exTables 0x2000000000000000,
      nameAccWord exTables 0x3000000000001C40, nameAccWord exTables 0x40010000000004D2,
      nameAccWord exTables 0x5000000000000000, nameAccWord exTables 0x6000000000000000,
      nameAccWord exTables 0x7000000000000000, nameAccWord exTables 0xF000000000000000,
      nameAccWord exTables 0x8000000000000000] =
    [some (.rd ⟨127, 1, 1, 3, 2, 5, 10, 2, 0⟩), some (.wr ⟨0, 0, 0, 0, 0, 0, 0, 0, 0⟩),
      some (.bar ⟨0, 0, 0, 0, 0, 0, 0, 0, 7232⟩), some (.wait ⟨0, 0, 1, 0, 0, 0, 0, 0, 1234⟩),
      some (.loopStart ⟨0, 0, 0, 0, 0, 0, 0, 0, 0⟩), some (.loopEnd ⟨0, 0, 0, 0, 0, 0, 0, 0, 0⟩),
      some (.waitRes ⟨0, 0, 0, 0, 0, 0, 0, 0, 0⟩), some (.done ⟨0, 0, 0, 0, 0, 0, 0, 0, 0⟩), none] := by
  decide

/-! ### The opcode table's words, run as the first instruction after reset -/

/-- From reset the named word is asked of a block without a configuration (60_exceptions.md R141). -/
theorem test_first_load_mul :
    response (step (State.reset.withFetchWord 64 0x0BF8600000000000)) = some ⟨0x05, []⟩ := by decide

theorem test_first_cfg_set :
    response (step (State.reset.withFetchWord 64 0x1000000000000A01)) = some ⟨0x00, []⟩ := by decide

/-! ### Responses, R84 -/

/-- A refused record's response: OUTPUT_FAILURE and two result words (V42). -/
theorem test_response_words :
    (⟨0x08, [2, 0]⟩ : Response).words = [0x208, 2, 0] ∧ (⟨0xFF, []⟩ : Response).words = [0xFF] := by
  decide

/-! ### Control, V43 to V46 -/

theorem test_cfg_set_fields_and_faults :
    [0x1000000000000A00, 0x1000000000000A03, 0x1000000000000A31, 0x1000000000000AC1,
      0x1000000000000801, 0x1000000000000833, 0x1000000000000A09, 0x1000000000000962].map
        (fun h => status (step (clean [] [h]))) =
    [0x00000A0000000102, 0x00000A0300000102, 0x00000A3100000103, 0x00000AC100000103,
      0x0000080100000104, 0x0000083300000102, 0x1000000000000101, 0x100].map some := by decide

theorem test_csr_rd_values :
    [0, 1, 2, 3, 4, 7, 9, 10, 12].map (fun sel => response (exec (.csrRd sel) (clean [] []))) =
    [0x100, 0x1A01, 0x00001D0083001046, 0x00000074020C0046, 0x10307, 0x10107, 0x10001, 0, 0x20004].map
      (fun v => some ⟨0x00, [v]⟩) := by decide

theorem test_csr_rd_reserved_selector :
    status (exec (.csrRd 13) (clean [] [])) = some 0x2000000000000101 := by decide

theorem test_fault_clr : status (exec .faultClr (faulty [])) = some 0x100 := by decide

theorem test_illegal_headers :
    [0, 0x123, 0x3000000000000001, 0x2800000000000000].map (fun h => status (step (clean [] [h]))) =
    [0x101, 0x101, 0x3000000000000101, 0x2800000000000101].map some := by decide

/-- V46: the first fault wins, and FAULT_CLR with a reserved bit clears nothing. -/
theorem test_first_fault_wins :
    ((fresh [] []).runFrom [[0x1000000000000833], [0x3000000000000002], [0x2000000000000000],
      [0x3000000000000000], [0x2000000000000000]]).responses.map Response.words =
    [[0x02], [0x01], [0x100, 0x0000083300000002], [0x00], [0x100, 0]] := by decide

/-! ### Address codec, V2 to V13 -/

theorem test_enc_ndp_addr_schemes :
    [0, 1, 2].map (fun sch =>
      response (exec (.encNdpAddr ⟨1, 1, 0, 3, 2, 5, 10⟩) (configured 1 sch 0 10))) =
    [0x5153C0, 0x598AC0, 0x8001453C0].map (fun v => some ⟨0x00, [v]⟩) := by decide

theorem test_enc_ndp_addr_wraps :
    response (exec (.encNdpAddr ⟨3, 0, 1, 9, 4, 0x10001, 128⟩) (configured 1 1 0 10)) =
      some ⟨0x00, [0x108040]⟩ := by decide

theorem test_dec_ndp_addr_fields :
    response (exec (.decNdpAddr 0x5153C0) (configured 1 2 0 10)) =
      some ⟨0x00, [1, 1, 0, 3, 0, 20, 42, 0]⟩ := by decide

theorem test_dec_ndp_addr_flags :
    [0x5153C1, 0x1000000000, -1].map (fun w => response (exec (.decNdpAddr w) (clean [] []))) =
    [[1, 1, 0, 3, 2, 5, 10, 1], [0, 0, 0, 0, 0, 0, 0, 2], [1, 1, 0, 7, 3, 65535, 127, 3]].map
      (fun v => some ⟨0x00, v⟩) := by decide

theorem test_enc_norm_addr_schemes :
    [0, 1, 2].map (fun sch =>
      response (exec (.encNormAddr ⟨1, 0, 3, 2, 5, 10⟩) (configured 4 0 sch 10))) =
    [0x28A9C0, 0x2CC540, 0x4000A29C0].map (fun v => some ⟨0x00, [v]⟩) := by decide

theorem test_dec_norm_addr :
    [0x4000A29C0, -1].map (fun w => response (exec (.decNormAddr w) (configured 1 0 2 10))) =
    [[1, 0, 3, 2, 5, 10, 0], [1, 0, 7, 3, 65535, 127, 3]].map (fun v => some ⟨0x00, v⟩) := by decide

/-! ### Instruction codec, V1 and V15 to V25 -/

theorem test_enc_ndp_inst_golden :
    response (step (clean [] [0x8000000000000000, 2, 0x7F, 0, 3, 0, 0, 0])) =
      some ⟨0x00, [0x0BF8600000000000]⟩ := by decide

theorem test_enc_ndp_inst_loop :
    response (exec (.encNdpInst ⟨80, 3, 1, 2, 1, 1023, 1023⟩) (configured 1 0 0 9)) =
      some ⟨0x00, [0x40194BFF000001FF]⟩ := by decide

theorem test_dec_ndp_inst_loop :
    response (exec (.decNdpInst 0x40194BFF000003FF) (configured 1 0 0 9)) =
      some ⟨0x00, [16, 3, 1, 2, 1, 1023, 511, 3]⟩ := by decide

theorem test_dec_ndp_inst_plain :
    response (exec (.decNdpInst 0x0BF8600000000001) (clean [] [])) =
      some ⟨0x00, [2, 127, 0, 3, 0, 0, 0, 2]⟩ := by decide

theorem test_enc_acc_inst_masks :
    response (exec (.encAccInst ⟨3, 0, 8, 0, 0, 0, 0x40000, 128, 0, 40000⟩) (clean [] [])) =
      some ⟨0x00, [0x3000000000001C40]⟩ := by decide

theorem test_dec_acc_inst :
    response (exec (.decAccInst 0x123456789ABCDEF0) (clean [] [])) =
      some ⟨0x00, [1, 17, 5, 0, 2, 2, 212045, 47, 1, 24304]⟩ := by decide

theorem test_scale_add :
    response (exec (.scaleAdd ⟨64, 2, 5, 3⟩) (clean [] [])) = some ⟨0x00, [0x0E02B80000000000]⟩ := by
  decide

theorem test_loop :
    response (exec (.loop ⟨3, 1, 2, 1⟩ 1023 1023) (configured 1 0 0 9)) =
      some ⟨0x00, [0x40194BFF000001FF]⟩ := by decide

theorem test_wait :
    response (exec (.wait ⟨0, 0, 1, 0, 0, 0, 0, 0, 1234⟩) (clean [] [])) =
      some ⟨0x00, [0x40010000000004D2]⟩ := by decide

theorem test_rd :
    response (exec (.rd ⟨127, 1, 1, 3, 2, 5, 10, 2, 0⟩) (clean [] [])) =
      some ⟨0x00, [0x1FE570000A290000]⟩ := by decide

/-! ### Payload packer, V30 to V42 -/

theorem test_pack_linear :
    records (step (clean taken ([0xC00000000000000A, 0, 0, 0, 7, 3, 0, 0] ++ seq 0x1000 10))) =
      [.st 0x1F00 ⟨0x1000, 0x1001, 0x1002, 0x1003, 0x1004, 0x1005, 0x1006, 0x1007⟩ none,
        .st 0x3F00 ⟨0x1008, 0x1009, 0, 0, 0, 0, 0, 0⟩ none] := by decide

theorem test_pack_linear_capacity :
    status (exec (.packLinear ⟨0, 0, 0, 7, 3, 0⟩ 0 (seq 0 1024)) (clean [] [])) =
      some 0x0000040000000106 := by decide +kernel

/-- V31's packet. -/
def interleavedPacket : List Word :=
  [0xD00000000000047E, 0, 0, 0, 6, 3, 0, 10, 3, 0, 17] ++ seq 0xA0 10 ++ seq 0xB0 3 ++ seq 0xD0 17

theorem test_pack_interleaved :
    records (step (clean taken interleavedPacket)) =
      [.st 0xFDE00 ⟨0xA0, 0xA1, 0xA2, 0xA3, 0xA4, 0xA5, 0xA6, 0xA7⟩ (some 0),
        .st 0xFFE00 ⟨0xB0, 0xB1, 0xB2, 0, 0, 0, 0, 0⟩ (some 1),
        .st 0x1E00 ⟨0xD0, 0xD1, 0xD2, 0xD3, 0xD4, 0xD5, 0xD6, 0xD7⟩ (some 3),
        .st 0x3E00 ⟨0xA8, 0xA9, 0, 0, 0, 0, 0, 0⟩ (some 0),
        .st 0x5E00 ⟨0xD8, 0xD9, 0xDA, 0xDB, 0xDC, 0xDD, 0xDE, 0xDF⟩ (some 3),
        .st 0x7E00 ⟨0xE0, 0, 0, 0, 0, 0, 0, 0⟩ (some 3)] := by decide +kernel

theorem test_pack_interleaved_refused :
    response (step (clean [true, true, false] interleavedPacket)) = some ⟨0x08, [2, 0]⟩ := by
  decide +kernel

theorem test_pack_start :
    records (exec (.packStart ⟨1, 1, 0, 7, 3, 0xFFFF, 127⟩ 0xB) (clean taken [])) =
      [.st 0xFFFFFFFC0 ⟨1, 1, 0, 1, 0, 0, 0, 0⟩ none] := by decide

/-- V42: refused, PACK_START answers the count 0, and its working state is gone. -/
theorem test_pack_start_refused :
    response (exec (.packStart ⟨0, 0, 0, 5, 0, 0, 0⟩ 0xB) (clean [false] [])) = some ⟨0x08, [0]⟩ := by
  decide

theorem test_pack_start_lane_overflow :
    status (exec (.packStart ⟨0, 0, 0, 5, 0, 0, 0⟩ 0xB) wide) = some 0x0000001000000107 := by decide

/-! ### Trace emitter, V41 and V42 -/

theorem test_emit_ld_line :
    (records (step (clean taken [0xF000000000000000, 0x5153C0]))).map Record.line =
      ["LD 0x00000000005153C0".toList] := by decide +kernel

theorem test_emit_st :
    records (exec (.emitSt 0x500 ⟨1, 1, 0, 1, 0, 0, 0, 0⟩) (clean taken [])) =
      [.st 0x500 ⟨1, 1, 0, 1, 0, 0, 0, 0⟩ none] := by decide

theorem test_emit_refused : status (exec (.emitLd 0x40) (clean [false] [])) = some 0x108 := by decide

/-! ### Witnesses: concrete values that meet the hypotheses of each statement -/

theorem witness_parameter_set : (Tables.ofParams exParams).isSome = true := by decide

theorem witness_reset_partial_packet :
    decode (clean [] [0xC00000000000000A, 0, 0]).input = .incomplete := by decide

theorem witness_step_command :
    decode (clean [] [0x2000000000000000, 5]).input = .command (.csrRd 0) [5] := by decide

theorem witness_step_illegal :
    decode (clean [] [0x2800000000000000, 5]).input = .illegal 0x2800000000000000 [5] := by decide

theorem witness_step_empty : decode (clean [] []).input = .empty := by decide

/-- For DecodeInvertsEncode, StepRunsTheEncodedInstruction and RunAnswersEveryPacket: the narrowest and
the widest lane count, and an empty list. -/
theorem witness_well_formed :
    (Instr.packLinear ⟨0, 0, 0, 0, 0, 0⟩ 0 []).WellFormed ∧
      (Instr.packInterleaved ⟨0, 0, 0, 0, 0, 0⟩ 127 []).WellFormed ∧
      (Instr.packInterleaved ⟨0, 0, 0, 0, 0, 0⟩ 0 (List.replicate 255 [1])).WellFormed ∧
      (Instr.loop ⟨0, 0, 0, 0⟩ 1 2).WellFormed := by decide +kernel

theorem witness_step_encoded :
    (clean [] [0x8000000000000000, 63, 1, 0, 0, 0, 0, 0, 9]).input =
      encode (clean [] []).tables (.exit ⟨1, 0, 0, 0⟩) ++ [9] := by decide

/-- Partly received packets with an illegal header (PACK_LINEAR with bit 40 set) and a legal one, and a
PACK_INTERLEAVED without its count words. -/
theorem witness_partial_packets :
    (packetLength [0xC000010000000002, 0] = some 10 ∧
      ([0xC000010000000002, 0] : List Word).length < 10 ∧ headerIllegal 0xC000010000000002 = true) ∧
    (packetLength [0xA000000000000000] = some 11 ∧
      ([0xA000000000000000] : List Word).length < 11) ∧
    packetLength [0xD000000000000200, 0, 0, 0, 0, 0, 0] = none := by decide

/-- R81 at its boundary: with no count words the header alone tells the length. -/
theorem test_length_without_lanes : packetLength [0xD000000000000005] = some 7 := by decide

theorem witness_step_waits :
    (Instr.decNdpAddr 4).WellFormed ∧ (clean [] [0x5000000000000000]).input ≠ [] ∧
      [(4 : Word)] ≠ [] ∧
      (clean [] [0x5000000000000000]).input ++ [4] = encode exTables (.decNdpAddr 4) := by decide

/-- CMD 0, and the reserved bits CFG_SET [3], CSR_RD [4], PACK_INTERLEAVED [7], EMIT_LD [59]. -/
theorem witness_illegal_header :
    (packetLength (clean [] [0]).input = some 1 ∧ (clean [] [0]).fault.code = 0 ∧
      (0 : Word).toNat / 2 ^ 60 = 0) ∧
    (packetLength [0x1000000000000008] = some 1 ∧ (0x1000000000000008 : Word).getLsbD 3 = true ∧
      headerField 1 3 = false) ∧
    (packetLength [0x2000000000000010] = some 1 ∧ (0x2000000000000010 : Word).getLsbD 4 = true ∧
      headerField 2 4 = false) ∧
    (packetLength [0xD000000000000080, 0, 0, 0, 0, 0, 0] = some 7 ∧
      (0xD000000000000080 : Word).getLsbD 7 = true ∧ headerField 13 7 = false) ∧
    packetLength [0xF800000000000000, 0] = some 2 ∧ (0xF800000000000000 : Word).getLsbD 59 = true ∧
      headerField 15 59 = false := by decide

theorem witness_pending_fault :
    (faulty []).fault.code ≠ 0 ∧ Instr.encNdpAddr ⟨0, 0, 0, 0, 0, 0, 0⟩ ≠ .faultClr ∧
      (∀ sel, Instr.encNdpAddr ⟨0, 0, 0, 0, 0, 0, 0⟩ ≠ .csrRd sel) ∧ Instr.csrRd 0 ≠ .faultClr ∧
      (faulty [0x5000000000000000, 4, 9]).input = encode exTables (.decNdpAddr 4) ++ [9] := by
  refine ⟨by decide, by decide, (fun sel h => nomatch h), by decide, by decide⟩

theorem witness_pending_illegal :
    decode (faulty [0, 9]).input = .illegal 0 [9] ∧
      decode (faulty [0x2000000000000010]).input = .illegal 0x2000000000000010 [] ∧
      decode (faulty [0x3000000000000001]).input = .illegal 0x3000000000000001 [] ∧
      (faulty []).fault.code ≠ 0 := by decide

/-- Command codes 4 and 15. -/
theorem witness_unconfigured :
    (fresh [] []).fault.code = 0 ∧ (fresh [] []).cfg.valid = false ∧
      4 ≤ (Instr.encNdpAddr ⟨0, 0, 0, 0, 0, 0, 0⟩).cmd ∧ 4 ≤ (Instr.emitLd 0).cmd := by decide

theorem witness_cfg_set_legal :
    (fresh [] []).fault.code = 0 ∧ ((4 : BitVec 3) = 1 ∨ (4 : BitVec 3) = 2 ∨ (4 : BitVec 3) = 4) ∧
      (2 : BitVec 2) ≠ 3 ∧ (0 : BitVec 2) ≠ 3 ∧ ((9 : BitVec 4) = 9 ∨ (9 : BitVec 4) = 10) := by decide

/-- An illegal profile, scheme and jump-target width, each alone. -/
theorem witness_cfg_set_illegal :
    ¬ (((3 : BitVec 3) = 1 ∨ (3 : BitVec 3) = 2 ∨ (3 : BitVec 3) = 4) ∧ (0 : BitVec 2) ≠ 3 ∧
        (0 : BitVec 2) ≠ 3 ∧ ((9 : BitVec 4) = 9 ∨ (9 : BitVec 4) = 10)) ∧
      ¬ (((1 : BitVec 3) = 1 ∨ (1 : BitVec 3) = 2 ∨ (1 : BitVec 3) = 4) ∧ (0 : BitVec 2) ≠ 3 ∧
        (3 : BitVec 2) ≠ 3 ∧ ((9 : BitVec 4) = 9 ∨ (9 : BitVec 4) = 10)) ∧
      ¬ (((1 : BitVec 3) = 1 ∨ (1 : BitVec 3) = 2 ∨ (1 : BitVec 3) = 4) ∧ (0 : BitVec 2) ≠ 3 ∧
        (0 : BitVec 2) ≠ 3 ∧ ((11 : BitVec 4) = 9 ∨ (11 : BitVec 4) = 10)) := by decide

/-- For CsrRdReadsWidthsAndLanes, CsrRdReadsRegions and EncodersMaskSilently; the first and the last
region. -/
theorem witness_active :
    (clean [] []).cfg.active = some active ∧ regions[0]? = some .hcr ∧ regions[7]? = some .dm3 := by
  decide

/-- The lowest and the highest profile-dependent selectors. -/
theorem witness_csr_unconfigured :
    (fresh [] []).cfg.valid = false ∧
      ((2 : BitVec 4) = 2 ∨ (4 ≤ (2 : BitVec 4).toNat ∧ (2 : BitVec 4).toNat ≤ 12)) ∧
      ((4 : BitVec 4) = 2 ∨ (4 ≤ (4 : BitVec 4).toNat ∧ (4 : BitVec 4).toNat ≤ 12)) ∧
      ((12 : BitVec 4) = 2 ∨ (4 ≤ (12 : BitVec 4).toNat ∧ (12 : BitVec 4).toNat ≤ 12)) := by decide

theorem witness_selectors :
    (12 : BitVec 4).toNat ≤ 12 ∧ 13 ≤ (13 : BitVec 4).toNat ∧ 13 ≤ (15 : BitVec 4).toNat := by decide

theorem witness_illegal_fault_clr :
    (faulty [0x3000000000000001]).input = [0x3000000000000001] ∧
      (0x3000000000000001 : Word).toNat / 2 ^ 60 = 3 ∧
      (0x3000000000000001 : Word).toNat % 2 ^ 60 ≠ 0 := by decide

/-- For every statement whose one hypothesis on the state is `Ready`. -/
theorem witness_ready : (clean [] []).Ready active := by decide

/-- For AddressFieldIndependence: operands that differ in the row only. -/
theorem witness_field_independence :
    (∀ g, g ≠ Field.ro →
      (⟨1, 1, 0, 3, 2, 5, 10⟩ : Coords).get g = (⟨1, 1, 0, 3, 2, 6, 10⟩ : Coords).get g) ∧
    Field.ro ≠ .pch ∧
    ∀ g, g ≠ Field.ro →
      (⟨1, 0, 3, 2, 5, 10⟩ : NormCoords).get g = (⟨1, 0, 3, 2, 6, 10⟩ : NormCoords).get g := by
  refine ⟨?_, by decide, ?_⟩ <;> intro g h <;> cases g <;> first | rfl | exact absurd rfl h

/-- For EncodersMaskSilently: an operand one above its field's range. -/
theorem witness_masked :
    (⟨0, 1, 0, 1, 2, 5, 10⟩ : Coords).words = (⟨2, 1, 0, 9, 2, 0x10005, 138⟩ : Coords).masked exProfile ∧
      (⟨0, 0, 1, 2, 5, 10⟩ : NormCoords).words =
        (⟨2, 0, 9, 2, 0x10005, 138⟩ : NormCoords).masked exParams.norm := by decide

theorem witness_named_words : ((9 : Nat) = 9 ∨ (9 : Nat) = 10) ∧ ((10 : Nat) = 9 ∨ (10 : Nat) = 10) := by
  decide

theorem witness_chunk_index : 0 < 8 ∧ 7 < 8 := by decide

/-- For PackLinearAppendsItsRecords and PackedRecordsHoldTheLists: the longest list that packs, whole and
with the last record refused, and the shortest that does not. -/
theorem witness_pack_linear :
    (clean (List.replicate 127 true ++ [false]) []).Ready active ∧ (seq 0 1023).length < 1024 ∧
      (clean (List.replicate 128 true) []).accepts (chunks (seq 0 1023).length) = true ∧
      127 < chunks (seq 0 1023).length ∧
      (clean (List.replicate 127 true ++ [false]) []).accepts 127 = true ∧
      ((clean (List.replicate 127 true ++ [false]) []).skipAnswers 127).answer = false ∧
      1024 ≤ (seq 0 1024).length := by decide +kernel

/-- EX's four lanes, one of them empty. -/
def exLists : List (List Word) := [seq 0 10, seq 20 3, [], seq 30 17]

/-- For PackInterleavedAppendsItsRecords, PackedRecordsHoldTheLists and InterleavedFairness: all taken,
and the first and the last record refused. -/
theorem witness_pack_interleaved :
    (clean taken []).Ready active ∧
      exLists.length = ((clean taken []).profile active).nCh * ((clean taken []).profile active).nPch ∧
      (∀ l ∈ exLists, l.length < 1024) ∧
      (interleavedRecords exProfile active.ndpScheme ⟨0, 0, 0, 6, 3, 0⟩ 126 exLists).length = 6 ∧
      (exLists.map fun l => chunks l.length).sum = 6 ∧ (clean taken []).accepts 6 = true ∧
      (clean [false] []).accepts 0 = true ∧ ((clean [false] []).skipAnswers 0).answer = false ∧
      (clean [true, true, true, true, true, false] []).accepts 5 = true ∧
      ((clean [true, true, true, true, true, false] []).skipAnswers 5).answer = false := by
  decide +kernel

/-- One lane too few, and lane 1 the lowest over capacity. -/
theorem witness_pack_interleaved_faults :
    exLists.tail.length ≠ ((clean [] []).profile active).nCh * ((clean [] []).profile active).nPch ∧
      [[], seq 0 1024, seq 0 2000, []].length =
        ((clean [] []).profile active).nCh * ((clean [] []).profile active).nPch ∧
      [[], seq 0 1024, seq 0 2000, []][1]? = some (seq 0 1024) ∧ 1024 ≤ (seq 0 1024).length ∧
      ∀ m, m < 1 → ∀ small, [[], seq 0 1024, seq 0 2000, []][m]? = some small → small.length < 1024 := by
  refine ⟨by decide, by decide, rfl, by decide +kernel, ?_⟩
  intro m h small e
  obtain rfl : m = 0 := by omega
  obtain rfl : [] = small := Option.some.inj e
  decide

/-- For InterleavedFairness: two records in a row of one lane, the last of `exLists`. -/
theorem witness_same_lane_twice :
    ((interleavedRecords exProfile active.ndpScheme ⟨0, 0, 0, 6, 3, 0⟩ 126 exLists)[4]?).map Record.lane =
        some (some 3) ∧
      ((interleavedRecords exProfile active.ndpScheme ⟨0, 0, 0, 6, 3, 0⟩ 126 exLists)[5]?).map
        Record.lane = some (some 3) := by decide +kernel

/-- Four lanes, a record taken and refused; sixteen lanes. -/
theorem witness_pack_start :
    ((clean [] []).profile active).nCh * ((clean [] []).profile active).nPch ≤ 8 ∧
      (clean [true] []).answer = true ∧ (clean [false] []).answer = false ∧
      (clean [true] []).Ready active ∧ (clean [false] []).Ready active ∧ wide.Ready active ∧
      8 < (wide.profile active).nCh * (wide.profile active).nPch := by decide

/-- For StepKeepsTheInvariant and StepAnswersOnceAndOnlyAppends. -/
theorem witness_inv_and_step :
    (clean [] [0x5000000000000000, 4]).Inv ∧
      ∃ t, step (clean [] [0x5000000000000000, 4]) = .next t :=
  ⟨by decide, _, rfl⟩

theorem witness_inv_and_host_act : (faulty []).Inv ∧ State.reset.Inv := by decide

/-- For RegistersHaveOneWriter. -/
theorem witness_one_writer :
    (∃ t, exec (.csrRd 13) (faulty []) = .next t) ∧ (∀ p n m j, Instr.csrRd 13 ≠ .cfgSet p n m j) ∧
      (faulty []).fault.code ≠ 0 ∧ Instr.csrRd 13 ≠ .faultClr :=
  ⟨⟨_, rfl⟩, (fun p n m j h => nomatch h), by decide, by decide⟩

/-- For CodecCommandsAppendNothing: command codes 2 and 0xB. -/
theorem witness_codec_commands :
    (∃ t, exec (.decAccInst 1) (clean [] []) = .next t) ∧ (Instr.decAccInst 1).cmd < 0xC ∧
      (Instr.decAccInst 1).cmd ≠ 1 ∧ (Instr.decAccInst 1).cmd ≠ 3 ∧ (Instr.csrRd 0).cmd < 0xC ∧
      (Instr.csrRd 0).cmd ≠ 1 ∧ (Instr.csrRd 0).cmd ≠ 3 :=
  ⟨⟨_, rfl⟩, by decide⟩

/-- For FaultsArePrecise: a command that faults NOT_CONFIGURED. -/
theorem witness_precise_fault :
    ∃ t, exec (.emitLd 0) (fresh [] []) = .next t ∧
      t.responses = (fresh [] []).responses ++ [⟨0x05, []⟩] ∧ (0x05 : BitVec 8) ≠ 0x00 ∧
      (0x05 : BitVec 8) ≠ 0x08 :=
  ⟨_, rfl, by decide⟩

/-- For EmittingCommandsKeepTheRest. -/
theorem witness_emitting :
    (∃ t, exec (.packLinear ⟨0, 0, 0, 0, 0, 0⟩ 0 [1]) (clean [true] []) = .next t) ∧
      0xC ≤ (Instr.packLinear ⟨0, 0, 0, 0, 0, 0⟩ 0 [1]).cmd ∧ (clean [true] []).packer = none :=
  ⟨⟨_, rfl⟩, by decide⟩

/-- For ResponsesFollowTheFormat: the longest response, DEC_ACC_INST's, and an illegal packet. -/
theorem witness_response_format :
    (decAccWord 1).words.length = 10 ∧ (decAccWord 1).words.length < 2 ^ 8 ∧
      decode (clean [] [0]).input = .illegal 0 [] := by decide

/-- For CleanEntryRunsToItsEnd: two whole packets, the second with an illegal header; commands of the
lowest and the highest code it speaks of. -/
theorem witness_clean_entry :
    (clean [] [0x5000000000000000, 4, 0x2800000000000000]).CleanEntry active 0 ∧
      0x4 ≤ (Instr.encNdpAddr ⟨0, 0, 0, 0, 0, 0, 0⟩).cmd ∧ 0x4 ≤ (Instr.emitLd 0).cmd := by decide

/-- R176 refuses another configuration than the one needed, and a partial packet behind a whole one. -/
theorem test_clean_entry_refuses :
    ¬ (configured 2 0 0 10).CleanEntry active 0 ∧
      ¬ (clean [] [0x2000000000000000, 0x5000000000000000]).CleanEntry active 0 := by decide

end Sys2Proof.Tests
end

section
/-!
SUPPORT. The statements about packets and their headers (30_encoding.md R81, R82, R83): what the header's
fields are as numbers, which headers are illegal, what the decoder makes of an illegal packet, and which
selectors CSR_RD answers.
-/

namespace Sys2Proof.Proofs

open Sys2Proof.Machine Sys2Proof.Laws

/-! ### The header's fields as numbers (R78, R80) -/

theorem toNat_slice (x : Word) (lo w : Nat) : (slice x lo w).toNat = x.toNat / 2 ^ lo % 2 ^ w := by
  rw [slice, BitVec.extractLsb'_toNat, Nat.shiftRight_eq_div_pow]

theorem toNat_headerCmd (h : Word) : (headerCmd h).toNat = h.toNat / 2 ^ 60 := by
  rw [headerCmd, toNat_slice]
  omega

theorem headerN_eq (h : Word) : headerN h = h.toNat % 2 ^ 32 := by
  rw [headerN, toNat_slice, Nat.pow_zero, Nat.div_one]

theorem headerNl_eq (h : Word) : headerNl h = h.toNat / 2 ^ 8 % 2 ^ 8 := toNat_slice h 8 8

/-- EMIT's record kind, header bit 0 (R80). -/
theorem slice_bit0_eq_zero_iff (h : Word) : slice h 0 1 = 0 ↔ h.toNat % 2 = 0 := by
  rw [← BitVec.toNat_inj, toNat_slice, Nat.pow_zero, Nat.div_one]
  rfl

/-! ### The length of a packet (R81) -/

/-- The count words, read position by position: there where R81 lets the length be known. -/
theorem sum_countWords (ops : List Word) (nl : Nat) (h : nl = 0 ∨ 6 + nl ≤ ops.length) :
    (((ops.drop 6).take nl).map BitVec.toNat).sum =
      ((List.range nl).map fun l => (ops.getD (6 + l) 0).toNat).sum := by
  refine congrArg List.sum (List.ext_getElem ?_ fun l hl hl' => ?_)
  · simp only [List.length_map, List.length_take, List.length_drop, List.length_range]
    omega
  · have hlen : 6 + l < ops.length := by
      simp only [List.length_map, List.length_take, List.length_drop] at hl
      omega
    simp only [List.getElem_map, List.getElem_take, List.getElem_drop, List.getElem_range,
      List.getD_eq_getElem _ _ hlen]

/-- Settles O8, by the rows of R81's table, one for each CMD; the decoder's count words are those the
table adds up. -/
theorem packetLengthFollowsTheTable : Obligations.PacketLengthFollowsTheTable := by
  intro h ops
  simp only [← toNat_headerCmd, ← headerNl_eq, ← headerN_eq, ← slice_bit0_eq_zero_iff]
  rw [packetLength]
  split
  case h_10 hc => -- PACK_INTERLEAVED, whose length may not be known yet
    simp only [hc]
    by_cases h6 : headerNl h = 0 ∨ 6 + headerNl h ≤ ops.length
    · rw [if_neg (by omega), sum_countWords ops _ h6]
      exact (if_pos h6).symm
    · rw [if_pos (by omega)]
      exact (if_neg h6).symm
  case h_12 hc => -- EMIT_LD or EMIT_ST, told apart by header bit 0
    simp only [hc]
    exact apply_ite some _ _ _
  case h_13 => -- none of the codes 4 to 15
    have hc : (headerCmd h).toNat ≤ 3 := by
      simp only [imp_false] at *
      bv_omega
    rw [if_pos hc]
  all_goals
    next hc => simp only [hc]; rfl

/-- A packet has at least its header. -/
theorem packetLength_pos (ws : List Word) (n : Nat) (h : packetLength ws = some n) : 0 < n := by
  unfold packetLength at h
  split at h
  · exact absurd h nofun
  · split at h
    case h_10 => -- PACK_INTERLEAVED
      split at h
      · exact absurd h nofun
      · cases h
        omega
    case h_12 => -- EMIT_LD or EMIT_ST
      cases h
      split <;> decide
    all_goals
      cases h
      omega

/-! ### Illegal headers (R82) -/

/-- The reserved mask of a CMD holds the bits below CMD that R80 gives no field. -/
theorem getLsbD_reservedMask : ∀ (c : BitVec 4) (i : Fin 64),
    (reservedMask c).getLsbD i = (decide (i.val < 60) && !headerField c.toNat i) := by
  decide

/-- The headers step 2 of R141 meets. -/
theorem headerIllegal_iff (h : Word) : headerIllegal h = true ↔
    h.toNat / 2 ^ 60 = 0 ∨
      ∃ i, i < 60 ∧ h.getLsbD i = true ∧ headerField (h.toNat / 2 ^ 60) i = false := by
  have hcmd : headerCmd h = 0 ↔ h.toNat / 2 ^ 60 = 0 := by
    rw [← toNat_headerCmd, ← BitVec.toNat_inj]
    rfl
  have hbit (i : Nat) (hi : i < 64) : (h &&& reservedMask (headerCmd h)).getLsbD i =
      (h.getLsbD i && (decide (i < 60) && !headerField (h.toNat / 2 ^ 60) i)) := by
    rw [BitVec.getLsbD_and, getLsbD_reservedMask (headerCmd h) ⟨i, hi⟩, toNat_headerCmd]
  have hmask : h &&& reservedMask (headerCmd h) ≠ 0 ↔
      ∃ i, i < 60 ∧ h.getLsbD i = true ∧ headerField (h.toNat / 2 ^ 60) i = false := by
    constructor
    · intro hne
      by_contra hno
      refine hne (BitVec.eq_of_getLsbD_eq fun i hi => ?_)
      rw [hbit i hi]
      by_contra hset
      exact hno ⟨i, by simpa [and_left_comm] using hset⟩
    · rintro ⟨i, hi, hset, hfield⟩ he
      have hi' := hbit i (by omega)
      rw [he, hset, hfield, decide_eq_true hi] at hi'
      exact absurd hi' (by simp)
  rw [headerIllegal, Bool.or_eq_true, beq_iff_eq, bne_iff_ne, hcmd, hmask]

/-- The decoder on a whole packet with an illegal header. -/
theorem decode_illegal (h : Word) (ops : List Word) (n : Nat)
    (hn : packetLength (h :: ops) = some n) (hw : n ≤ (h :: ops).length)
    (hi : headerIllegal h = true) : decode (h :: ops) = .illegal h ((h :: ops).drop n) := by
  obtain ⟨m, rfl⟩ := Nat.exists_eq_add_one.mpr (packetLength_pos _ _ hn)
  have hw' : ¬ ops.length + 1 < m + 1 := Nat.not_lt.mpr hw
  simp only [decode, hn, hw', hi, if_true, if_false, Nat.add_sub_cancel, List.drop_succ_cons]

/-- Step 2 of R141 with no fault pending: ILLEGAL_COMMAND, FAULT_INFO the header's high half. -/
theorem illegalHeader_clear (s : State) (h : Word) (hf : s.fault.code = 0) :
    s.illegalHeader h = s.faulted 0x01 0 (BitVec.ofNat 32 (h.toNat / 2 ^ 32)) [] := by
  have hinfo : (slice h 32 32).toNat = h.toNat / 2 ^ 32 := by
    rw [toNat_slice]
    omega
  rw [State.illegalHeader, if_neg (fun c => c.1 hf), raise_clear s _ _ _ _ hf, hinfo]
  rfl

/-- Settles O9: the header is illegal by its CMD or by a bit of its mask, so the decoder hands the
step an illegal packet of the length R81 gives it, and the fault is latched. -/
theorem illegalHeaderFaults : Obligations.IllegalHeaderFaults := by
  intro s h ops n hs hn hw hf hbad
  rw [hs] at hn hw
  have hd : decode s.input = .illegal h (s.input.drop n) := by
    rw [hs]
    exact decode_illegal h ops n hn hw ((headerIllegal_iff h).mpr hbad)
  rw [step, hd]
  exact congrArg _ (illegalHeader_clear (s.setInput (s.input.drop n)) h hf)

/-! ### The selectors of CSR_RD (R83) -/

/-- CSR_RD's header, CMD over SEL (R80). -/
theorem csrRdHeader_eq : ∀ sel : BitVec 4, csrRdHeader sel = 2#4 ++ 0#56 ++ sel := by decide

/-- The high half of CSR_RD's header, whatever its selector. -/
theorem csrRdHeader_high : ∀ sel : BitVec 4,
    (slice (csrRdHeader sel) 32 32).toNat = 0x20000000 := by
  decide

/-- The reserved selectors have no value. -/
theorem csrValue_eq_none_iff (s : State) (sel : BitVec 4) :
    s.csrValue sel = none ↔ 13 ≤ sel.toNat := by
  unfold State.csrValue
  split
  case h_14 => -- none of the selectors 0 to 12
    simp only [true_iff, imp_false] at *
    bv_omega
  all_goals
    exact iff_of_false nofun (by decide)

/-- CSR_RD of a selector that has a value (44_control.md R134). -/
theorem exec_csrRd_value (s : State) (sel : BitVec 4) (v : Word) (hv : s.csrValue sel = some v) :
    exec (.csrRd sel) s = .next (s.respond 0 [v]) := by
  rw [exec, execCsrRd, hv]

/-- CSR_RD of a selector that has none: FAULT_INFO is the header's high half (60_exceptions.md R145). -/
theorem exec_csrRd_reserved (s : State) (sel : BitVec 4) (hv : s.csrValue sel = none) :
    exec (.csrRd sel) s = .next (s.raise .illegalCommand 0 0x20000000 []) := by
  rw [exec, execCsrRd, hv, csrRdHeader_high]

/-- Settles O19: a selector with a value is answered by it, and one without raises ILLEGAL_COMMAND,
which the latch keeps only where no fault is pending. -/
theorem reservedSelectorsFault : Obligations.ReservedSelectorsFault := by
  intro s sel
  refine ⟨congrArg (· :: []) (csrRdHeader_eq sel), fun hsel => ?_, fun hsel => ?_⟩
  · obtain ⟨v, hv⟩ := Option.ne_none_iff_exists'.mp fun c =>
      absurd ((csrValue_eq_none_iff s sel).mp c) (by omega)
    exact ⟨v, exec_csrRd_value s sel v hv⟩
  · rw [exec_csrRd_reserved s sel ((csrValue_eq_none_iff s sel).mpr hsel)]
    by_cases hf : s.fault.code = 0
    · rw [if_pos hf]
      exact congrArg _ (raise_clear s _ _ _ _ hf)
    · rw [if_neg hf]
      exact congrArg _ (raise_pending s _ _ _ _ hf)

end Sys2Proof.Proofs
end

section
/-!
SUPPORT. The statements about the four address commands (40_address_codec.md R91 to R94): what a
configuration selects, where an order puts each field, what the encoders' loop ORs together, and the
decoders' flags.
-/

namespace Sys2Proof.Proofs

open Sys2Proof.Machine Sys2Proof.Laws

/-! ### The scheme a configuration selects (R62 to R65, R68 to R70) -/

/-- The code of a scheme (R62 to R64, R68 to R70). -/
def schemeCode : Scheme → BitVec 2
  | .rowColBankBankgroupRank => 0
  | .rowBankBankgroupRankCol => 1
  | .bankRowColBankgroupRank => 2

/-- A scheme's code selects that scheme and no other. -/
theorem schemeOf_eq_some_iff (code : BitVec 2) (sch : Scheme) :
    schemeOf code = some sch ↔ code = schemeCode sch := by
  cases sch <;> revert code <;> decide

/-- A configuration selects the schemes of the codes it holds. -/
theorem scheme_codes_of_active (c : Cfg) (a : Active) (h : c.active = some a) :
    c.ndpScheme = schemeCode a.ndpScheme ∧ c.normScheme = schemeCode a.normScheme := by
  rw [Cfg.active] at h
  split at h
  · split at h
    · next hndp hnorm _ =>
      cases h
      exact ⟨(schemeOf_eq_some_iff _ _).mp hndp, (schemeOf_eq_some_iff _ _).mp hnorm⟩
    · cases h
  · cases h

/-! ### The fields of an order and their offsets (R61) -/

/-- Every NDP order holds each of the seven fields once. -/
theorem ndpOrder_perm (sch : Scheme) :
    (ndpOrder sch).Perm [.ch, .pch, .ra, .bg, .ba, .ro, .co] := by
  cases sch <;> decide

/-- Every normal order holds each of the six normal fields once. -/
theorem normOrder_perm (sch : Scheme) : (normOrder sch).Perm [.ch, .ra, .bg, .ba, .ro, .co] := by
  cases sch <;> decide

/-- The offsets of an NDP order's fields are those of the tables of R62 to R64. -/
theorem fieldLo_ndpOrder (t : ProfileTable) (sch : Scheme) (f : Field) :
    fieldLo t.width (ndpOrder sch) t.g f = ndpLo t (schemeCode sch) f := by
  cases sch <;> cases f <;> rfl

/-- The offsets of a normal order's fields are those R68 to R70 list. -/
theorem fieldLo_normOrder (t : NormTable) (sch : Scheme) (f : Field) (hf : f ≠ .pch) :
    fieldLo t.width (normOrder sch) t.gn f = normLo t (schemeCode sch) f := by
  cases f
  case pch => exact absurd rfl hf
  all_goals cases sch <;> rfl

/-- The offset above an order's top field does not depend on the order. -/
theorem fieldsTop_perm (width : Field → Nat) (fs gs : List Field) (pos : Nat) (h : fs.Perm gs) :
    fieldsTop width fs pos = fieldsTop width gs pos := by
  rw [fieldsTop, fieldsTop, (h.map width).sum_eq]

theorem fieldsTop_ndpOrder (t : ProfileTable) (sch : Scheme) :
    fieldsTop t.width (ndpOrder sch) t.g = ndpTop t := by
  rw [fieldsTop_perm _ _ _ _ (ndpOrder_perm sch), fieldsTop, ndpTop]
  simp only [List.map_cons, List.map_nil, List.sum_cons, List.sum_nil, Nat.add_zero, Nat.add_assoc]

theorem fieldsTop_normOrder (t : NormTable) (sch : Scheme) :
    fieldsTop t.width (normOrder sch) t.gn = normTop t := by
  rw [fieldsTop_perm _ _ _ _ (normOrder_perm sch), fieldsTop, normTop]
  simp only [List.map_cons, List.map_nil, List.sum_cons, List.sum_nil, Nat.add_zero, Nat.add_assoc]

/-! ### What the encoders' loop builds (R91, R93) -/

/-- The OR of the operands of `fs`, each placed at `lo`. -/
def orPlaced (width : Field → Nat) (v : Field → Word) (lo : Field → Nat) (fs : List Field) : Word :=
  (fs.map fun f => place (v f) (width f) (lo f)).foldr (· ||| ·) 0

/-- The OR depends on the offsets of its own fields only. -/
theorem orPlaced_congr (width : Field → Nat) (v : Field → Word) (lo lo' : Field → Nat)
    (fs : List Field) (h : ∀ f ∈ fs, lo f = lo' f) :
    orPlaced width v lo fs = orPlaced width v lo' fs := by
  rw [orPlaced, orPlaced, List.map_congr_left fun f hf => by rw [h f hf]]

/-- The order of the fields matters to their offsets, not to the OR. -/
theorem orPlaced_perm (width : Field → Nat) (v : Field → Word) (lo : Field → Nat)
    (fs gs : List Field) (h : fs.Perm gs) : orPlaced width v lo fs = orPlaced width v lo gs :=
  (h.map _).foldr_op_eq

/-- The loop ORs the operands, each at its field's offset in the order. -/
theorem encodeFields_eq_orPlaced (width : Field → Nat) (v : Field → Word) (fs : List Field)
    (pos : Nat) (hn : fs.Nodup) :
    encodeFields width v fs pos = orPlaced width v (fieldLo width fs pos) fs := by
  induction fs generalizing pos with
  | nil => rfl
  | cons f fs ih =>
    obtain ⟨hf, hn⟩ := List.nodup_cons.mp hn
    have hhead : fieldLo width (f :: fs) pos f = pos := if_pos rfl
    have htail : ∀ g ∈ fs, fieldLo width (f :: fs) pos g = fieldLo width fs (pos + width f) g :=
      fun g hg => if_neg fun e : f = g => hf (e ▸ hg)
    calc encodeFields width v (f :: fs) pos
        = place (v f) (width f) pos ||| encodeFields width v fs (pos + width f) := rfl
      _ = place (v f) (width f) pos ||| orPlaced width v (fieldLo width (f :: fs) pos) fs := by
          rw [ih _ hn, orPlaced_congr _ _ _ _ _ htail]
      _ = orPlaced width v (fieldLo width (f :: fs) pos) (f :: fs) := by
          rw [orPlaced, orPlaced, List.map_cons, List.foldr_cons, hhead]

/-- The NDP encoder's address (R91). -/
theorem encNdp_eq_orPlaced (t : ProfileTable) (sch : Scheme) (c : Coords) :
    encNdp t sch c = orPlaced t.width c.get (ndpLo t (schemeCode sch))
      [.ch, .pch, .ra, .bg, .ba, .ro, .co] := by
  have hn : (ndpOrder sch).Nodup := (ndpOrder_perm sch).nodup_iff.mpr (by decide)
  rw [encNdp, encodeFields_eq_orPlaced _ _ _ _ hn, orPlaced_perm _ _ _ _ _ (ndpOrder_perm sch)]
  exact orPlaced_congr _ _ _ _ _ fun f _ => fieldLo_ndpOrder t sch f

/-- The normal encoder's address (R93). -/
theorem encNorm_eq_orPlaced (t : NormTable) (sch : Scheme) (c : NormCoords) :
    encNorm t sch c = orPlaced t.width c.get (normLo t (schemeCode sch))
      [.ch, .ra, .bg, .ba, .ro, .co] := by
  have hn : (normOrder sch).Nodup := (normOrder_perm sch).nodup_iff.mpr (by decide)
  rw [encNorm, encodeFields_eq_orPlaced _ _ _ _ hn, orPlaced_perm _ _ _ _ _ (normOrder_perm sch)]
  exact orPlaced_congr _ _ _ _ _ fun f hf => fieldLo_normOrder t sch f fun e => by
    subst e
    exact absurd hf (by decide)

/-! ### The flags of a decoded address (R92, R94) -/

/-- A field read, as a number; for every width, that of a whole word too. -/
theorem toNat_extract (x : Word) (w lo : Nat) : (extract x w lo).toNat = x.toNat / 2 ^ lo % 2 ^ w := by
  refine Nat.eq_of_testBit_eq fun i => ?_
  rw [BitVec.testBit_toNat, getLsbD_extract, Nat.testBit_mod_two_pow, Nat.testBit_div_two_pow,
    BitVec.testBit_toNat, Nat.add_comm]

theorem lowNz_iff (a : Word) (g : Nat) : lowNz a g = true ↔ a.toNat % 2 ^ g ≠ 0 := by
  rw [lowNz, bne_iff_ne, ne_eq, ← BitVec.toNat_inj, toNat_extract, Nat.pow_zero, Nat.div_one]
  rfl

theorem highNz_iff (a : Word) (top : Nat) : highNz a top = true ↔ 2 ^ top ≤ a.toNat := by
  rw [highNz, bne_iff_ne, ne_eq, ← BitVec.toNat_inj, BitVec.toNat_ushiftRight,
    Nat.shiftRight_eq_div_pow, ← Nat.not_lt, ← Nat.div_eq_zero_iff_lt (Nat.two_pow_pos top)]
  rfl

/-- A flags word as a sum: its two flags have a bit each (R80). -/
theorem flagsWord_eq_add : ∀ high low : Bool,
    flagsWord high low = (if high then 2 else 0) + (if low then 1 else 0) := by
  decide

/-- The address decoders' flags word. -/
theorem flagsWord_eq_addrFlags (a : Word) (g top : Nat) :
    flagsWord (highNz a top) (lowNz a g) = addrFlags a g top := by
  rw [flagsWord_eq_add, addrFlags]
  simp only [highNz_iff, lowNz_iff]

/-! ### The four commands in a ready state -/

section
variable {s : State} {a : Active}

theorem exec_encNdpAddr (h : s.Ready a) (c : Coords) :
    exec (.encNdpAddr c) s = .next (s.answered 0x00 [encNdp (s.profile a) a.ndpScheme c]) :=
  congrArg _ (whenConfigured_active s 0x4 _ a h.1 h.2)

theorem exec_decNdpAddr (h : s.Ready a) (w : Word) :
    exec (.decNdpAddr w) s = .next (s.answered 0x00
      ((decNdp (s.profile a) a.ndpScheme w).words ++ [ndpFlags (s.profile a) a.ndpScheme w])) :=
  congrArg _ (whenConfigured_active s 0x5 _ a h.1 h.2)

theorem exec_encNormAddr (h : s.Ready a) (c : NormCoords) :
    exec (.encNormAddr c) s =
      .next (s.answered 0x00 [encNorm s.tables.params.norm a.normScheme c]) :=
  congrArg _ (whenConfigured_active s 0x6 _ a h.1 h.2)

theorem exec_decNormAddr (h : s.Ready a) (w : Word) :
    exec (.decNormAddr w) s = .next (s.answered 0x00
      ((decNorm s.tables.params.norm a.normScheme w).words ++
        [normFlags s.tables.params.norm a.normScheme w])) :=
  congrArg _ (whenConfigured_active s 0x7 _ a h.1 h.2)

end

/-- Settles O21: the loop's OR, put in the packet's order of the fields. -/
theorem encNdpAddrPlacesEveryField : Obligations.EncNdpAddrPlacesEveryField := by
  intro s a c hs
  obtain ⟨hndp, -⟩ := scheme_codes_of_active _ _ hs.2
  refine ⟨rfl, ?_⟩
  rw [exec_encNdpAddr hs, encNdp_eq_orPlaced, hndp]
  simp only [orPlaced, List.map_cons, List.map_nil, List.foldr_cons, List.foldr_nil, BitVec.or_assoc,
    BitVec.ofNat_eq_ofNat, BitVec.or_zero, Coords.get]

/-- Settles O22: the offsets of the scheme's order, and the flags as comparisons of the address. -/
theorem decNdpAddrReadsEveryField : Obligations.DecNdpAddrReadsEveryField := by
  intro s a w hs
  obtain ⟨hndp, -⟩ := scheme_codes_of_active _ _ hs.2
  refine ⟨rfl, ?_⟩
  rw [exec_decNdpAddr hs, ndpFlags, flagsWord_eq_addrFlags, fieldsTop_ndpOrder, hndp]
  simp only [decNdp, decNdpField, fieldLo_ndpOrder, Coords.words, List.cons_append, List.nil_append]

/-- Settles O23: the loop's OR, put in the packet's order of the fields. -/
theorem encNormAddrPlacesEveryField : Obligations.EncNormAddrPlacesEveryField := by
  intro s a c hs
  obtain ⟨-, hnorm⟩ := scheme_codes_of_active _ _ hs.2
  refine ⟨rfl, ?_⟩
  rw [exec_encNormAddr hs, encNorm_eq_orPlaced, hnorm]
  simp only [orPlaced, List.map_cons, List.map_nil, List.foldr_cons, List.foldr_nil, BitVec.or_assoc,
    BitVec.ofNat_eq_ofNat, BitVec.or_zero, NormCoords.get]

/-- Settles O24: the offsets of the scheme's order, and the flags as comparisons of the address. -/
theorem decNormAddrReadsEveryField : Obligations.DecNormAddrReadsEveryField := by
  intro s a w hs
  obtain ⟨-, hnorm⟩ := scheme_codes_of_active _ _ hs.2
  refine ⟨rfl, ?_⟩
  rw [exec_decNormAddr hs, normFlags, flagsWord_eq_addrFlags, fieldsTop_normOrder, hnorm]
  simp only [decNorm, decNormField, fieldLo_normOrder, NormCoords.words, List.cons_append,
    List.nil_append, ne_eq, reduceCtorEq, not_false_eq_true]

end Sys2Proof.Proofs
end

section
/-!
SUPPORT. The statements about the four instruction-codec commands (41_instruction_codec.md R100 to R103):
a concatenation as the encoders' OR of placed operands, the three NDP word formats and the descriptor
word, and the flags of a decoded NDP word.
-/

namespace Sys2Proof.Proofs

open Sys2Proof.Machine Sys2Proof.Laws

/-! ### The jump-target width a configuration selects (R22) -/

/-- A legal JTW value is its own width. -/
theorem jtwOf_eq_some (code : BitVec 4) (j : Nat) (h : jtwOf code = some j) :
    (code = 9 ∧ j = 9) ∨ (code = 10 ∧ j = 10) := by
  unfold jtwOf at h
  split at h
  · exact .inl ⟨rfl, (Option.some.inj h).symm⟩
  · exact .inr ⟨rfl, (Option.some.inj h).symm⟩
  · cases h

/-- A configuration selects the jump-target width it holds. -/
theorem jtw_of_active (c : Cfg) (a : Active) (h : c.active = some a) :
    (c.jtw = 9 ∧ a.jtw = 9) ∨ (c.jtw = 10 ∧ a.jtw = 10) := by
  rw [Cfg.active] at h
  split at h
  · split at h
    · next hjtw =>
      cases h
      exact jtwOf_eq_some _ _ hjtw
    · cases h
  · cases h

/-! ### A concatenation of fields as an OR of placed operands (R71, R74, R77) -/

/-- An operand placed is its low bits shifted to the field. -/
theorem place_eq_slice_shiftLeft (v : Word) (w lo : Nat) :
    place v w lo = zext (slice v 0 w) <<< lo := by
  rw [zext_slice, extract, BitVec.ushiftRight_zero, place]

/-- The last field of a concatenation, split off. -/
theorem zext_append_shiftLeft {n w : Nat} (x : BitVec n) (y : BitVec w) (lo : Nat) :
    zext (x ++ y) <<< lo = zext x <<< (lo + w) ||| zext y <<< lo := by
  rw [zext, BitVec.setWidth_append_eq_shiftLeft_setWidth_or, BitVec.shiftLeft_or_distrib,
    Nat.add_comm lo, BitVec.shiftLeft_add]
  rfl

/-- A reserved field of zeros adds nothing to the OR. -/
theorem or_zext_zero_shiftLeft (x : Word) (w lo : Nat) : x ||| zext 0#w <<< lo = x := by
  rw [zext, BitVec.setWidth_zero, BitVec.zero_shiftLeft, BitVec.or_zero]

/-- A word is the concatenation of its fields at offset 0. -/
theorem zext_shiftLeft_zero (x : Word) : zext x <<< 0 = x := by
  rw [BitVec.shiftLeft_zero, zext, BitVec.setWidth_eq]

/-! ### The encoders' words -/

/-- The descriptor word (R102) has the format of R74. -/
theorem encAccWord_eq_accWord (o : AccOperands) :
    encAccWord o = accWord (slice o.opc 0 4) o.low := by
  rw [← zext_shiftLeft_zero (accWord _ _), accWord]
  repeat rw [zext_append_shiftLeft]
  simp only [encAccWord, place_eq_slice_shiftLeft, AccOperands.low, Nat.reduceAdd]

section
variable (loopOpc : BitVec 6) (jtw : Nat) (o : NdpOperands)

/-- A plain NDP word (R71): the five fields every NDP word has. -/
theorem plainWord_low : plainWord (slice o.opc 0 6) o.low =
    place o.opc 6 58 ||| place o.osz 7 51 ||| place o.laneId 3 48 ||| place o.bg 3 45 |||
      place o.ba 2 43 := by
  rw [← zext_shiftLeft_zero (plainWord _ _), plainWord]
  repeat rw [zext_append_shiftLeft]
  simp only [or_zext_zero_shiftLeft, place_eq_slice_shiftLeft, NdpOperands.low, Nat.reduceAdd]

/-- A LOOP word (R71) is the plain word with the two loop fields. -/
theorem loopWord10_low (lc jt : Word) :
    loopWord10 (slice o.opc 0 6) o.low (slice lc 0 10) (slice jt 0 10) =
      plainWord (slice o.opc 0 6) o.low ||| place lc 10 32 ||| place jt 10 0 := by
  rw [← zext_shiftLeft_zero (loopWord10 _ _ _ _), loopWord10, plainWord_low]
  repeat rw [zext_append_shiftLeft]
  simp only [or_zext_zero_shiftLeft, place_eq_slice_shiftLeft, NdpOperands.low, Nat.reduceAdd]

theorem loopWord9_low (lc jt : Word) :
    loopWord9 (slice o.opc 0 6) o.low (slice lc 0 10) (slice jt 0 9) =
      plainWord (slice o.opc 0 6) o.low ||| place lc 10 32 ||| place jt 9 0 := by
  rw [← zext_shiftLeft_zero (loopWord9 _ _ _ _), loopWord9, plainWord_low]
  repeat rw [zext_append_shiftLeft]
  simp only [or_zext_zero_shiftLeft, place_eq_slice_shiftLeft, NdpOperands.low, Nat.reduceAdd]

/-- A word whose opcode is not LOOP (R100, R104). -/
theorem encNdpWord_plain (h : slice o.opc 0 6 ≠ loopOpc) :
    encNdpWord loopOpc jtw o = plainWord (slice o.opc 0 6) o.low := by
  have hloop : ¬ opcIsLoop loopOpc o.opc = true := fun c => h (beq_iff_eq.mp c)
  rw [encNdpWord, if_neg hloop, plainWord_low]

/-- A word whose opcode is LOOP (R100, R104). -/
theorem encNdpWord_loop (h : slice o.opc 0 6 = loopOpc) :
    encNdpWord loopOpc jtw o =
      plainWord (slice o.opc 0 6) o.low ||| place o.loopCount 10 32 ||| place o.jumpTarget jtw 0 := by
  rw [encNdpWord, if_pos (show opcIsLoop loopOpc o.opc = true from beq_iff_eq.mpr h), plainWord_low]

end

/-! ### The flags of a decoded NDP word (R101) -/

/-- A field holds a nonzero bit, read into a word or at its own width. -/
theorem extract_bne_zero_iff (x : Word) (w lo : Nat) :
    (extract x w lo != 0) = true ↔ slice x lo w ≠ 0 := by
  rw [bne_iff_ne, ne_eq, ne_eq, ← BitVec.toNat_inj, ← BitVec.toNat_inj, toNat_extract, toNat_slice]
  simp only [BitVec.ofNat_eq_ofNat, BitVec.toNat_ofNat, Nat.zero_mod]

theorem wordIsLoop_iff (loopOpc : BitVec 6) (w : Word) :
    wordIsLoop loopOpc w = true ↔ slice w 58 6 = loopOpc := beq_iff_eq

/-- RSVD_NZ: bit 42 or [31:JTW] of a LOOP word, [42:0] of a plain word. -/
theorem rsvdNz_iff (loopOpc : BitVec 6) (jtw : Nat) (w : Word) : rsvdNz loopOpc jtw w = true ↔
    if slice w 58 6 = loopOpc then slice w 42 1 ≠ 0 ∨ slice w jtw (32 - jtw) ≠ 0
    else slice w 0 43 ≠ 0 := by
  rw [rsvdNz]
  by_cases h : slice w 58 6 = loopOpc
  · rw [if_pos h, if_pos ((wordIsLoop_iff _ _).mpr h), Bool.or_eq_true, extract_bne_zero_iff,
      extract_bne_zero_iff]
  · rw [if_neg h, if_neg (mt (wordIsLoop_iff _ _).mp h), extract_bne_zero_iff]

/-! ### The four commands in a ready state -/

section
variable {s : State} {a : Active}

theorem exec_encNdpInst (h : s.Ready a) (o : NdpOperands) :
    exec (.encNdpInst o) s = .next (s.answered 0x00 [encNdpWord s.loopOpc a.jtw o]) :=
  congrArg _ (whenConfigured_active s 0x8 _ a h.1 h.2)

theorem exec_decNdpInst (h : s.Ready a) (w : Word) :
    exec (.decNdpInst w) s = .next (s.answered 0x00
      ((decNdpWord s.loopOpc a.jtw w).words ++ [instFlags s.loopOpc a.jtw w])) :=
  congrArg _ (whenConfigured_active s 0x9 _ a h.1 h.2)

theorem exec_encAccInst (h : s.Ready a) (o : AccOperands) :
    exec (.encAccInst o) s = .next (s.answered 0x00 [encAccWord o]) :=
  congrArg _ (whenConfigured_active s 0xA _ a h.1 h.2)

theorem exec_decAccInst (h : s.Ready a) (w : Word) :
    exec (.decAccInst w) s = .next (s.answered 0x00 (decAccWord w).words) :=
  congrArg _ (whenConfigured_active s 0xB _ a h.1 h.2)

end

/-- Settles O28, by the opcode (R104) and, for LOOP, the jump-target width. -/
theorem encNdpInstBuildsTheWord : Obligations.EncNdpInstBuildsTheWord := by
  intro s a o hs
  refine ⟨rfl, ?_⟩
  rw [exec_encNdpInst hs, State.loopOpc]
  by_cases h : slice o.opc 0 6 = s.tables.params.ndpOpc.loop
  · rw [if_neg (not_not.mpr h), encNdpWord_loop _ _ _ h]
    obtain ⟨hc, ha⟩ | ⟨hc, ha⟩ := jtw_of_active _ _ hs.2
    · rw [hc, ha, if_neg (by decide), loopWord9_low]
    · rw [hc, ha, if_pos rfl, loopWord10_low]
  · rw [if_pos h, encNdpWord_plain _ _ _ h]

/-- Settles O29: each field as a slice, and the flags word as the sum of its two flags. -/
theorem decNdpInstReadsTheWord : Obligations.DecNdpInstReadsTheWord := by
  intro s a w hs
  have hjtw : s.cfg.jtw.toNat = a.jtw := by
    obtain ⟨hc, ha⟩ | ⟨hc, ha⟩ := jtw_of_active _ _ hs.2
    · rw [hc, ha]
      rfl
    · rw [hc, ha]
      rfl
  refine ⟨rfl, ?_⟩
  rw [exec_decNdpInst hs, instFlags, flagsWord_eq_add, hjtw]
  simp only [decNdpWord, NdpOperands.words, List.cons_append, List.nil_append, zext_slice, rsvdNz_iff,
    wordIsLoop_iff, State.loopOpc]

/-- Settles O31: the OR of the placed operands is the concatenation of their low bits. -/
theorem encAccInstBuildsTheWord : Obligations.EncAccInstBuildsTheWord := by
  intro s a o hs
  refine ⟨rfl, ?_⟩
  rw [exec_encAccInst hs, encAccWord_eq_accWord]

/-- Settles O32: each field as a slice. -/
theorem decAccInstReadsTheWord : Obligations.DecAccInstReadsTheWord := by
  intro s a w hs
  refine ⟨rfl, ?_⟩
  rw [exec_decAccInst hs]
  simp only [decAccWord, AccOperands.words, zext_slice]

end Sys2Proof.Proofs
end

section
/-!
SUPPORT. The statements about the three PACK commands (42_payload_packer.md R110 to R117): the rounds in
closed form, the end of a command that packs lists with every record taken and with one refused, and the
two packers' records as instances of it.
-/

namespace Sys2Proof.Proofs

open Sys2Proof.Machine Sys2Proof.Laws

/-! ### Chunks (R110) -/

theorem chunk_toList (ws : List Word) (i : Nat) :
    (chunk ws i).toList = (List.range 8).map fun w => ws.getD (i + w) 0 := rfl

/-- Settles O38: a chunk's words are the list's, read with 0 for the default. -/
theorem chunkPadsWithZeros : Obligations.ChunkPadsWithZeros := by
  intro ws i w hw
  rw [chunk_toList, List.getElem?_map, List.getElem?_range hw, Option.map_some]
  by_cases h : i + w < ws.length
  · rw [dif_pos h, List.getD_eq_getElem _ _ h]
  · rw [dif_neg h, List.getD_eq_default _ _ (Nat.not_lt.mp h)]

/-! ### The headers of the packets (R80) -/

theorem slice_ofNat_low (n w : Nat) (h : w ≤ 64) :
    slice (BitVec.ofNat 64 n) 0 w = BitVec.ofNat w n := by
  apply BitVec.eq_of_toNat_eq
  rw [toNat_slice, BitVec.toNat_ofNat, BitVec.toNat_ofNat, Nat.pow_zero, Nat.div_one,
    Nat.mod_mod_of_dvd _ (Nat.pow_dvd_pow 2 h)]

/-- PACK_LINEAR's header, CMD over N. -/
theorem packLinearHeader_eq (n : Nat) :
    mkHeader 0xC (place (BitVec.ofNat 64 n) 32 0) = 0xC#4 ++ 0#28 ++ BitVec.ofNat 32 n := by
  rw [← zext_shiftLeft_zero (0xC#4 ++ 0#28 ++ BitVec.ofNat 32 n)]
  repeat rw [zext_append_shiftLeft]
  rw [or_zext_zero_shiftLeft, mkHeader, place_eq_slice_shiftLeft (BitVec.ofNat 64 n),
    slice_ofNat_low n 32 (by decide)]
  rfl

/-- PACK_INTERLEAVED's header, CMD over NL over START_COL. -/
theorem packInterleavedHeader_eq (col : BitVec 7) (n : Nat) :
    mkHeader 0xD (place (zext col) 7 0 ||| place (BitVec.ofNat 64 n) 8 8) =
      0xD#4 ++ 0#44 ++ BitVec.ofNat 8 n ++ 0#1 ++ col := by
  have hcol : place (zext col) 7 0 = zext col <<< 0 := by rw [place, zext_and_mask]
  rw [← zext_shiftLeft_zero (0xD#4 ++ 0#44 ++ BitVec.ofNat 8 n ++ 0#1 ++ col)]
  repeat rw [zext_append_shiftLeft]
  rw [or_zext_zero_shiftLeft, or_zext_zero_shiftLeft, mkHeader, hcol,
    place_eq_slice_shiftLeft (BitVec.ofNat 64 n), slice_ofNat_low n 8 (by decide),
    BitVec.or_comm (zext col <<< 0), ← BitVec.or_assoc]
  rfl

/-! ### The rounds in closed form (R113, R114) -/

/-- A lane's chunk changes its own read index only. -/
theorem index_advance_ne (p : Packer) (l m : Nat) (h : m ≠ l) : (p.advance l).index m = p.index m := by
  simp only [Packer.advance, Packer.index, List.getD_eq_getElem?_getD, List.getElem?_set,
    if_neg h.symm]

/-- One round visits the lanes that are pending when it begins. -/
theorem passVisits_round (lanes : List Nat) (p : Packer) (hn : lanes.Nodup) :
    passVisits lanes p = (lanes.filter p.pending).map fun l => (l, p.index l) := by
  induction lanes generalizing p with
  | nil => rfl
  | cons l lanes ih =>
    obtain ⟨hl, hn⟩ := List.nodup_cons.mp hn
    have hindex : ∀ m ∈ lanes, (p.advance l).index m = p.index m := fun m hm =>
      index_advance_ne p l m fun e => hl (e ▸ hm)
    have hpending : ∀ m ∈ lanes, (p.advance l).pending m = p.pending m := fun m hm => by
      rw [Packer.pending, hindex m hm]
      rfl
    rw [passVisits]
    by_cases hp : p.pending l
    · rw [if_pos hp, List.filter_cons_of_pos hp, List.map_cons, ih _ hn, List.filter_congr hpending]
      refine congrArg _ (List.map_congr_left fun m hm => ?_)
      rw [hindex m (List.mem_filter.mp hm).1]
    · rw [if_neg hp, List.filter_cons_of_neg hp, ih _ hn]

/-- What one round does to the read indexes: each visited lane's moves on by up to 8 words, those of a
drained lane by none. -/
theorem index_passEnd (lanes : List Nat) (p : Packer) (hn : lanes.Nodup)
    (hr : ∀ l ∈ lanes, l < p.idx.length) (m : Nat) :
    (passEnd lanes p).index m =
      if m ∈ lanes then p.index m + min chunkWords ((p.list m).length - p.index m)
      else p.index m := by
  induction lanes generalizing p with
  | nil => rfl
  | cons l lanes ih =>
    obtain ⟨hl, hn⟩ := List.nodup_cons.mp hn
    obtain ⟨hrl, hr⟩ := List.forall_mem_cons.mp hr
    rw [passEnd]
    by_cases hp : p.pending l
    · have hlen : (p.advance l).idx.length = p.idx.length := List.length_set
      rw [if_pos hp, ih _ hn fun k hk => hlen ▸ hr k hk, index_advance p l m hrl]
      by_cases e : m = l
      · subst e
        simp only [hl, if_false, if_true, List.mem_cons_self]
      · simp only [e, if_false, List.mem_cons, false_or]
        rfl
    · rw [if_neg hp, ih _ hn hr]
      by_cases e : m = l
      · subst e
        have hdrained : (p.list m).length ≤ p.index m := by simpa [Packer.pending] using hp
        simp only [hl, if_false, if_true, List.mem_cons_self, Nat.sub_eq_zero_of_le hdrained,
          Nat.min_zero, Nat.add_zero]
      · simp only [e, List.mem_cons, false_or]

theorem list_passEnd (lanes : List Nat) (p : Packer) : (passEnd lanes p).list = p.list := by
  obtain ⟨-, -, hlists, -⟩ := passEnd_frame lanes p
  funext l
  rw [Packer.list, hlists, Packer.list]

/-- Before round `r` every lane has drained `8 * r` words, or all it has. -/
def AtRound (lanes : List Nat) (r : Nat) (p : Packer) : Prop :=
  ∀ l ∈ lanes, l < p.idx.length ∧ p.index l = min (chunkWords * r) (p.list l).length

theorem atRound_start (lists : List (List Word)) (col : BitVec 7) :
    AtRound (List.range lists.length) 0 (Packer.start lists col) := by
  intro l hl
  have hlen : (Packer.start lists col).idx.length = lists.length := List.length_map _
  have hidx : (Packer.start lists col).index l = 0 := by
    simp [Packer.start, Packer.index, List.getD_eq_getElem?_getD, List.mem_range.mp hl]
  exact ⟨hlen ▸ List.mem_range.mp hl, by rw [hidx, Nat.mul_zero, Nat.zero_min]⟩

theorem atRound_passEnd (lanes : List Nat) (r : Nat) (p : Packer) (hn : lanes.Nodup)
    (h : AtRound lanes r p) : AtRound lanes (r + 1) (passEnd lanes p) := by
  obtain ⟨-, -, -, hlen⟩ := passEnd_frame lanes p
  intro l hl
  refine ⟨hlen ▸ (h l hl).1, ?_⟩
  rw [index_passEnd lanes p hn (fun m hm => (h m hm).1), if_pos hl, list_passEnd,
    (h l hl).2, chunkWords]
  omega

/-- `n` rounds from round `r` on. -/
theorem passVisits_rounds (lanes : List Nat) (n r : Nat) (p : Packer) (hn : lanes.Nodup)
    (h : AtRound lanes r p) :
    passVisits (List.replicate n lanes).flatten p =
      (List.range' r n).flatMap fun r =>
        (lanes.filter fun l => chunkWords * r < (p.list l).length).map fun l =>
          (l, chunkWords * r) := by
  induction n generalizing r p with
  | zero => rfl
  | succ n ih =>
    have hpending : ∀ l ∈ lanes, p.pending l = decide (chunkWords * r < (p.list l).length) :=
      fun l hl => by
        rw [Packer.pending, (h l hl).2]
        exact decide_eq_decide.mpr (by omega)
    rw [List.replicate_succ, List.flatten_cons, passVisits_append, List.range'_succ,
      List.flatMap_cons, ih (r + 1) _ (atRound_passEnd lanes r p hn h), list_passEnd,
      passVisits_round lanes p hn, List.filter_congr hpending]
    refine congrArg (· ++ _) (List.map_congr_left fun l hl => ?_)
    obtain ⟨hl, hlt⟩ := List.mem_filter.mp hl
    rw [(h l hl).2, Nat.min_eq_left (Nat.le_of_lt (of_decide_eq_true hlt))]

/-- All the rounds of a command that packs `lists`. -/
def allRounds (lists : List (List Word)) : List Nat :=
  (List.replicate packRounds (List.range lists.length)).flatten

/-- The visits of a whole command are those of the closed form. -/
theorem passVisits_start (lists : List (List Word)) (col : BitVec 7) :
    passVisits (allRounds lists) (Packer.start lists col) =
      (interleavedVisits lists).map fun v => (v.1, 8 * v.2) := by
  rw [allRounds, passVisits_rounds _ _ 0 _ List.nodup_range (atRound_start lists col),
    ← List.range_eq_range', interleavedVisits, List.map_flatMap]
  simp only [List.map_map]
  rfl

/-- A list built of at most one entry for each element. -/
theorem flatMap_ite_singleton {α β : Type} (p : α → Prop) [DecidablePred p] (f : α → β) (l : List α) :
    (l.flatMap fun x => if p x then [f x] else []) = (l.filter p).map f := by
  induction l with
  | nil => rfl
  | cons x l ih =>
    by_cases h : p x
    · simp [h, ih]
    · simp [h, ih]

/-- A round visits the one list while it has words. -/
theorem roundVisits_singleton (ws : List Word) (r : Nat) :
    ((List.range [ws].length).filter fun l => 8 * r < ([ws].getD l []).length).map (fun l => (l, r)) =
      if r < chunks ws.length then [(0, r)] else [] := by
  have hlt : r < chunks ws.length ↔ 8 * r < ws.length := by rw [chunks]; omega
  by_cases hr : 8 * r < ws.length
  · simp [List.range_one, hlt, hr]
  · simp [List.range_one, hlt, hr]

/-- The visits of a command with one list (R112). -/
theorem interleavedVisits_singleton (ws : List Word) (h : ws.length < 1024) :
    interleavedVisits [ws] = (List.range (chunks ws.length)).map fun j => (0, j) := by
  have hfilter : (List.range 128).filter (fun r => r < chunks ws.length) =
      List.range (chunks ws.length) := by
    rw [← List.Ico.zero_bot, List.Ico.filter_lt, Nat.min_eq_right (by rw [chunks]; omega),
      List.Ico.zero_bot]
  rw [interleavedVisits, List.flatMap_congr fun r _ => roundVisits_singleton ws r,
    flatMap_ite_singleton, hfilter]

theorem mapIdx_map {α β γ : Type} (f : α → β) (g : Nat → β → γ) (l : List α) :
    (l.map f).mapIdx g = l.mapIdx fun i x => g i (f x) := by
  refine List.ext_getElem (by simp only [List.length_mapIdx, List.length_map]) fun i h h' => ?_
  simp only [List.getElem_mapIdx, List.getElem_map]

/-! ### A command that packs lists, to its end (R112, R114, R147) -/

section
variable (at_ : Nat → BitVec 7 → Word) (tag : Nat → Option Nat) (results : Nat → BitVec 7 → List Word)

/-- The records of a command that packs `lists`: the `i`-th visit's chunk at the address of the count and
the cursor `i` on. -/
def packRecords (lists : List (List Word)) (col : BitVec 7) : List Record :=
  (interleavedVisits lists).mapIdx fun i v =>
    .st (at_ i (col + BitVec.ofNat 7 i)) (chunk (lists.getD v.1 []) (8 * v.2)) (tag v.1)

theorem passRecords_start (lists : List (List Word)) (col : BitVec 7) :
    passRecords (fun p => at_ p.k p.col) tag (allRounds lists) (Packer.start lists col) =
      packRecords at_ tag lists col := by
  rw [passRecords_eq, passVisits_start, mapIdx_map, packRecords]
  simp only [Packer.start, Nat.zero_add]
  rfl

theorem length_packRecords (lists : List (List Word)) (col : BitVec 7) :
    (packRecords at_ tag lists col).length = (interleavedVisits lists).length := List.length_mapIdx

/-- The drain of a command that packs `lists`, and its end. -/
def packLists (lists : List (List Word)) (col : BitVec 7) (s : State) : State :=
  State.packEnd (fun p => results p.k p.col)
    (drain (fun p => at_ p.k p.col) tag (List.range lists.length) packRounds
      (s.setPacker (some (Packer.start lists col))))

/-- The drain is one pass over all the rounds. -/
theorem packLists_eq (lists : List (List Word)) (col : BitVec 7) (s : State) :
    packLists at_ tag results lists col s =
      State.packEnd (fun p => results p.k p.col)
        (visitRound (fun p => at_ p.k p.col) tag (allRounds lists)
          (packing s s.out (Packer.start lists col))) := by
  rw [packLists, drain_eq_visitRound]
  rfl

/-- The sink takes every record. -/
theorem packLists_taken (lists : List (List Word)) (col : BitVec 7) (s : State) (n : Nat)
    (hn : (packRecords at_ tag lists col).length = n) (h : s.accepts n = true) :
    packLists at_ tag results lists col s = { s.skipAnswers n with
      out := s.out ++ packRecords at_ tag lists col
      packer := none
      responses := s.responses ++ [⟨0x00, results n (col + BitVec.ofNat 7 n)⟩] } := by
  subst hn
  obtain ⟨hk, hcol, -, -⟩ := passEnd_frame (allRounds lists) (Packer.start lists col)
  have hvisits : (passVisits (allRounds lists) (Packer.start lists col)).length =
      (packRecords at_ tag lists col).length := by
    rw [passVisits_start, List.length_map, length_packRecords]
  rw [hvisits] at hk hcol
  rw [packLists_eq, visitRound_taken _ _ _ _ _ _ (by rw [passRecords_start]; exact h),
    passRecords_start, packEnd_taken, hk, hcol, State.respond]
  simp only [skipAnswers_responses, Packer.start, Nat.zero_add]

/-- The sink takes `k` records and refuses the next. -/
theorem packLists_refused (lists : List (List Word)) (col : BitVec 7) (s : State) (k : Nat)
    (hf : s.fault.code = 0) (hk : k < (packRecords at_ tag lists col).length)
    (h : s.accepts k = true) (ha : (s.skipAnswers k).answer = false) :
    packLists at_ tag results lists col s = { s.skipAnswers (k + 1) with
      out := s.out ++ (packRecords at_ tag lists col).take k
      packer := none
      fault := ⟨0x08, 0, BitVec.ofNat 32 k⟩
      responses := s.responses ++ [⟨0x08, results k (col + BitVec.ofNat 7 k)⟩] } := by
  obtain ⟨q, hqk, hqcol, hv⟩ := visitRound_refused (fun p => at_ p.k p.col) tag (allRounds lists) s
    s.out (Packer.start lists col) k h ha (by rw [passRecords_start]; exact hk)
  rw [packLists_eq, hv, passRecords_start, packEnd_refused,
    raise_clear _ _ _ _ _ (by rw [skipAnswers_fault, hf]), hqk, hqcol]
  simp only [skipAnswers_responses, Packer.start, Nat.zero_add]
  rfl

end

/-! ### PACK_LINEAR (R112) -/

section
variable {s : State} {a : Active}

/-- The address of PACK_LINEAR's `k`-th record. -/
def linearAddr (t : ProfileTable) (sch : Scheme) (b : Base) (col : Word) (k : Nat)
    (_ : BitVec 7) : Word :=
  encNdp t sch (b.at (col + BitVec.ofNat 64 k))

theorem packRecords_linear (t : ProfileTable) (sch : Scheme) (b : Base) (col : Word) (ws : List Word)
    (h : ws.length < 1024) :
    packRecords (linearAddr t sch b col) (fun _ => none) [ws] 0 = linearRecords t sch b col ws := by
  rw [packRecords, interleavedVisits_singleton ws h, mapIdx_map, linearRecords]
  refine List.ext_getElem (by simp only [List.length_mapIdx, List.length_map]) fun i hi hi' => ?_
  simp only [List.getElem_mapIdx, List.getElem_map, List.getElem_range]
  rfl

theorem exec_packLinear_fits (hs : s.Ready a) (b : Base) (col : Word) (ws : List Word)
    (h : ws.length < 1024) :
    exec (.packLinear b col ws) s =
      .next (packLists (linearAddr (s.profile a) a.ndpScheme b col) (fun _ => none)
        (fun k _ => [BitVec.ofNat 64 k]) [ws] 0 s) :=
  congrArg _ ((whenConfigured_active s 0xC _ a hs.1 hs.2).trans (if_neg (Nat.not_le.mpr h)))

theorem exec_packLinear_over (hs : s.Ready a) (b : Base) (col : Word) (ws : List Word)
    (h : 1024 ≤ ws.length) :
    exec (.packLinear b col ws) s = .next (s.raise .capacityOverflow 0 (infoOf ws.length) []) :=
  congrArg _ ((whenConfigured_active s 0xC _ a hs.1 hs.2).trans (if_pos h))

end

/-- Settles O39: the records of the rounds over one list are those of the closed form. -/
theorem packLinearAppendsItsRecords : Obligations.PackLinearAppendsItsRecords := by
  intro s a b col ws hs
  have hlen : (linearRecords (s.profile a) a.ndpScheme b col ws).length = chunks ws.length := by
    rw [linearRecords, List.length_map, List.length_range]
  refine ⟨congrArg (· :: _) (packLinearHeader_eq ws.length), fun hw h => ?_, fun k hw hk h ha => ?_,
    fun hw => ?_⟩
  · rw [exec_packLinear_fits hs b col ws hw, packLists_taken _ _ _ _ _ _ (chunks ws.length) _ h,
      packRecords_linear _ _ _ _ _ hw]
    rw [packRecords_linear _ _ _ _ _ hw, hlen]
  · rw [exec_packLinear_fits hs b col ws hw, packLists_refused _ _ _ _ _ _ k hs.1 _ h ha,
      packRecords_linear _ _ _ _ _ hw]
    rw [packRecords_linear _ _ _ _ _ hw, hlen]
    exact hk
  · rw [exec_packLinear_over hs b col ws hw, raise_clear _ _ _ _ _ hs.1]
    rfl

/-! ### PACK_INTERLEAVED (R114) -/

/-- No list over capacity. -/
theorem firstOver_eq_none (i : Nat) (ls : List (List Word)) (h : ∀ l ∈ ls, l.length < 1024) :
    firstOver i ls = none := by
  induction ls generalizing i with
  | nil => rfl
  | cons ws ls ih =>
    obtain ⟨hws, hls⟩ := List.forall_mem_cons.mp h
    rw [firstOver, imemWords, if_neg (Nat.not_le.mpr hws), ih _ hls]

/-- The lowest lane over capacity (R146). -/
theorem firstOver_eq_some (i l : Nat) (ls : List (List Word)) (big : List Word)
    (hl : ls[l]? = some big) (hbig : 1024 ≤ big.length)
    (hsmall : ∀ m small, m < l → ls[m]? = some small → small.length < 1024) :
    firstOver i ls = some (i + l, big.length) := by
  induction ls generalizing i l with
  | nil => exact absurd hl nofun
  | cons ws ls ih =>
    cases l with
    | zero =>
      obtain rfl : ws = big := Option.some.inj hl
      rw [firstOver, imemWords, if_pos hbig, Nat.add_zero]
    | succ l =>
      rw [firstOver, imemWords, if_neg (Nat.not_le.mpr (hsmall 0 ws (Nat.succ_pos l) rfl)),
        ih (i + 1) l hl fun m small hm => hsmall (m + 1) small (Nat.succ_lt_succ hm),
        Nat.add_assoc, Nat.add_comm 1]

/-- The cursor after `n` chunks, as the column it names. -/
theorem zext_col_add (col : BitVec 7) (n : Nat) :
    zext (col + BitVec.ofNat 7 n) = BitVec.ofNat 64 ((col.toNat + n) % 128) := by
  apply BitVec.eq_of_toNat_eq
  rw [zext, BitVec.toNat_setWidth, BitVec.toNat_add, BitVec.toNat_ofNat, BitVec.toNat_ofNat,
    Nat.add_mod_mod]

/-- The address of a record of PACK_INTERLEAVED, by the cursor. -/
def interleavedAddr (t : ProfileTable) (sch : Scheme) (b : Base) (_ : Nat) (col : BitVec 7) : Word :=
  encNdp t sch (b.at (zext col))

theorem packRecords_interleaved (t : ProfileTable) (sch : Scheme) (b : Base) (col : BitVec 7)
    (ls : List (List Word)) :
    packRecords (interleavedAddr t sch b) some ls col = interleavedRecords t sch b col ls := by
  simp only [packRecords, interleavedRecords, interleavedAddr, zext_col_add, Base.at]

section
variable {s : State} {a : Active}

theorem exec_packInterleaved_fits (hs : s.Ready a) (b : Base) (col : BitVec 7)
    (ls : List (List Word)) (h : ls.length = (s.profile a).lanes) (hw : ∀ l ∈ ls, l.length < 1024) :
    exec (.packInterleaved b col ls) s =
      .next (packLists (interleavedAddr (s.profile a) a.ndpScheme b) some
        (fun k col => [BitVec.ofNat 64 k, zext col]) ls col s) := by
  rw [exec, execPackInterleaved, whenConfigured_active s 0xD _ a hs.1 hs.2, if_neg (not_not.mpr h),
    firstOver_eq_none 0 ls hw]
  rfl

theorem exec_packInterleaved_over (hs : s.Ready a) (b : Base) (col : BitVec 7)
    (ls : List (List Word)) (h : ls.length = (s.profile a).lanes) (l n : Nat)
    (hover : firstOver 0 ls = some (l, n)) :
    exec (.packInterleaved b col ls) s = .next (s.raise .capacityOverflow l (infoOf n) []) := by
  rw [exec, execPackInterleaved, whenConfigured_active s 0xD _ a hs.1 hs.2, if_neg (not_not.mpr h),
    hover]

theorem exec_packInterleaved_lane_count (hs : s.Ready a) (b : Base) (col : BitVec 7)
    (ls : List (List Word)) (h : ls.length ≠ (s.profile a).lanes) :
    exec (.packInterleaved b col ls) s = .next (s.raise .illegalCommand 0 ls.length []) :=
  congrArg _ ((whenConfigured_active s 0xD _ a hs.1 hs.2).trans (if_pos h))

end

/-- Settles O40: the records of the rounds are those of the closed form, and the capacity check finds the
lowest lane. -/
theorem packInterleavedAppendsItsRecords : Obligations.PackInterleavedAppendsItsRecords := by
  intro s a b col ls hs
  have hrs := packRecords_interleaved (s.profile a) a.ndpScheme b col ls
  refine ⟨congrArg (· :: _) (packInterleavedHeader_eq col ls.length), fun hl hw h => ?_,
    fun k hl hw hk h ha => ?_, fun hl => ?_, fun l big hl hbig hover hsmall => ?_⟩
  · rw [exec_packInterleaved_fits hs b col ls hl hw,
      packLists_taken _ _ _ _ _ _ _ (congrArg List.length hrs) h, hrs, zext_col_add]
  · rw [exec_packInterleaved_fits hs b col ls hl hw,
      packLists_refused _ _ _ _ _ _ k hs.1 (hrs ▸ hk) h ha, hrs, zext_col_add]
  · rw [exec_packInterleaved_lane_count hs b col ls hl, raise_clear _ _ _ _ _ hs.1]
    rfl
  · have hfirst := firstOver_eq_some 0 l ls big hbig hover hsmall
    rw [Nat.zero_add] at hfirst
    rw [exec_packInterleaved_over hs b col ls hl l _ hfirst, raise_clear _ _ _ _ _ hs.1]
    rfl

/-! ### PACK_START (R117) -/

theorem startChunk_toList (m : Word) (lanes : Nat) :
    (startChunk m lanes).toList = (List.range 8).map (startWord m lanes) := rfl

/-- A word of the payload, by the mask as a number. -/
theorem startWord_eq (m : Word) (lanes w : Nat) :
    startWord m lanes w = if w < lanes ∧ m.toNat / 2 ^ w % 2 = 1 then 1 else 0 := by
  have hbit : m.getLsbD w = true ↔ m.toNat / 2 ^ w % 2 = 1 := by
    rw [← BitVec.testBit_toNat, Nat.testBit_eq_decide_div_mod_eq, decide_eq_true_iff]
  rw [startWord, bit]
  by_cases hl : w < lanes
  · simp only [hl, hbit, if_true, true_and]
  · simp only [hl, if_false, false_and]

section
variable {s : State} {a : Active}

/-- PACK_START's record. -/
def startRecord (t : ProfileTable) (sch : Scheme) (c : Coords) (m : Word) : Record :=
  .st (encNdp t sch c) (startChunk m t.lanes) none

theorem exec_packStart_fits (hs : s.Ready a) (c : Coords) (m : Word) (h : (s.profile a).lanes ≤ 8) :
    exec (.packStart c m) s =
      .next (if s.answer then
        State.respond 0 [1] { s.popAnswer with
          out := s.out ++ [startRecord (s.profile a) a.ndpScheme c m]
          packer := none }
      else State.raise .outputFailure 0 0 [0] { s.popAnswer with packer := none }) := by
  have hemit (r : Record) (q p : Packer) : (s.setPacker (some p)).emitChunk r q =
      if s.answer then (true, packing s.popAnswer (s.out ++ [r]) q)
      else (false, packing s.popAnswer s.popAnswer.out p) := by
    rw [popAnswer_out]
    exact emitChunk_packing r q s s.out p
  rw [exec, execPackStart, whenConfigured_active s 0xE _ a hs.1 hs.2, chunkWords,
    if_neg (Nat.not_lt.mpr h)]
  simp only [hemit]
  cases s.answer
  · rfl
  · rfl

theorem exec_packStart_over (hs : s.Ready a) (c : Coords) (m : Word) (h : 8 < (s.profile a).lanes) :
    exec (.packStart c m) s =
      .next (s.raise .laneOverflow 0 (infoOf (s.profile a).lanes) []) :=
  congrArg _ ((whenConfigured_active s 0xE _ a hs.1 hs.2).trans (if_pos h))

end

/-- Settles O43: the one record's emission, taken or refused, and its payload word by word. -/
theorem packStartAppendsOneRecord : Obligations.PackStartAppendsOneRecord := by
  intro s a c m hs
  refine ⟨rfl, fun hl ha => ⟨startChunk m (s.profile a).lanes, ?_, fun w v hv => ?_⟩, fun hl ha => ?_,
    fun hl => ?_⟩
  · rw [exec_packStart_fits hs c m hl, if_pos ha, State.respond, popAnswer_responses]
    rfl
  · rw [startChunk_toList, List.getElem?_map] at hv
    obtain ⟨i, hi, rfl⟩ := Option.map_eq_some_iff.mp hv
    obtain ⟨hi, rfl⟩ := List.getElem?_eq_some_iff.mp hi
    rw [List.getElem_range, startWord_eq]
    rfl
  · rw [exec_packStart_fits hs c m hl, ha, raise_clear _ _ _ _ _ (by rw [popAnswer_fault, hs.1])]
    rfl
  · rw [exec_packStart_over hs c m hl, raise_clear _ _ _ _ _ hs.1]
    rfl

end Sys2Proof.Proofs
end

section
/-!
SUPPORT. The statements about the trace emitter (43_trace_record.md R125 to R130): a command of one record,
taken or refused, and the hexadecimal digits of the text form, digit by digit.
-/

namespace Sys2Proof.Proofs

open Sys2Proof.Machine Sys2Proof.Laws

/-! ### The text of a value (R129) -/

/-- A nibble's digit is its entry in the list of the sixteen digits. -/
theorem hexDigit_eq_getD : ∀ n < 16, hexDigit n =
    ['0', '1', '2', '3', '4', '5', '6', '7', '8', '9', 'A', 'B', 'C', 'D', 'E', 'F'].getD n '0' := by
  decide

/-- Digit `i` of `n + 1` is the nibble of weight `16 ^ (n - i)`. -/
theorem hexDigits_succ_eq_map (n w : Nat) : hexDigits w (n + 1) =
    (List.range (n + 1)).map fun i => hexDigit (w / 16 ^ (n - i) % 16) := by
  induction n generalizing w with
  | zero =>
    rw [hexDigits, hexDigits, List.range_one, List.map_singleton, Nat.pow_zero, Nat.div_one,
      List.nil_append]
  | succ n ih =>
    have hweight (i : Nat) (hi : i ∈ List.range (n + 1)) :
        w / 16 / 16 ^ (n - i) = w / 16 ^ (n + 1 - i) := by
      have hle : i ≤ n := Nat.lt_succ_iff.mp (List.mem_range.mp hi)
      rw [Nat.div_div_eq_div_mul, ← Nat.pow_succ', Nat.succ_sub hle]
    rw [hexDigits, ih, List.range_succ (n := n + 1), List.map_append, List.map_singleton, Nat.sub_self,
      Nat.pow_zero, Nat.div_one]
    exact congrArg (· ++ _) (List.map_congr_left fun i hi => by rw [hweight i hi])

/-- The model's recursion on the digits writes R129's text of a value. -/
theorem hexWord_eq_textWord (w : Word) : hexWord w = textWord w := by
  rw [hexWord, textWord, hexDigits_succ_eq_map]
  simp only [hexDigit_eq_getD _ (Nat.mod_lt _ (by decide : 0 < 16)), Nat.reduceAdd]

/-- Settles O46: each number by its digits, the payload word by word, and one line for each record. -/
theorem recordTextForm : Obligations.RecordTextForm := by
  refine ⟨fun a c l => ?_, fun a => ?_, rfl, fun r rs => List.flatMap_cons⟩
  · simp only [Record.line, hexWord_eq_textWord, Chunk.toList, List.flatMap_cons, List.flatMap_nil,
      List.cons_append, List.nil_append, List.append_assoc, List.append_nil]
  · rw [Record.line, hexWord_eq_textWord]
    rfl

/-! ### A command of one record, with no fault pending (R125, R126, R147) -/

section
variable {s : State}

theorem emitOne_taken (r : Record) (h : s.answer = true) :
    s.emitOne r = { s.popAnswer with
      out := s.out ++ [r], responses := s.responses ++ [⟨0x00, [1]⟩] } := by
  rw [emitOne_accepted s r h, State.respond, State.append, popAnswer_out, popAnswer_responses]

theorem emitOne_output_failure (r : Record) (hf : s.fault.code = 0) (h : s.answer = false) :
    s.emitOne r = State.faulted 0x08 0 0 [0] s.popAnswer := by
  rw [emitOne_refused s r h, raise_clear _ _ _ _ _ (by rw [popAnswer_fault, hf])]
  rfl

theorem exec_emitLd {a : Active} (hs : s.Ready a) (addr : Word) :
    exec (.emitLd addr) s = .next (s.emitOne (.ld addr)) :=
  congrArg _ (whenConfigured_active s 0xF _ a hs.1 hs.2)

theorem exec_emitSt {a : Active} (hs : s.Ready a) (addr : Word) (c : Chunk) :
    exec (.emitSt addr c) s = .next (s.emitOne (.st addr c none)) :=
  congrArg _ (whenConfigured_active s 0xF _ a hs.1 hs.2)

end

/-- Settles O44, by the sink's answer. -/
theorem emitLdAppendsTheRecordAsGiven : Obligations.EmitLdAppendsTheRecordAsGiven := by
  intro s a addr hs
  rw [exec_emitLd hs]
  exact ⟨rfl, fun ha => congrArg _ (emitOne_taken _ ha),
    fun ha => congrArg _ (emitOne_output_failure _ hs.1 ha)⟩

/-- Settles O45, by the sink's answer. -/
theorem emitStAppendsTheRecordAsGiven : Obligations.EmitStAppendsTheRecordAsGiven := by
  intro s a addr c hs
  rw [exec_emitSt hs]
  exact ⟨rfl, fun ha => congrArg _ (emitOne_taken _ ha),
    fun ha => congrArg _ (emitOne_output_failure _ hs.1 ha)⟩

end Sys2Proof.Proofs
end

section
/-!
SUPPORT. The statements about CFG_SET and FAULT_CLR (44_control.md R132, R136): which of CFG_SET's fields are
illegal, its header, and what a step makes of a FAULT_CLR packet with a reserved bit.
-/

namespace Sys2Proof.Proofs

open Sys2Proof.Machine Sys2Proof.Laws

/-! ### The field checks of CFG_SET (R22, R132) -/

theorem profileOf_eq_none_iff : ∀ p : BitVec 3, profileOf p = none ↔ ¬ (p = 1 ∨ p = 2 ∨ p = 4) := by
  decide

theorem schemeOf_eq_none_iff : ∀ n : BitVec 2, schemeOf n = none ↔ n = 3 := by decide

theorem jtwOf_eq_none_iff : ∀ j : BitVec 4, jtwOf j = none ↔ ¬ (j = 9 ∨ j = 10) := by decide

/-- The first check that fails, on the codes themselves. -/
theorem cfgSetFault_eq (p : BitVec 3) (n m : BitVec 2) (j : BitVec 4) :
    cfgSetFault p n m j =
      if ¬ (p = 1 ∨ p = 2 ∨ p = 4) then some .cfgInvalidProfile
      else if n = 3 ∨ m = 3 then some .cfgInvalidScheme
      else if ¬ (j = 9 ∨ j = 10) then some .cfgInvalidJtw
      else none := by
  simp only [cfgSetFault, profileOf_eq_none_iff, schemeOf_eq_none_iff, jtwOf_eq_none_iff]

/-! ### CFG_SET's header (R80) -/

/-- CFG_SET's header, CMD over JTW, the two schemes and PROFILE. -/
theorem cfgSetHeader_eq (p : BitVec 3) (n m : BitVec 2) (j : BitVec 4) :
    cfgSetHeader p n m j = 1#4 ++ 0#48 ++ j ++ m ++ n ++ 0#1 ++ p := by
  rw [← zext_shiftLeft_zero (1#4 ++ 0#48 ++ j ++ m ++ n ++ 0#1 ++ p)]
  repeat rw [zext_append_shiftLeft]
  simp only [cfgSetHeader, mkHeader, place, zext_and_mask, or_zext_zero_shiftLeft, Nat.reduceAdd]
  ac_rfl

/-- The half of CFG_SET's header that FAULT_INFO takes (R132). -/
theorem cfgSetHeader_low (p : BitVec 3) (n m : BitVec 2) (j : BitVec 4) :
    slice (cfgSetHeader p n m j) 0 32 = 0#20 ++ j ++ m ++ n ++ 0#1 ++ p := by
  apply BitVec.eq_of_getLsbD_eq
  intro i hi
  rw [cfgSetHeader_eq, getLsbD_slice, decide_eq_true hi, Bool.true_and, Nat.zero_add]
  -- past PROFILE, bit 3, the schemes and JTW, the low half meets the 48 reserved zeros and not CMD
  have hzeros : i - 3 - 1 - 2 - 2 - 4 < 48 := by omega
  simp only [BitVec.getLsbD_append, BitVec.getLsbD_zero, hzeros, if_true]

/-! ### CFG_SET with no fault pending (R132) -/

section
variable {s : State} {p : BitVec 3} {n m : BitVec 2} {j : BitVec 4}

theorem exec_cfgSet_legal (hf : s.fault.code = 0) (hc : cfgSetFault p n m j = none) :
    exec (.cfgSet p n m j) s = .next ((s.setCfg ⟨p, n, m, j, true⟩).respond 0 []) := by
  rw [exec, execCfgSet, whenNoFault_clear s _ hf, hc]

theorem exec_cfgSet_illegal (hf : s.fault.code = 0) {c : FaultCode}
    (hc : cfgSetFault p n m j = some c) :
    exec (.cfgSet p n m j) s =
      .next (s.faulted c.bits 0 (0#20 ++ j ++ m ++ n ++ 0#1 ++ p) []) := by
  rw [exec, execCfgSet, whenNoFault_clear s _ hf, hc, cfgSetHeader_low]
  dsimp only
  rw [raise_clear s _ _ _ _ hf, BitVec.ofNat_toNat, BitVec.setWidth_eq]
  rfl

end

/-- Settles O14: with legal fields no check fails, and with an illegal one the first that fails is the
fault raised. -/
theorem cfgSetWritesAllOrNothing : Obligations.CfgSetWritesAllOrNothing := by
  intro s p n m j
  refine ⟨congrArg (· :: []) (cfgSetHeader_eq p n m j), fun hf hp hn hm hj => ?_, fun hf hbad => ?_⟩
  · exact exec_cfgSet_legal hf (by
      rw [cfgSetFault_eq, if_neg (not_not.mpr hp), if_neg (not_or.mpr ⟨hn, hm⟩),
        if_neg (not_not.mpr hj)])
  · have hfault := cfgSetFault_eq p n m j
    by_cases hp : p = 1 ∨ p = 2 ∨ p = 4
    · by_cases hs : n = 3 ∨ m = 3
      · rw [if_neg (not_not.mpr hp), if_pos hs] at hfault ⊢
        exact exec_cfgSet_illegal hf hfault
      · have hj : ¬ (j = 9 ∨ j = 10) := fun hj =>
          hbad ⟨hp, fun hn => hs (.inl hn), fun hm => hs (.inr hm), hj⟩
        rw [if_neg (not_not.mpr hp), if_neg hs] at hfault ⊢
        exact exec_cfgSet_illegal hf (hfault.trans (if_pos hj))
    · rw [if_pos hp] at hfault ⊢
      exact exec_cfgSet_illegal hf hfault

/-! ### An illegal FAULT_CLR packet (R82, R136) -/

/-- FAULT_CLR's header has no field, so any bit below CMD is reserved. -/
theorem headerIllegal_faultClr (h : Word) (hc : headerCmd h = 3) (hr : h.toNat % 2 ^ 60 ≠ 0) :
    headerIllegal h = true := by
  have hmask : h &&& reservedMask 3 ≠ 0 := fun he =>
    hr (by rw [← Nat.and_two_pow_sub_one_eq_mod]; exact congrArg BitVec.toNat he)
  rw [headerIllegal, hc, Bool.or_eq_true]
  exact .inr (bne_iff_ne.mpr hmask)

/-- A step on an illegal FAULT_CLR packet, one word long, is at step 2 of R141. -/
theorem step_illegal_faultClr (s : State) (h : Word) (rest : List Word) (hs : s.input = h :: rest)
    (hc : headerCmd h = 3) (hr : h.toNat % 2 ^ 60 ≠ 0) :
    step s = .next ((s.setInput rest).illegalHeader h) := by
  have hlen : packetLength (h :: rest) = some 1 := by
    simp only [packetLength, hc]
    rfl
  rw [step, hs, decode_illegal h rest 1 hlen (Nat.succ_pos _) (headerIllegal_faultClr h hc hr)]
  rfl

/-- Step 2 of R141 for a FAULT_CLR packet with a fault pending: only the response tells. -/
theorem illegalHeader_faultClr_pending (s : State) (h : Word) (hc : headerCmd h = 3)
    (hf : s.fault.code ≠ 0) : s.illegalHeader h = s.answered 0x01 [] := by
  rw [State.illegalHeader, if_neg (fun c => c.2.2 hc), raise_pending s _ _ _ _ hf]
  rfl

/-- Settles O20: the command by its definition, and the illegal packet by whether the latch takes its
fault. -/
theorem faultClrClearsOnlyTheFault : Obligations.FaultClrClearsOnlyTheFault := by
  refine fun s => ⟨rfl, rfl, fun h rest hs hcmd hr => ?_⟩
  have hc : headerCmd h = 3 := BitVec.eq_of_toNat_eq ((toNat_headerCmd h).trans hcmd)
  rw [step_illegal_faultClr s h rest hs hc hr]
  by_cases hf : s.fault.code = 0
  · rw [if_pos hf]
    exact congrArg _ (illegalHeader_clear (s.setInput rest) h hf)
  · rw [if_neg hf]
    exact congrArg _ (illegalHeader_faultClr_pending (s.setInput rest) h hc hf)

end Sys2Proof.Proofs
end

section
/-!
SUPPORT. The statement about oversized operands (60_exceptions.md R149): every encoder places its operands
by R77's `Place`, which masks them, and ENC_NDP_INST's LOOP test reads the opcode's low bits only (R104).
-/

namespace Sys2Proof.Proofs

open Sys2Proof.Machine Sys2Proof.Laws

/-! ### A masked operand in a word (R77) -/

/-- Masking an operand to its field's width changes nothing that is placed. -/
theorem place_and_mask (v : Word) (w lo : Nat) : place (v &&& mask w) w lo = place v w lo := by
  rw [place, place, BitVec.and_assoc, BitVec.and_self]

/-- Masking a word to a width leaves the slice of that width at offset 0. -/
theorem slice_and_mask (v : Word) (w : Nat) : slice (v &&& mask w) 0 w = slice v 0 w := by
  apply BitVec.eq_of_getLsbD_eq
  intro i hi
  rw [getLsbD_slice, getLsbD_slice, BitVec.getLsbD_and, getLsbD_mask, Nat.zero_add]
  by_cases h : i < 64
  · simp only [h, hi, decide_true, Bool.and_true]
  · rw [BitVec.getLsbD_of_ge v i (Nat.le_of_not_lt h), Bool.false_and]

/-- The encoders' loop builds the same address of operands masked to the fields' widths (R91, R93). -/
theorem encodeFields_of_masked (width : Field → Nat) (v v' : Field → Word)
    (h : ∀ f, v' f = v f &&& mask (width f)) (fs : List Field) (pos : Nat) :
    encodeFields width v' fs pos = encodeFields width v fs pos := by
  induction fs generalizing pos with
  | nil => rfl
  | cons f fs ih => rw [encodeFields, encodeFields, ih, h, place_and_mask]

/-- The operands of each field, where a tuple's words are those of another, masked. -/
theorem coords_get_of_masked (t : ProfileTable) (c c' : Coords) (h : c'.words = c.masked t)
    (f : Field) : c'.get f = c.get f &&& mask (t.width f) := by
  simp only [Coords.words, Coords.masked, List.cons.injEq] at h
  obtain ⟨hch, hpch, hra, hbg, hba, hro, hco, -⟩ := h
  cases f <;> assumption

/-- The same of a normal tuple; its absent pseudo-channel reads 0, masked or not. -/
theorem normCoords_get_of_masked (t : NormTable) (c c' : NormCoords) (h : c'.words = c.masked t)
    (f : Field) : c'.get f = c.get f &&& mask (t.width f) := by
  simp only [NormCoords.words, NormCoords.masked, List.cons.injEq] at h
  obtain ⟨hch, hra, hbg, hba, hro, hco, -⟩ := h
  cases f
  case pch => exact BitVec.zero_and.symm
  all_goals assumption

theorem encNdp_of_masked (t : ProfileTable) (sch : Scheme) (c c' : Coords)
    (h : c'.words = c.masked t) : encNdp t sch c' = encNdp t sch c :=
  encodeFields_of_masked _ _ _ (coords_get_of_masked t c c' h) _ _

theorem encNorm_of_masked (t : NormTable) (sch : Scheme) (c c' : NormCoords)
    (h : c'.words = c.masked t) : encNorm t sch c' = encNorm t sch c :=
  encodeFields_of_masked _ _ _ (normCoords_get_of_masked t c c' h) _ _

/-- ENC_NDP_INST's operands masked to their fields (R71), the jump target to `jtw` bits. -/
def maskedNdpOperands (jtw : Nat) (o : NdpOperands) : NdpOperands :=
  ⟨o.opc &&& mask 6, o.osz &&& mask 7, o.laneId &&& mask 3, o.bg &&& mask 3, o.ba &&& mask 2,
    o.loopCount &&& mask 10, o.jumpTarget &&& mask jtw⟩

theorem maskedNdpOperands_opc (jtw : Nat) (o : NdpOperands) :
    slice (maskedNdpOperands jtw o).opc 0 6 = slice o.opc 0 6 := slice_and_mask _ _

theorem maskedNdpOperands_low (jtw : Nat) (o : NdpOperands) :
    (maskedNdpOperands jtw o).low = o.low := by
  simp only [NdpOperands.low, maskedNdpOperands, slice_and_mask]

/-- Both the fields and the LOOP test (R104) read the operands' low bits only. -/
theorem encNdpWord_masked (loopOpc : BitVec 6) (jtw : Nat) (o : NdpOperands) :
    encNdpWord loopOpc jtw (maskedNdpOperands jtw o) = encNdpWord loopOpc jtw o := by
  have hopc := maskedNdpOperands_opc jtw o
  by_cases h : slice o.opc 0 6 = loopOpc
  · rw [encNdpWord_loop _ _ _ h, encNdpWord_loop _ _ _ (hopc.trans h), hopc, maskedNdpOperands_low,
      maskedNdpOperands, place_and_mask, place_and_mask]
  · rw [encNdpWord_plain _ _ _ h, encNdpWord_plain _ _ _ (hopc ▸ h), hopc, maskedNdpOperands_low]

/-- ENC_ACC_INST's operands masked to their fields (R74). -/
def maskedAccOperands (o : AccOperands) : AccOperands :=
  ⟨o.opc &&& mask 4, o.osz &&& mask 7, o.ch &&& mask 3, o.pch &&& mask 2, o.bg &&& mask 3,
    o.ba &&& mask 2, o.ro &&& mask 18, o.co &&& mask 7, o.id &&& mask 3, o.aux &&& mask 15⟩

theorem encAccWord_masked (o : AccOperands) : encAccWord (maskedAccOperands o) = encAccWord o := by
  simp only [encAccWord, maskedAccOperands, place_and_mask]

/-! ### The four encode commands in every state (R141, R149) -/

/-- The number a configuration's JTW holds is the jump-target width it selects. -/
theorem toNat_jtw_of_active (c : Cfg) (a : Active) (h : c.active = some a) : c.jtw.toNat = a.jtw := by
  obtain ⟨hc, ha⟩ | ⟨hc, ha⟩ := jtw_of_active c a h <;> rw [hc, ha] <;> rfl

/-- Two commands of one code do the same if they do the same past the checks of R141: a pending fault or
a missing configuration asks for no operand. -/
theorem whenConfigured_congr (s : State) (cmd : Nat) (body body' : Active → State → State)
    (h : ∀ a, s.cfg.active = some a → body a s = body' a s) :
    s.whenConfigured cmd body = s.whenConfigured cmd body' := by
  by_cases hf : s.fault.code = 0
  · cases ha : s.cfg.active with
    | none => rw [whenConfigured_inactive s _ _ hf ha, whenConfigured_inactive s _ _ hf ha]
    | some a =>
      rw [whenConfigured_active s _ _ a hf ha, whenConfigured_active s _ _ a hf ha]
      exact h a ha
  · rw [whenConfigured_pending s _ _ hf, whenConfigured_pending s _ _ hf]

theorem exec_encNdpAddr_of_masked (s : State) (a : Active) (ha : s.cfg.active = some a)
    (c c' : Coords) (h : c'.words = c.masked (s.profile a)) :
    exec (.encNdpAddr c) s = exec (.encNdpAddr c') s := by
  refine congrArg Host.Outcome.next (whenConfigured_congr s 0x4 _ _ fun b hb => ?_)
  obtain rfl : a = b := Option.some.inj (ha.symm.trans hb)
  rw [encNdp_of_masked _ _ _ _ h]

theorem exec_encNormAddr_of_masked (s : State) (c c' : NormCoords)
    (h : c'.words = c.masked s.tables.params.norm) :
    exec (.encNormAddr c) s = exec (.encNormAddr c') s := by
  refine congrArg Host.Outcome.next (whenConfigured_congr s 0x6 _ _ fun a _ => ?_)
  rw [encNorm_of_masked _ _ _ _ h]

theorem exec_encNdpInst_masked (s : State) (o : NdpOperands) :
    exec (.encNdpInst o) s = exec (.encNdpInst (maskedNdpOperands s.cfg.jtw.toNat o)) s := by
  refine congrArg Host.Outcome.next (whenConfigured_congr s 0x8 _ _ fun a ha => ?_)
  rw [toNat_jtw_of_active _ _ ha, encNdpWord_masked]

theorem exec_encAccInst_masked (s : State) (o : AccOperands) :
    exec (.encAccInst o) s = exec (.encAccInst (maskedAccOperands o)) s := by
  refine congrArg Host.Outcome.next (whenConfigured_congr s 0xA _ _ fun _ _ => ?_)
  rw [encAccWord_masked]

/-- Settles O34: past the checks, which ask for no operand, each encoder builds the same word of the
masked operands. -/
theorem encodersMaskSilently : Obligations.EncodersMaskSilently := fun s =>
  ⟨fun a c ha c' h => exec_encNdpAddr_of_masked s a ha c c' h,
    fun c c' h => exec_encNormAddr_of_masked s c c' h, exec_encNdpInst_masked s,
    exec_encAccInst_masked s⟩

end Sys2Proof.Proofs
end

section
/-!
SUPPORT. The statement about reset (70_reset_and_hazards.md R160, R178): the host's reset leaves each
register at its power-on value and the tables as they were, and no word in the input.
-/

namespace Sys2Proof.Proofs

open Sys2Proof.Machine Sys2Proof.Laws

/-! ### What the host's reset leaves in each register (R160) -/

section
variable (s : State)

@[simp] theorem hostReset_tables : s.hostReset.tables = s.tables := rfl
@[simp] theorem hostReset_cfg : s.hostReset.cfg = ⟨0, 0, 0, 0, false⟩ := rfl
@[simp] theorem hostReset_fault : s.hostReset.fault = ⟨0, 0, 0⟩ := rfl
@[simp] theorem hostReset_out : s.hostReset.out = [] := rfl
@[simp] theorem hostReset_packer : s.hostReset.packer = none := rfl
@[simp] theorem hostReset_input : s.hostReset.input = [] := rfl

/-- No word written before the reset stands in front of those the host writes next (R178). -/
theorem hostReset_hostWrite_input (ws : List Word) : (s.hostReset.hostWrite ws).input = ws := by
  rw [hostWrite_input, hostReset_input, List.nil_append]

end

/-- Settles O2, register by register; the input is empty after any reset, so the words written next stand
alone whether or not a packet was partly received. -/
theorem resetLeavesTheStateOfTheTable : Obligations.ResetLeavesTheStateOfTheTable :=
  ⟨fun s => ⟨hostReset_cfg s, hostReset_fault s, hostReset_out s, hostReset_packer s,
      hostReset_tables s, fun _ ws => hostReset_hostWrite_input s ws⟩,
    rfl, rfl, rfl, rfl, rfl⟩

end Sys2Proof.Proofs
end

section
/-!
SUPPORT. The statements about whole packets (30_encoding.md R78 to R81, 60_exceptions.md R158): the
decoder inverts the encoder, more words never change a packet's length, and what a step makes of a
packet that is whole and of one that is not.
-/

namespace Sys2Proof.Proofs

open Sys2Proof.Machine Sys2Proof.Laws

/-! ### An instruction and its command (R85) -/

theorem wellFormed_command (t : Tables) (i : Instr) (h : i.WellFormed) :
    (i.command t).WellFormed := by
  cases i
  case packLinear => exact h
  case packInterleaved => exact h
  all_goals exact trivial

/-- Settles O50: each named instruction's meaning is the encoding of its command's operands. -/
theorem namedInstructionIsItsCommand : Obligations.NamedInstructionIsItsCommand := by
  intro i s
  cases i <;> rfl

/-! ### The decoder on an encoded packet (R80) -/

/-- The lanes' words, split by the lists' own lengths. -/
theorem splitLists_flatten (ls : List (List Word)) :
    splitLists (ls.map List.length) ls.flatten = ls := by
  induction ls with
  | nil => rfl
  | cons l ls ih =>
    rw [List.map_cons, List.flatten_cons, splitLists, List.take_left, List.drop_left, ih]

/-- PACK_INTERLEAVED's words behind its base words, split by the counts they begin with. -/
theorem splitLists_operands (ls : List (List Word)) (h : ∀ l ∈ ls, l.length < 2 ^ 64) :
    let tail := (ls.map fun l => (BitVec.ofNat 64 l.length : Word)) ++ ls.flatten
    splitLists ((tail.take ls.length).map BitVec.toNat) (tail.drop ls.length) = ls := by
  intro tail
  have hlen : (ls.map fun l => (BitVec.ofNat 64 l.length : Word)).length = ls.length :=
    List.length_map _
  rw [List.take_left' hlen, List.drop_left' hlen, count_words ls h, splitLists_flatten]

/-- A command's operand words, parsed under its own header, are the command. -/
theorem parsePacket_encodeCommand (c : Instr) (hc : c.WellFormed) (h : Word) (ops : List Word)
    (he : encodeCommand c = h :: ops) : parsePacket h ops = some c := by
  cases c
  case cfgSet p n m j =>
    obtain ⟨rfl, rfl⟩ := List.cons.inj he
    have hcmd : headerCmd (cfgSetHeader p n m j) = 0x1 :=
      headerCmd_mkHeader _ _ (cfgSet_fields p n m j).1
    have hfields : slice (cfgSetHeader p n m j) 0 3 = p ∧ slice (cfgSetHeader p n m j) 4 2 = n ∧
        slice (cfgSetHeader p n m j) 6 2 = m ∧ slice (cfgSetHeader p n m j) 8 4 = j := by
      simp (disch := decide) only [cfgSetHeader, slice_mkHeader, slice_or, slice_place_zext,
        slice_place_apart, BitVec.or_zero, BitVec.zero_or, BitVec.ofNat_eq_ofNat, and_self]
    obtain ⟨hp, hn, hm, hj⟩ := hfields
    simp only [parsePacket, hcmd, hp, hn, hm, hj]
    rfl
  case csrRd sel =>
    obtain ⟨rfl, rfl⟩ := List.cons.inj he
    revert sel
    decide
  case packLinear b col ws =>
    obtain ⟨rfl, rfl⟩ := List.cons.inj he
    obtain ⟨hcmd, -, -⟩ := packLinear_header ws.length hc
    simp only [parsePacket, hcmd]
    rfl
  case packInterleaved b col ls =>
    obtain ⟨rfl, rfl⟩ := List.cons.inj he
    obtain ⟨hcmd, -, hnl, hcol⟩ := packInterleaved_header col ls.length hc.1
    simp only [parsePacket, hcmd, hnl, hcol]
    exact congrArg (fun lists => some (Instr.packInterleaved b col lists))
      (splitLists_operands ls hc.2)
  all_goals cases he
  all_goals rfl

/-- The decoder on a whole packet with a legal header, and the words after it. -/
theorem decode_command (h : Word) (ops rest : List Word) (c : Instr)
    (hlen : packetLength (h :: ops ++ rest) = some (h :: ops).length) (hl : headerIllegal h = false)
    (hp : parsePacket h ops = some c) : decode (h :: ops ++ rest) = .command c rest := by
  have hw : ¬ (ops ++ rest).length + 1 < ops.length + 1 := by
    rw [List.length_append]
    omega
  rw [List.cons_append, List.length_cons] at hlen
  simp only [List.cons_append, decode, hlen, hw, hl, Nat.add_sub_cancel, List.take_left,
    List.drop_left, hp, if_false, Bool.false_eq_true]

/-- Every instruction's packet has a legal header and tells its own length. -/
theorem packetHeader (i : Instr) : PacketHeader.Statement i := by
  cases i with
  | cfgSet p n m j => exact PacketHeader.cfgSet p n m j
  | csrRd sel => exact PacketHeader.csrRd sel
  | packLinear b col ws => exact PacketHeader.packLinear b col ws
  | packInterleaved b col ls => exact PacketHeader.packInterleaved b col ls
  -- the header of every other packet is a constant
  | _ => exact fun _ _ _ => ⟨rfl, rfl⟩

/-- Settles O5: the packet is its header and its operand words, its length is its own whatever
follows, and the operand words parse to the command. -/
theorem decodeInvertsEncode : Obligations.DecodeInvertsEncode := by
  intro t i rest hw
  obtain ⟨hlegal, hlen⟩ := packetHeader i t rest hw
  cases he : encode t i with
  | nil => simp [he] at hlegal
  | cons h ops =>
    rw [he] at hlegal hlen
    exact decode_command h ops rest _ hlen (Option.some.inj hlegal)
      (parsePacket_encodeCommand _ (wellFormed_command t i hw) h ops he)

/-! ### A step on what stands at the input (R158) -/

theorem step_of_command {s : State} {i : Instr} {rest : List Word}
    (h : decode s.input = .command i rest) : step s = exec i (s.setInput rest) := by
  rw [step, h]

theorem step_of_illegal {s : State} {h : Word} {rest : List Word}
    (hd : decode s.input = .illegal h rest) : step s = .next ((s.setInput rest).illegalHeader h) := by
  rw [step, hd]

theorem step_of_incomplete {s : State} (h : decode s.input = .incomplete) :
    step s = .fault .packetIncomplete := by
  rw [step, h]

theorem step_of_empty {s : State} (h : decode s.input = .empty) : step s = .fault .idle := by
  rw [step, h]

/-- Settles O3, by what the decoder finds. -/
theorem stepRunsTheDecodedCommand : Obligations.StepRunsTheDecodedCommand := fun _ =>
  ⟨fun _ _ => step_of_command, fun _ _ => step_of_illegal, step_of_incomplete, step_of_empty⟩

/-- Settles O6: the packet decodes to the instruction's command, which is the instruction. -/
theorem stepRunsTheEncodedInstruction : Obligations.StepRunsTheEncodedInstruction := by
  intro s i rest hw hs
  have hd : decode s.input = .command (i.command s.tables) rest := by
    rw [hs, decodeInvertsEncode s.tables i rest hw]
  rw [step_of_command hd]
  exact (namedInstructionIsItsCommand i (s.setInput rest)).symm

/-- Settles O4, by evaluation of the decoder on the words. -/
theorem tableWordsDecode : Obligations.TableWordsDecode := by
  unfold Obligations.TableWordsDecode
  decide

/-! ### A packet that is not whole (R158) -/

/-- A packet's length, once known, stays the same when more words arrive. -/
theorem packetLength_append (ws rest : List Word) (n : Nat) (h : packetLength ws = some n) :
    packetLength (ws ++ rest) = some n := by
  cases ws with
  | nil => exact absurd h nofun
  | cons hd ops =>
    rw [List.cons_append]
    rw [packetLength] at h ⊢
    split
    case h_10 hc => -- PACK_INTERLEAVED, whose count words stand where they stood
      simp only [hc] at h
      split at h
      · exact absurd h nofun
      · next hcounts =>
        have hnl : headerNl hd = 0 ∨ 6 + headerNl hd ≤ ops.length := by omega
        rw [if_neg (by rw [List.length_append]; omega)]
        refine Eq.trans (congrArg (fun counts : List Word =>
          some (7 + headerNl hd + (counts.map BitVec.toNat).sum)) ?_) h
        obtain hz | hge := hnl
        · rw [hz, List.take_zero, List.take_zero]
        · rw [List.drop_append_of_le_length (by omega),
            List.take_append_of_le_length (by rw [List.length_drop]; omega)]
    all_goals simp_all

theorem decode_incomplete (ws : List Word) (hne : ws ≠ [])
    (h : packetLength ws = none ∨ ∃ n, packetLength ws = some n ∧ ws.length < n) :
    decode ws = .incomplete := by
  cases ws with
  | nil => exact absurd rfl hne
  | cons hd ops =>
    rw [decode]
    obtain h | ⟨n, h, hlt⟩ := h
    · rw [h]
    · rw [h]
      exact if_pos hlt

/-- A part of a packet, but not all of it, is no whole packet. -/
theorem packetLength_of_part (ws later : List Word) (hl : later ≠ [])
    (h : packetLength (ws ++ later) = some (ws ++ later).length) :
    packetLength ws = none ∨ ∃ n, packetLength ws = some n ∧ ws.length < n := by
  cases hn : packetLength ws with
  | none => exact .inl rfl
  | some n =>
    have hlen : n = (ws ++ later).length :=
      Option.some.inj ((packetLength_append ws later n hn).symm.trans h)
    refine .inr ⟨n, rfl, ?_⟩
    rw [hlen, List.length_append]
    exact Nat.lt_add_of_pos_right (List.length_pos_of_ne_nil hl)

/-- Settles O7: a packet not whole stops the step; a part of an instruction's packet is one, since
the length its words tell, if they do, is that of the packet, and the rest makes it whole. -/
theorem stepWaitsForTheWholePacket : Obligations.StepWaitsForTheWholePacket := by
  refine ⟨fun s hne h => step_of_incomplete (decode_incomplete _ hne h),
    fun s i later hw hne hl hs => ⟨?_, ?_⟩⟩
  · obtain ⟨-, hlen⟩ := packetHeader i s.tables [] hw
    rw [List.append_nil, ← hs] at hlen
    exact step_of_incomplete (decode_incomplete _ hne (packetLength_of_part _ later hl hlen))
  · have hin : (s.hostWrite later).input = encode (s.hostWrite later).tables i ++ [] := by
      rw [hostWrite_input, hs, hostWrite_tables, List.append_nil]
    exact stepRunsTheEncodedInstruction _ i [] hw hin

end Sys2Proof.Proofs
end

section
/-!
SUPPORT. All a command can do to the state, said once for every command (`Answers`):
60_exceptions.md R141 to R144 for the checks and the faults, R147 for the sink. Proofs about every
command cite `exec_answers` and unfold no meaning.
-/

namespace Sys2Proof.Proofs

open Sys2Proof.Machine Sys2Proof.Laws

/-! ### All a command can do (R141, R143) -/

/-- What a command that emits records has done before it answers: records added at the end of OUT,
the sink asked, the packer's working state ended. -/
structure Emitted (s s' : State) : Prop where
  tables : s'.tables = s.tables
  cfg : s'.cfg = s.cfg
  fault : s'.fault = s.fault
  input : s'.input = s.input
  responses : s'.responses = s.responses
  out : ∃ rs, s'.out = s.out ++ rs
  packer : s'.packer = none ∨ s'.packer = s.packer

/-- All that a command of code `cmd`, with `nres` result words on success, can do. -/
inductive Answers (cmd nres : Nat) (s : State) : State → Prop
  /-- Step 1 of R141. -/
  | refused (hf : s.fault.code ≠ 0) (h2 : cmd ≠ 2) (h3 : cmd ≠ 3) :
      Answers cmd nres s (s.respond respRefused [])
  /-- A fault other than OUTPUT_FAILURE (R142). -/
  | faulted (c : FaultCode) (lane info : Nat) (hc : c ≠ .outputFailure)
      (hn : c = .notConfigured → s.cfg.active = none)
      (hf : s.fault.code = 0 ∨ cmd = 2 ∨ cmd = 3) : Answers cmd nres s (s.raise c lane info [])
  /-- CFG_SET with legal fields. -/
  | configured (c : Cfg) (hc : c.Legal) (hf : s.fault.code = 0) (h1 : cmd = 1) (hr : nres = 0) :
      Answers cmd nres s ((s.setCfg c).respond 0 [])
  /-- FAULT_CLR. -/
  | cleared (h3 : cmd = 3) (hr : nres = 0) : Answers cmd nres s (s.clearFault.respond 0 [])
  /-- CSR_RD and the codecs. -/
  | answered (rs : List Word) (hf : s.fault.code = 0 ∨ cmd = 2) (hr : rs.length = nres) :
      Answers cmd nres s (s.respond 0 rs)
  /-- A PACK or EMIT command whose records were all taken. -/
  | emitted (s' : State) (rs : List Word) (he : Emitted s s') (hf : s.fault.code = 0)
      (hc : 0xC ≤ cmd) (hr : rs.length = nres) : Answers cmd nres s (s'.respond 0 rs)
  /-- A PACK or EMIT command one of whose records was refused (R147). -/
  | outputFailed (s' : State) (k : Nat) (rs : List Word) (he : Emitted s s') (hf : s.fault.code = 0)
      (hc : 0xC ≤ cmd) (hr : rs.length = nres) :
      Answers cmd nres s (s'.raise .outputFailure 0 k rs)

/-- CFG_SET's checks pass legal fields only (R132). -/
theorem legal_of_cfgSetFault_eq_none {p : BitVec 3} {n m : BitVec 2} {j : BitVec 4}
    (h : cfgSetFault p n m j = none) : Cfg.Legal ⟨p, n, m, j, true⟩ := by
  rw [cfgSetFault] at h
  split_ifs at h with hp hs hj
  obtain ⟨hn, hm⟩ := not_or.mp hs
  exact .inr ⟨rfl, hp, hn, hm, hj⟩

/-- CFG_SET's checks raise its own three faults only (R132). -/
theorem cfgSetFault_eq_some {p : BitVec 3} {n m : BitVec 2} {j : BitVec 4} {c : FaultCode}
    (h : cfgSetFault p n m j = some c) :
    c = .cfgInvalidProfile ∨ c = .cfgInvalidScheme ∨ c = .cfgInvalidJtw := by
  rw [cfgSetFault] at h
  split_ifs at h
  · exact .inl (Option.some.inj h).symm
  · exact .inr (.inl (Option.some.inj h).symm)
  · exact .inr (.inr (Option.some.inj h).symm)

theorem exec_cfgSet_answers (p : BitVec 3) (n m : BitVec 2) (j : BitVec 4) (s : State) :
    ∃ t, exec (.cfgSet p n m j) s = .next t ∧ Answers 1 0 s t := by
  refine ⟨_, rfl, ?_⟩
  by_cases hf : s.fault.code = 0
  · rw [whenNoFault_clear s _ hf]
    cases hc : cfgSetFault p n m j with
    | none => exact .configured _ (legal_of_cfgSetFault_eq_none hc) hf rfl rfl
    | some c =>
      obtain rfl | rfl | rfl := cfgSetFault_eq_some hc
      all_goals exact .faulted _ _ _ (by decide) nofun (.inl hf)
  · rw [whenNoFault_pending s _ hf]
    exact .refused hf (by decide) (by decide)

theorem exec_csrRd_answers (sel : BitVec 4) (s : State) :
    ∃ t, exec (.csrRd sel) s = .next t ∧ Answers 2 1 s t := by
  cases hv : s.csrValue sel with
  | some v => exact ⟨_, exec_csrRd_value s sel v hv, .answered _ (.inr rfl) rfl⟩
  | none =>
    exact ⟨_, exec_csrRd_reserved s sel hv, .faulted _ _ _ (by decide) nofun (.inr (.inl rfl))⟩

/-! ### The emitting commands (R112, R114, R117, R125, R126) -/

/-- The sink takes the next `n` records, or refuses one of them first (R147). -/
theorem accepts_or_refuses (n : Nat) (s : State) :
    s.accepts n = true ∨
      ∃ k, k < n ∧ s.accepts k = true ∧ (s.skipAnswers k).answer = false := by
  induction n generalizing s with
  | zero => exact .inl rfl
  | succ n ih =>
    cases ha : s.answer with
    | false => exact .inr ⟨0, Nat.succ_pos n, rfl, ha⟩
    | true =>
      have hstep (m : Nat) : s.accepts (m + 1) = s.popAnswer.accepts m := by
        rw [State.accepts, ha, Bool.true_and]
      obtain h | ⟨k, hk, hacc, hans⟩ := ih s.popAnswer
      · exact .inl ((hstep n).trans h)
      · exact .inr ⟨k + 1, Nat.succ_lt_succ hk, (hstep k).trans hacc, hans⟩

/-- After some of the sink's answers, with some records appended, at the end of a PACK command. -/
theorem emitted_skipAnswers (s : State) (n : Nat) (rs : List Record) :
    Emitted s { s.skipAnswers n with out := s.out ++ rs, packer := none } :=
  ⟨skipAnswers_tables s n, skipAnswers_cfg s n, skipAnswers_fault s n, skipAnswers_input s n,
    skipAnswers_responses s n, ⟨rs, rfl⟩, .inl rfl⟩

/-- After the sink took one record. -/
theorem emitted_append (s : State) (r : Record) : Emitted s (s.popAnswer.append r) :=
  ⟨popAnswer_tables s, popAnswer_cfg s, popAnswer_fault s, popAnswer_input s, popAnswer_responses s,
    ⟨[r], by rw [append_out, popAnswer_out]⟩, .inr (popAnswer_packer s)⟩

/-- After the sink refused one record. -/
theorem emitted_popAnswer (s : State) : Emitted s s.popAnswer :=
  ⟨popAnswer_tables s, popAnswer_cfg s, popAnswer_fault s, popAnswer_input s, popAnswer_responses s,
    ⟨[], by rw [popAnswer_out, List.append_nil]⟩, .inr (popAnswer_packer s)⟩

/-- A PACK command ends its working state. -/
theorem emitted_packer_none {s s' : State} (h : Emitted s s') :
    Emitted s { s' with packer := none } :=
  { h with packer := .inl rfl }

/-- A command of one record (R125, R126). -/
theorem emitOne_answers (r : Record) (s : State) (hf : s.fault.code = 0) :
    Answers 0xF 1 s (s.emitOne r) := by
  cases ha : s.answer with
  | true =>
    rw [emitOne_accepted s r ha]
    exact .emitted _ _ (emitted_append s r) hf (by decide) rfl
  | false =>
    rw [emitOne_refused s r ha]
    exact .outputFailed _ _ _ (emitted_popAnswer s) hf (by decide) rfl

/-- A command that packs lists. -/
theorem packLists_answers (cmd nres : Nat) (at_ : Nat → BitVec 7 → Word) (tag : Nat → Option Nat)
    (results : Nat → BitVec 7 → List Word) (lists : List (List Word)) (col : BitVec 7) (s : State)
    (hc : 0xC ≤ cmd) (hf : s.fault.code = 0) (hr : ∀ k c, (results k c).length = nres) :
    Answers cmd nres s (packLists at_ tag results lists col s) := by
  obtain h | ⟨k, hk, h, ha⟩ := accepts_or_refuses (packRecords at_ tag lists col).length s
  · rw [packLists_taken at_ tag results lists col s _ rfl h, ← skipAnswers_responses s]
    exact .emitted _ _ (emitted_skipAnswers s _ _) hf hc (hr _ _)
  · have hraise : packLists at_ tag results lists col s =
        State.raise .outputFailure 0 k (results k (col + BitVec.ofNat 7 k))
          { s.skipAnswers (k + 1) with
            out := s.out ++ (packRecords at_ tag lists col).take k, packer := none } := by
      rw [packLists_refused at_ tag results lists col s k hf hk h ha,
        raise_clear _ _ _ _ _ (by rw [skipAnswers_fault, hf]), skipAnswers_responses]
      rfl
    rw [hraise]
    exact .outputFailed _ _ _ (emitted_skipAnswers s _ _) hf hc (hr _ _)

section
variable {s : State} {a : Active}

theorem exec_packLinear_answers (h : s.Ready a) (b : Base) (col : Word) (ws : List Word) :
    ∃ t, exec (.packLinear b col ws) s = .next t ∧ Answers 0xC 1 s t := by
  by_cases hw : ws.length < 1024
  · exact ⟨_, exec_packLinear_fits h b col ws hw,
      packLists_answers _ _ _ _ _ _ _ _ (by decide) h.1 fun _ _ => rfl⟩
  · exact ⟨_, exec_packLinear_over h b col ws (Nat.not_lt.mp hw),
      .faulted _ _ _ (by decide) nofun (.inl h.1)⟩

/-- The capacity check passes lists below capacity only (R111). -/
theorem length_lt_of_firstOver_eq_none (i : Nat) (ls : List (List Word)) (h : firstOver i ls = none) :
    ∀ l ∈ ls, l.length < 1024 := by
  induction ls generalizing i with
  | nil => nofun
  | cons ws ls ih =>
    rw [firstOver] at h
    split_ifs at h with hw
    exact List.forall_mem_cons.mpr ⟨Nat.not_le.mp hw, ih (i + 1) h⟩

theorem exec_packInterleaved_answers (h : s.Ready a) (b : Base) (col : BitVec 7)
    (ls : List (List Word)) :
    ∃ t, exec (.packInterleaved b col ls) s = .next t ∧ Answers 0xD 2 s t := by
  by_cases hl : ls.length = (s.profile a).lanes
  · cases hover : firstOver 0 ls with
    | none =>
      exact ⟨_, exec_packInterleaved_fits h b col ls hl (length_lt_of_firstOver_eq_none 0 ls hover),
        packLists_answers _ _ _ _ _ _ _ _ (by decide) h.1 fun _ _ => rfl⟩
    | some v =>
      exact ⟨_, exec_packInterleaved_over h b col ls hl v.1 v.2 hover,
        .faulted _ _ _ (by decide) nofun (.inl h.1)⟩
  · exact ⟨_, exec_packInterleaved_lane_count h b col ls hl,
      .faulted _ _ _ (by decide) nofun (.inl h.1)⟩

theorem exec_packStart_answers (h : s.Ready a) (c : Coords) (m : Word) :
    ∃ t, exec (.packStart c m) s = .next t ∧ Answers 0xE 1 s t := by
  by_cases hl : (s.profile a).lanes ≤ 8
  · refine ⟨_, exec_packStart_fits h c m hl, ?_⟩
    cases s.answer with
    | true =>
      have he := emitted_packer_none (emitted_append s (startRecord (s.profile a) a.ndpScheme c m))
      rw [State.append, popAnswer_out] at he
      exact .emitted _ _ he h.1 (by decide) rfl
    | false =>
      exact .outputFailed _ _ _ (emitted_packer_none (emitted_popAnswer s)) h.1 (by decide) rfl
  · exact ⟨_, exec_packStart_over h c m (Nat.not_le.mp hl),
      .faulted _ _ _ (by decide) nofun (.inl h.1)⟩

/-! ### Every command -/

/-- In a ready state a command runs its own pseudocode. -/
theorem exec_answers_of_ready (h : s.Ready a) (i : Instr) :
    ∃ t, exec i s = .next t ∧ Answers i.cmd i.resultCount s t := by
  cases i
  case cfgSet p n m j => exact exec_cfgSet_answers p n m j s
  case csrRd sel => exact exec_csrRd_answers sel s
  case faultClr => exact ⟨_, rfl, .cleared rfl rfl⟩
  case packLinear b col ws => exact exec_packLinear_answers h b col ws
  case packInterleaved b col ls => exact exec_packInterleaved_answers h b col ls
  case packStart c m => exact exec_packStart_answers h c m
  case emitLd addr => exact ⟨_, exec_emitLd h addr, emitOne_answers _ s h.1⟩
  case emitSt addr c => exact ⟨_, exec_emitSt h addr c, emitOne_answers _ s h.1⟩
  case encNdpAddr c => exact ⟨_, exec_encNdpAddr h c, .answered _ (.inl h.1) rfl⟩
  case decNdpAddr w => exact ⟨_, exec_decNdpAddr h w, .answered _ (.inl h.1) rfl⟩
  case encNormAddr c => exact ⟨_, exec_encNormAddr h c, .answered _ (.inl h.1) rfl⟩
  case decNormAddr w => exact ⟨_, exec_decNormAddr h w, .answered _ (.inl h.1) rfl⟩
  case decNdpInst w => exact ⟨_, exec_decNdpInst h w, .answered _ (.inl h.1) rfl⟩
  case decAccInst w => exact ⟨_, exec_decAccInst h w, .answered _ (.inl h.1) rfl⟩
  case encNdpInst | loadMul | scaleAdd | wbd | exit | selfExecOn | selfExecOff | vred | sred | loop =>
    exact ⟨_, exec_encNdpInst h _, .answered _ (.inl h.1) rfl⟩
  case encAccInst | rd | wr | bar | wait | loopStart | loopEnd | waitRes | done =>
    exact ⟨_, exec_encAccInst h _, .answered _ (.inl h.1) rfl⟩

end

/-- The codes 0x4 to 0xF are those of every command but the three control ones (R79). -/
theorem cmd_cases (i : Instr) :
    4 ≤ i.cmd ∨ (∃ p n m j, i = .cfgSet p n m j) ∨ (∃ sel, i = .csrRd sel) ∨ i = .faultClr := by
  cases i
  case cfgSet p n m j => exact .inr (.inl ⟨p, n, m, j, rfl⟩)
  case csrRd sel => exact .inr (.inr (.inl ⟨sel, rfl⟩))
  case faultClr => exact .inr (.inr (.inr rfl))
  all_goals exact .inl (Nat.le_of_ble_eq_true rfl)

/-- A command of codes 0x4 to 0xF meets steps 1 and 3 of R141 under its code. -/
theorem exec_eq_whenConfigured (i : Instr) (s : State) (h : 4 ≤ i.cmd) :
    ∃ body, exec i s = .next (s.whenConfigured i.cmd body) := by
  cases i
  case cfgSet => exact absurd h (by decide : ¬ 4 ≤ 1)
  case csrRd => exact absurd h (by decide : ¬ 4 ≤ 2)
  case faultClr => exact absurd h (by decide)
  all_goals exact ⟨_, rfl⟩

/-- Every command answers a next state, and does no more than `Answers` says. -/
theorem exec_answers (i : Instr) (s : State) :
    ∃ t, exec i s = .next t ∧ Answers i.cmd i.resultCount s t := by
  obtain h4 | ⟨p, n, m, j, rfl⟩ | ⟨sel, rfl⟩ | rfl := cmd_cases i
  · obtain ⟨body, hb⟩ := exec_eq_whenConfigured i s h4
    obtain ⟨hf, he⟩ | ⟨hf, ha, he⟩ | ⟨a, hf, ha, -⟩ := whenConfigured_cases s i.cmd body
    · exact ⟨_, hb.trans (congrArg _ he), .refused hf (by omega) (by omega)⟩
    · exact ⟨_, hb.trans (congrArg _ he), .faulted _ _ _ (by decide) (fun _ => ha) (.inl hf)⟩
    · exact exec_answers_of_ready ⟨hf, ha⟩ i
  · exact exec_cfgSet_answers p n m j s
  · exact exec_csrRd_answers sel s
  · exact ⟨_, rfl, .cleared rfl rfl⟩

theorem answers_of_exec {i : Instr} {s t : State} (h : exec i s = .next t) :
    Answers i.cmd i.resultCount s t := by
  obtain ⟨t', ht, ha⟩ := exec_answers i s
  obtain rfl : t' = t := Host.Outcome.next.inj (ht.symm.trans h)
  exact ha

end Sys2Proof.Proofs
end

section
/-!
SUPPORT. The statements about every command at once: what a command or a step leaves in each
register and stream, what it answers, the checks before it, and whole runs (10_state.md R22 to R31,
30_encoding.md R84, 60_exceptions.md R140 to R144, 70_reset_and_hazards.md R175, R176).
-/

namespace Sys2Proof.Proofs

open Sys2Proof.Machine Sys2Proof.Laws

/-! ### What every command leaves, and what it answers -/

section
variable (s : State) (c : FaultCode) (lane info : Nat) (rs : List Word)

@[simp] theorem raise_tables : (s.raise c lane info rs).tables = s.tables := by simp [State.raise]
@[simp] theorem raise_cfg : (s.raise c lane info rs).cfg = s.cfg := by simp [State.raise]
@[simp] theorem raise_out : (s.raise c lane info rs).out = s.out := by simp [State.raise]
@[simp] theorem raise_packer : (s.raise c lane info rs).packer = s.packer := by simp [State.raise]
@[simp] theorem raise_input : (s.raise c lane info rs).input = s.input := by simp [State.raise]
@[simp] theorem raise_responses :
    (s.raise c lane info rs).responses = s.responses ++ [⟨c.bits, rs⟩] := by simp [State.raise]

/-- The fault codes are 1 to 8 (R142). -/
theorem bits_range : 1 ≤ c.bits.toNat ∧ c.bits.toNat ≤ 8 := by cases c <;> decide

theorem bits_ne_success : c.bits ≠ 0x00 := by cases c <;> decide

theorem bits_ne_refused : c.bits ≠ 0xFF := by cases c <;> decide

theorem bits_eq_outputFailure_iff : c.bits = 0x08 ↔ c = .outputFailure := by cases c <;> decide

theorem bits_eq_notConfigured_iff : c.bits = 0x05 ↔ c = .notConfigured := by cases c <;> decide

theorem raise_fault_legal (h : s.fault.Legal) : (s.raise c lane info rs).fault.Legal := by
  by_cases hf : s.fault.code = 0
  · rw [raise_clear s _ _ _ _ hf]
    exact .inr (bits_range c)
  · rw [raise_pending s _ _ _ _ hf]
    exact h

end

section
variable {cmd nres : Nat} {s t : State}

theorem Answers.tables (h : Answers cmd nres s t) : t.tables = s.tables := by
  cases h
  case emitted he _ _ _ => exact he.tables
  case outputFailed he _ _ _ => rw [raise_tables, he.tables]
  all_goals simp

theorem Answers.input (h : Answers cmd nres s t) : t.input = s.input := by
  cases h
  case emitted he _ _ _ => exact he.input
  case outputFailed he _ _ _ => rw [raise_input, he.input]
  all_goals simp

theorem Answers.out (h : Answers cmd nres s t) : ∃ rs, t.out = s.out ++ rs := by
  cases h
  case emitted he _ _ _ => exact he.out
  case outputFailed he _ _ _ => rw [raise_out]; exact he.out
  all_goals exact ⟨[], by simp⟩

theorem Answers.packer (h : Answers cmd nres s t) (hp : s.packer = none) : t.packer = none := by
  have hnone {s' : State} (he : Emitted s s') : s'.packer = none :=
    he.packer.elim id fun e => e.trans hp
  cases h
  case emitted he _ _ _ => rw [respond_packer]; exact hnone he
  case outputFailed he _ _ _ => rw [raise_packer]; exact hnone he
  all_goals simpa using hp

/-- Only CFG_SET writes CFG, and it writes a legal configuration (R22). -/
theorem Answers.cfg (h : Answers cmd nres s t) : t.cfg = s.cfg ∨ (cmd = 1 ∧ t.cfg.Legal) := by
  cases h
  case configured hc _ _ _ => exact .inr ⟨‹_›, hc⟩
  case emitted he _ _ _ => exact .inl he.cfg
  case outputFailed he _ _ _ => exact .inl ((raise_cfg _ _ _ _ _).trans he.cfg)
  all_goals exact .inl (by simp)

theorem Answers.fault_legal (h : Answers cmd nres s t) (hl : s.fault.Legal) : t.fault.Legal := by
  cases h
  case faulted => exact raise_fault_legal _ _ _ _ _ hl
  case cleared => exact .inl rfl
  case emitted he _ _ _ => exact he.fault ▸ hl
  case outputFailed he _ _ _ => exact raise_fault_legal _ _ _ _ _ (he.fault ▸ hl)
  all_goals exact hl

/-- A pending fault stays until FAULT_CLR (R29, R143). -/
theorem Answers.fault_pending (h : Answers cmd nres s t) (hf : s.fault.code ≠ 0) (h3 : cmd ≠ 3) :
    t.fault = s.fault := by
  cases h
  case faulted => rw [raise_pending s _ _ _ _ hf, respond_fault]
  case cleared => exact absurd ‹_› h3
  case outputFailed => exact absurd ‹_› hf
  case emitted he _ _ _ => exact he.fault
  all_goals rfl

/-- A command gives one response in the format of R84, its code one of those of R142. -/
theorem Answers.response (h : Answers cmd nres s t) :
    ∃ r, t.responses = s.responses ++ [r] ∧ (r.code.toNat ≤ 8 ∨ r.code = 0xFF) ∧
      (r.code = 0x00 ∨ r.code = 0x08 → r.results.length = nres) ∧
      (r.code ≠ 0x00 → r.code ≠ 0x08 → r.results = []) := by
  cases h
  case refused =>
    exact ⟨_, rfl, .inr rfl, fun e => absurd e (by decide : ¬ (respRefused = 0 ∨ respRefused = 8)),
      fun _ _ => rfl⟩
  case faulted c _ _ hc _ _ =>
    have hcode : ¬ (c.bits = 0x00 ∨ c.bits = 0x08) :=
      not_or.mpr ⟨bits_ne_success c, mt (bits_eq_outputFailure_iff c).mp hc⟩
    exact ⟨_, raise_responses _ _ _ _ _, .inl (bits_range c).2, fun e => absurd e hcode,
      fun _ _ => rfl⟩
  case outputFailed rs he _ _ hr =>
    exact ⟨⟨8, rs⟩, by rw [raise_responses, he.responses]; rfl, .inl (Nat.le_refl 8), fun _ => hr,
      fun _ h => absurd rfl h⟩
  case emitted rs he _ _ hr =>
    exact ⟨⟨0, rs⟩, by rw [respond_responses, he.responses], .inl (Nat.zero_le 8), fun _ => hr,
      fun h => absurd rfl h⟩
  case configured hr => exact ⟨_, rfl, .inl (Nat.zero_le 8), fun _ => hr.symm, fun h => absurd rfl h⟩
  case cleared hr => exact ⟨_, rfl, .inl (Nat.zero_le 8), fun _ => hr.symm, fun h => absurd rfl h⟩
  case answered hr => exact ⟨_, rfl, .inl (Nat.zero_le 8), fun _ => hr, fun h => absurd rfl h⟩

/-- Step 1 of R141: while a fault is pending, every command but CSR_RD and FAULT_CLR is refused
(R144). -/
theorem Answers.eq_refused (h : Answers cmd nres s t) (hf : s.fault.code ≠ 0) (h2 : cmd ≠ 2)
    (h3 : cmd ≠ 3) : t = s.respond respRefused [] := by
  cases h
  case refused => rfl
  case faulted h => exact (h.elim hf (Or.elim · h2 h3)).elim
  case answered h _ => exact (h.elim hf h2).elim
  case cleared h _ => exact absurd h h3
  all_goals exact absurd ‹_› hf

/-- In a ready state a command meets neither the refusal of step 1 of R141 nor NOT_CONFIGURED. -/
theorem Answers.runs (h : Answers cmd nres s t) (hs : ∃ a, s.Ready a) :
    ∃ r, t.responses = s.responses ++ [r] ∧ r.code ≠ 0x05 ∧ r.code ≠ 0xFF := by
  obtain ⟨a, hf, ha⟩ := hs
  have hsuccess : (0x00 : BitVec 8) ≠ 0x05 ∧ (0x00 : BitVec 8) ≠ 0xFF := by decide
  cases h
  case refused hp _ _ => exact absurd hf hp
  case faulted c _ _ _ hn _ =>
    refine ⟨_, raise_responses _ _ _ _ _, fun e => ?_, bits_ne_refused c⟩
    exact absurd ((hn ((bits_eq_notConfigured_iff c).mp e)).symm.trans ha) nofun
  case emitted rs he _ _ _ => exact ⟨⟨0, rs⟩, by rw [respond_responses, he.responses], hsuccess⟩
  case outputFailed he _ _ _ =>
    exact ⟨_, by rw [raise_responses, he.responses],
      mt (bits_eq_notConfigured_iff .outputFailure).mp (by decide), bits_ne_refused .outputFailure⟩
  all_goals exact ⟨⟨0, _⟩, rfl, hsuccess⟩

end

/-- No command has more than ten result words (R80). -/
theorem resultCount_le (i : Instr) : i.resultCount ≤ 10 := by
  cases i <;> exact Nat.le_of_ble_eq_true rfl

/-! ### Steps -/

/-- An illegal packet is refused or raises ILLEGAL_COMMAND (R141), which is what a command may do
too. -/
theorem illegalHeader_answers (s : State) (h : Word) :
    Answers (headerCmd h).toNat 0 s (s.illegalHeader h) := by
  rw [State.illegalHeader]
  split_ifs with hp
  · obtain ⟨hf, h2, h3⟩ := hp
    exact .refused hf (by bv_omega) (by bv_omega)
  · refine .faulted _ _ _ (by decide) nofun ?_
    by_contra hno
    obtain ⟨hf, hcmd⟩ := not_or.mp hno
    exact hp ⟨hf, by bv_omega, by bv_omega⟩

/-- A step that leads on consumes a packet's words and does no more than a command may. -/
theorem step_answers {s t : State} (h : step s = .next t) :
    ∃ rest cmd nres, nres ≤ 10 ∧ Answers cmd nres (s.setInput rest) t := by
  cases hd : decode s.input with
  | empty => exact absurd ((step_of_empty hd).symm.trans h) nofun
  | incomplete => exact absurd ((step_of_incomplete hd).symm.trans h) nofun
  | illegal hdr rest =>
    obtain rfl := Host.Outcome.next.inj ((step_of_illegal hd).symm.trans h)
    exact ⟨rest, _, 0, by decide, illegalHeader_answers _ hdr⟩
  | command i rest =>
    exact ⟨rest, _, _, resultCount_le i, answers_of_exec ((step_of_command hd).symm.trans h)⟩

/-- Settles O48: each register by its own lemma on what a command can do. -/
theorem stepKeepsTheInvariant : Obligations.StepKeepsTheInvariant := by
  rintro s t ⟨hcfg, hfault, hpacker, hresp⟩ hstep
  obtain ⟨rest, cmd, nres, hn, ha⟩ := step_answers hstep
  obtain ⟨r, hr, hcode, hlen, hnone⟩ := ha.response
  have hr_legal : r.Legal := by
    refine ⟨hcode, ?_⟩
    by_cases hc : r.code = 0x00 ∨ r.code = 0x08
    · exact (hlen hc).le.trans hn
    · rw [hnone (fun e => hc (.inl e)) fun e => hc (.inr e)]
      exact Nat.zero_le _
  refine ⟨?_, ha.fault_legal hfault, ha.packer hpacker, ?_⟩
  · obtain he | ⟨-, hl⟩ := ha.cfg
    · rw [he]
      exact hcfg
    · exact hl
  · rw [hr]
    exact List.forall_mem_append.mpr ⟨hresp, List.forall_mem_singleton.mpr hr_legal⟩

/-- Settles O51: a step's response, records and tables are those of what it runs. -/
theorem stepAnswersOnceAndOnlyAppends : Obligations.StepAnswersOnceAndOnlyAppends := by
  intro s t hstep
  obtain ⟨rest, cmd, nres, -, ha⟩ := step_answers hstep
  obtain ⟨r, hr, -⟩ := ha.response
  exact ⟨⟨r, hr⟩, ha.out, ha.tables⟩

/-- Settles O49: reset clears every register, and a host act writes none but by reset. -/
theorem resetAndHostActsMeetTheInvariant : Obligations.ResetAndHostActsMeetTheInvariant := by
  refine ⟨⟨.inl rfl, .inl rfl, rfl, nofun⟩, fun s h hs => ?_⟩
  cases h with
  | reset => exact ⟨.inl rfl, .inl rfl, rfl, nofun⟩
  | write ws => exact hs
  | decideSink bs => exact hs

/-! ### The frames of the commands -/

theorem cmd_eq_one {i : Instr} (h : i.cmd = 1) : ∃ p n m j, i = .cfgSet p n m j := by
  obtain h4 | hi | ⟨sel, rfl⟩ | rfl := cmd_cases i
  · omega
  · exact hi
  · exact absurd h (by decide : ¬ 2 = 1)
  · exact absurd h (by decide)

theorem cmd_eq_two {i : Instr} (h : i.cmd = 2) : ∃ sel, i = .csrRd sel := by
  obtain h4 | ⟨p, n, m, j, rfl⟩ | hi | rfl := cmd_cases i
  · omega
  · exact absurd h (by decide : ¬ 1 = 2)
  · exact hi
  · exact absurd h (by decide)

theorem cmd_eq_three {i : Instr} (h : i.cmd = 3) : i = .faultClr := by
  obtain h4 | ⟨p, n, m, j, rfl⟩ | ⟨sel, rfl⟩ | hi := cmd_cases i
  · omega
  · exact absurd h (by decide : ¬ 1 = 3)
  · exact absurd h (by decide : ¬ 2 = 3)
  · exact hi

/-- Settles O52: of all a command can do, only code 1 writes CFG and only code 3 a pending FAULT. -/
theorem registersHaveOneWriter : Obligations.RegistersHaveOneWriter := by
  intro s t i hexec
  have ha := answers_of_exec hexec
  refine ⟨fun hi => ?_, fun hf hi => ha.fault_pending hf (mt cmd_eq_three hi)⟩
  obtain he | ⟨h1, -⟩ := ha.cfg
  · exact he
  · obtain ⟨p, n, m, j, rfl⟩ := cmd_eq_one h1
    exact absurd rfl (hi p n m j)

/-- Settles O53: of all a command can do, a codec's or CSR_RD's may be refused, fault or answer. -/
theorem codecCommandsAppendNothing : Obligations.CodecCommandsAppendNothing := by
  intro s t i hexec hC h1 h3
  cases answers_of_exec hexec
  case refused => exact ⟨s.fault, _, rfl, fun _ => rfl⟩
  case answered => exact ⟨s.fault, _, rfl, fun _ => rfl⟩
  case faulted c lane info _ _ _ =>
    by_cases hf : s.fault.code = 0
    · exact ⟨_, _, raise_clear s _ _ _ _ hf, fun e => (e.elim (bits_ne_success c) (absurd hf)).elim⟩
    · exact ⟨s.fault, _, raise_pending s _ _ _ _ hf, fun _ => rfl⟩
  case configured => exact absurd ‹_› h1
  case cleared => exact absurd ‹_› h3
  case emitted => omega
  case outputFailed => omega

theorem last_response {s t : State} {r r' : Response} (h : t.responses = s.responses ++ [r])
    (h' : t.responses = s.responses ++ [r']) : r = r' :=
  List.singleton_inj.mp (List.append_cancel_left (h.symm.trans h'))

/-- Raising writes FAULT and the responses only (R143). -/
theorem raise_eq (s : State) (c : FaultCode) (lane info : Nat) (rs : List Word) :
    s.raise c lane info rs = { s with
      fault := (s.raise c lane info rs).fault, responses := (s.raise c lane info rs).responses } := by
  by_cases hf : s.fault.code = 0
  · rw [raise_clear s _ _ _ _ hf]
  · rw [raise_pending s _ _ _ _ hf]
    rfl

/-- Settles O54: of all a command can do, only a refusal and a fault other than OUTPUT_FAILURE
answer such a code. -/
theorem faultsArePrecise : Obligations.FaultsArePrecise := by
  intro s t i r hexec hr h0 h8
  cases answers_of_exec hexec
  case refused hf _ _ =>
    obtain rfl := last_response hr rfl
    exact ⟨rfl, rfl, fun h => absurd h hf⟩
  case faulted c lane info _ _ _ =>
    obtain rfl := last_response hr (raise_responses s c lane info [])
    refine ⟨rfl, raise_eq _ _ _ _ _, fun hf => ?_⟩
    rw [raise_clear s _ _ _ _ hf]
  case emitted he _ _ _ =>
    obtain rfl := last_response hr (by rw [respond_responses, he.responses])
    exact absurd rfl h0
  case outputFailed he _ _ _ =>
    obtain rfl := last_response hr (by rw [raise_responses, he.responses])
    exact absurd rfl h8
  all_goals
    obtain rfl := last_response hr rfl
    exact absurd rfl h0

/-- Settles O55: the frame of `Answers`, CFG_SET's case being of another code. -/
theorem emittingCommandsKeepTheRest : Obligations.EmittingCommandsKeepTheRest := by
  intro s t i hexec hC hp
  have ha := answers_of_exec hexec
  refine ⟨?_, ha.packer hp, ha.input, ha.tables⟩
  obtain he | ⟨h1, -⟩ := ha.cfg
  · exact he
  · omega

/-! ### The checks before a command (R141) -/

/-- Settles O10: step 1 of R141 refuses, and no command but FAULT_CLR writes a pending FAULT. -/
theorem pendingFaultRefusesEveryOtherCommand : Obligations.PendingFaultRefusesEveryOtherCommand := by
  intro s i hf hi
  have hrefused (hcsr : ∀ sel, i ≠ .csrRd sel) (s : State) (hf : s.fault.code ≠ 0) :
      exec i s = .next (s.answered 0xFF []) := by
    obtain ⟨t, ht, ha⟩ := exec_answers i s
    rw [ht, ha.eq_refused hf (fun e => (cmd_eq_two e).elim hcsr) (mt cmd_eq_three hi)]
    rfl
  refine ⟨fun hcsr => ⟨hrefused hcsr s hf, fun rest hw hs => ?_⟩, ?_⟩
  · rw [stepRunsTheEncodedInstruction s i rest hw hs]
    exact hrefused hcsr _ hf
  · obtain ⟨t, ht, ha⟩ := exec_answers i s
    exact ⟨t, ht, ha.fault_pending hf (mt cmd_eq_three hi)⟩

/-- Settles O11: step 1 of R141 comes before step 2, and the latch keeps the fault it holds. -/
theorem pendingFaultAndIllegalPackets : Obligations.PendingFaultAndIllegalPackets := by
  intro s h rest hd hf
  have hcmd : (h.toNat / 2 ^ 60 = 2 ∨ h.toNat / 2 ^ 60 = 3) ↔
      (headerCmd h = 2 ∨ headerCmd h = 3) := by
    rw [← toNat_headerCmd]
    bv_omega
  rw [step_of_illegal hd, State.illegalHeader]
  simp only [hcmd]
  by_cases hc : headerCmd h = 2 ∨ headerCmd h = 3
  · rw [if_pos hc, if_neg fun ⟨_, h2, h3⟩ => hc.elim h2 h3]
    exact congrArg _ (raise_pending (s.setInput rest) _ _ _ _ hf)
  · rw [if_neg hc, if_pos ⟨hf, not_or.mp hc⟩]
    rfl

theorem active_of_invalid {c : Cfg} (h : c.valid = false) : c.active = none := by
  rw [Cfg.active, h]
  rfl

/-- Settles O12: the command meets step 3 of R141 under its own code. -/
theorem unconfiguredCommandFaults : Obligations.UnconfiguredCommandFaults := by
  intro s i hf hv h4
  obtain ⟨body, hb⟩ := exec_eq_whenConfigured i s h4
  rw [hb, whenConfigured_inactive s _ _ hf (active_of_invalid hv), raise_clear s _ _ _ _ hf]
  rfl

/-! ### Responses (R84) -/

theorem place_zext {w : Nat} (v : BitVec w) (lo : Nat) : place (zext v) w lo = zext v <<< lo := by
  rw [place, zext_and_mask]

/-- A leading field of zeros adds nothing to the OR. -/
theorem zext_zero_shiftLeft_or (x : Word) (w lo : Nat) : zext 0#w <<< lo ||| x = x := by
  rw [BitVec.or_comm, or_zext_zero_shiftLeft]

/-- A response's header, `RESP_CODE` below the count of its result words. -/
theorem response_header_eq (r : Response) :
    r.header = 0#48 ++ BitVec.ofNat 8 r.results.length ++ r.code := by
  rw [← zext_shiftLeft_zero (0#48 ++ BitVec.ofNat 8 r.results.length ++ r.code)]
  repeat rw [zext_append_shiftLeft]
  rw [zext_zero_shiftLeft_or, Response.header, place_zext, place_eq_slice_shiftLeft,
    slice_ofNat_low _ 8 (by decide), BitVec.or_comm]

/-- An illegal packet's response (R141 steps 1 and 2). -/
theorem illegalHeader_response (s : State) (h : Word) :
    ∃ r, (s.illegalHeader h).responses = s.responses ++ [r] ∧ (r.code = 0x01 ∨ r.code = 0xFF) ∧
      r.results = [] := by
  rw [State.illegalHeader]
  split_ifs
  · exact ⟨_, rfl, .inr rfl, rfl⟩
  · exact ⟨_, raise_responses _ _ _ _ _, .inl rfl, rfl⟩

/-- Settles O57: the header's fields, and the one response of every command and every illegal
packet. -/
theorem responsesFollowTheFormat : Obligations.ResponsesFollowTheFormat := by
  refine ⟨fun r _ => congrArg (· :: r.results) (response_header_eq r), fun s i => ?_,
    fun s h rest hd => ?_⟩
  · obtain ⟨t, ht, ha⟩ := exec_answers i s
    obtain ⟨r, hr⟩ := ha.response
    exact ⟨t, r, ht, hr⟩
  · obtain ⟨r, hr⟩ := illegalHeader_response (s.setInput rest) h
    exact ⟨_, r, step_of_illegal hd, hr⟩

/-! ### Runs (R175, R176) -/

theorem runOut_next {s t : State} (n : Nat) (h : step s = .next t) :
    s.runOut (n + 1) = t.runOut n := by
  rw [State.runOut, h]

theorem runOut_over {s : State} (n : Nat) (h : s.Over) : s.runOut n = s := by
  cases n with
  | zero => rfl
  | succ n => rw [State.runOut, step_of_empty h]

/-- Whole packets are all taken, each by one step. -/
theorem over_runOut_of_wholePackets (n : Nat) (s : State) (h : wholePackets n s.input = true) :
    (s.runOut n).Over := by
  induction n generalizing s with
  | zero =>
    show decode s.input = .empty
    rw [List.isEmpty_iff.mp h]
    rfl
  | succ n ih =>
    rw [wholePackets] at h
    cases hd : decode s.input with
    | empty =>
      rw [runOut_over _ hd]
      exact hd
    | incomplete => simp [hd] at h
    | illegal hdr rest =>
      rw [runOut_next n (step_of_illegal hd)]
      refine ih _ ?_
      rw [(illegalHeader_answers _ hdr).input]
      simpa [hd] using h
    | command i rest =>
      obtain ⟨t, ht, ha⟩ := exec_answers i (s.setInput rest)
      rw [runOut_next n ((step_of_command hd).trans ht)]
      refine ih _ ?_
      rw [ha.input]
      simpa [hd] using h

/-- Settles O58: a clean entry is a ready state, and its input is whole packets. -/
theorem cleanEntryRunsToItsEnd : Obligations.CleanEntryRunsToItsEnd := by
  rintro s a taken ⟨-, ha, hf, -, hwhole⟩
  refine ⟨fun i _ => ?_, over_runOut_of_wholePackets _ s hwhole⟩
  obtain ⟨t, ht, hans⟩ := exec_answers i s
  obtain ⟨r, hr⟩ := hans.runs ⟨a, hf, ha⟩
  exact ⟨t, r, ht, hr⟩

/-- The packets of well-formed instructions are taken one a step, each answered once. -/
theorem runOut_packets (is : List Instr) (n : Nat) (s : State) (hn : is.length ≤ n)
    (hw : ∀ i ∈ is, i.WellFormed) (hs : s.input = (is.map (encode s.tables)).flatten) :
    (s.runOut n).input = [] ∧ (s.runOut n).responses.length = s.responses.length + is.length := by
  induction is generalizing n s with
  | nil =>
    have hover : s.Over := congrArg decode hs
    rw [runOut_over n hover]
    exact ⟨hs, rfl⟩
  | cons i is ih =>
    obtain ⟨hwi, hw⟩ := List.forall_mem_cons.mp hw
    obtain ⟨n, rfl⟩ := Nat.exists_eq_add_one.mpr (Nat.lt_of_lt_of_le (Nat.succ_pos _) hn)
    obtain ⟨t, ht, ha⟩ := exec_answers i { s with input := (is.map (encode s.tables)).flatten }
    obtain ⟨r, (hr : t.responses = s.responses ++ [r]), -⟩ := ha.response
    have hstep := stepRunsTheEncodedInstruction s i _ hwi hs
    obtain ⟨hinput, hlen⟩ := ih n t (Nat.le_of_succ_le_succ hn) hw (by rw [ha.input, ha.tables])
    rw [runOut_next n (hstep.trans ht)]
    refine ⟨hinput, ?_⟩
    rw [hlen, hr, List.length_append, List.length_singleton, List.length_cons]
    omega

/-- Every packet has at least its header. -/
theorem encode_ne_nil (t : Tables) (i : Instr) : encode t i ≠ [] := by
  cases i <;> exact List.cons_ne_nil _ _

/-- There are at least as many words as packets. -/
theorem length_le_length_packets (t : Tables) (is : List Instr) :
    is.length ≤ (is.map (encode t)).flatten.length := by
  rw [← List.length_map (encode t), List.length_flatten]
  refine (List.length_map List.length).symm.le.trans (List.length_le_sum_of_one_le _ fun n hn => ?_)
  obtain ⟨p, hp, rfl⟩ := List.mem_map.mp hn
  obtain ⟨i, -, rfl⟩ := List.mem_map.mp hp
  exact List.length_pos_of_ne_nil (encode_ne_nil t i)

/-- Settles O56: after reset the input is the packets alone, and there are steps enough for them. -/
theorem runAnswersEveryPacket : Obligations.RunAnswersEveryPacket := by
  intro s is hw
  have hin := hostReset_hostWrite_input s (is.map (encode s.tables)).flatten
  obtain ⟨hinput, hlen⟩ := runOut_packets is _ _ (length_le_length_packets s.tables is) hw hin
  refine ⟨congrArg decode hinput, hinput, hlen.trans (Nat.zero_add _)⟩

end Sys2Proof.Proofs
end

section
/-!
SUPPORT. The statements about the parameters, the configuration and what CSR_RD reads of them
(00_scope.md R9, R10; 10_state.md R22 to R28; 44_control.md R134, R135).
-/

namespace Sys2Proof.Proofs

open Sys2Proof.Machine Sys2Proof.Laws

/-! ### Well-formed parameters (R9, R10) -/

theorem countOk_iff (n : Nat) : countOk n = true ↔ ∃ k, k ≤ 63 ∧ n = 2 ^ k := by
  rw [countOk, Bool.and_eq_true, beq_iff_eq, decide_eq_true_iff]
  constructor
  · rintro ⟨hpow, hlt⟩
    refine ⟨Nat.log2 n, ?_, hpow⟩
    rw [hpow] at hlt
    exact Nat.le_of_lt_succ ((Nat.pow_lt_pow_iff_right (by decide)).mp hlt)
  · rintro ⟨k, hk, rfl⟩
    rw [Nat.log2_two_pow]
    exact ⟨rfl, Nat.pow_lt_pow_right (by decide) (Nat.lt_succ_of_le hk)⟩

theorem ndpFields_sum (t : ProfileTable) : t.g + (ndpFields.map t.width).sum = ndpTop t := by
  simp only [ndpFields, ndpTop, List.map_cons, List.map_nil, List.sum_cons, List.sum_nil,
    Nat.add_zero, Nat.add_assoc]

theorem normFields_sum (t : NormTable) : t.gn + (normFields.map t.width).sum = normTop t := by
  simp only [normFields, normTop, List.map_cons, List.map_nil, List.sum_cons, List.sum_nil,
    Nat.add_zero, Nat.add_assoc]

theorem mem_ndpFields (f : Field) : f ∈ ndpFields := by cases f <;> decide

theorem mem_regions (r : Region) : r ∈ regions := by cases r <;> decide

theorem profileTable_wellFormed_iff (t : ProfileTable) : t.wellFormed = true ↔
    (∀ f, ∃ k, k ≤ 63 ∧ t.count f = 2 ^ k) ∧ t.g ≤ 63 ∧ ndpTop t ≤ 64 ∧ 1 ≤ t.nDm ∧ t.nDm ≤ 4 ∧
      ∀ r, (t.region r).bg < t.nBg ∧ (t.region r).ba < t.nBa := by
  simp only [ProfileTable.wellFormed, Bool.and_eq_true, List.all_eq_true, decide_eq_true_iff,
    countOk_iff, ndpFields_sum, mem_ndpFields, mem_regions, forall_const, and_assoc]

/-- The normal space has no pseudo-channel, whose count of 1 is a power of two. -/
theorem normTable_wellFormed_iff (t : NormTable) : t.wellFormed = true ↔
    (∀ f, ∃ k, k ≤ 63 ∧ t.count f = 2 ^ k) ∧ normTop t ≤ 64 := by
  have hfields : (∀ f ∈ normFields, ∃ k, k ≤ 63 ∧ t.count f = 2 ^ k) ↔
      ∀ f, ∃ k, k ≤ 63 ∧ t.count f = 2 ^ k := by
    refine ⟨fun h f => ?_, fun h f _ => h f⟩
    cases f
    case pch => exact ⟨0, by decide, rfl⟩
    all_goals exact h _ (by decide)
  simp only [NormTable.wellFormed, Bool.and_eq_true, List.all_eq_true, decide_eq_true_iff,
    countOk_iff, normFields_sum, hfields]

theorem forall_profile_iff (P : Profile → Prop) : (∀ p, P p) ↔ P .x4 ∧ P .x8 ∧ P .x16 :=
  ⟨fun h => ⟨h _, h _, h _⟩, fun ⟨h1, h2, h4⟩ p => by cases p <;> assumption⟩

/-- Settles O1: the two sides are the same conditions, table by table. -/
theorem parameterSetRefusedUnlessWellFormed : Obligations.ParameterSetRefusedUnlessWellFormed := by
  intro q
  have hsome : (Tables.ofParams q).isSome = true ↔ q.wellFormed = true := by
    rw [Tables.ofParams]
    split_ifs with h
    · exact iff_of_true rfl h
    · exact iff_of_false nofun h
  rw [hsome, forall_profile_iff]
  simp only [Params.wellFormed, Bool.and_eq_true, decide_eq_true_iff, profileTable_wellFormed_iff,
    normTable_wellFormed_iff, and_assoc]
  rfl

/-! ### What the configuration selects (R22 to R26) -/

/-- The code of a profile (R22). -/
def profileCode : Profile → BitVec 3
  | .x4 => 1
  | .x8 => 2
  | .x16 => 4

theorem profileOf_eq_some_iff (code : BitVec 3) (p : Profile) :
    profileOf code = some p ↔ code = profileCode p := by
  cases p <;> revert code <;> decide

theorem jtwOf_eq_some_iff (code : BitVec 4) (j : Nat) :
    jtwOf code = some j ↔ (j = 9 ∨ j = 10) ∧ code.toNat = j := by
  constructor
  · intro h
    obtain ⟨rfl, rfl⟩ | ⟨rfl, rfl⟩ := jtwOf_eq_some code j h <;> decide
  · rintro ⟨rfl | rfl, h⟩
    · rw [BitVec.eq_of_toNat_eq (y := 9#4) h]
      rfl
    · rw [BitVec.eq_of_toNat_eq (y := 10#4) h]
      rfl

/-- A configuration selects exactly what its codes stand for, if each is legal (R22, R23). -/
theorem active_eq_some_iff (c : Cfg) (a : Active) : c.active = some a ↔
    c.valid = true ∧ profileOf c.profile = some a.profile ∧ schemeOf c.ndpScheme = some a.ndpScheme ∧
      schemeOf c.normScheme = some a.normScheme ∧ jtwOf c.jtw = some a.jtw := by
  obtain ⟨p, n, m, j⟩ := a
  rw [Cfg.active]
  split_ifs with hv
  · split
    · next hp hn hm hj =>
      simp only [hv, hp, hn, hm, hj, Option.some.injEq, Active.mk.injEq, true_and]
    · next hno =>
      refine iff_of_false nofun fun ⟨_, hp, hn, hm, hj⟩ => hno _ _ _ _ hp hn hm hj
  · exact iff_of_false nofun fun h => hv h.1

/-- A power of two is that of its logarithm (R25). -/
theorem eq_two_pow_log2 {n : Nat} (h : ∃ k, k ≤ 63 ∧ n = 2 ^ k) : n = 2 ^ Nat.log2 n := by
  obtain ⟨k, -, rfl⟩ := h
  rw [Nat.log2_two_pow]

/-- The conditions of R10 hold of the tables' parameters. -/
theorem tables_wellFormed (t : Tables) :
    (∀ p, (t.profile p).wellFormed = true) ∧ t.params.norm.wellFormed = true ∧
      t.params.ndpOpc.toList.Nodup ∧ t.params.accOpc.toList.Nodup := by
  have hok := t.ok
  simp only [Params.wellFormed, Bool.and_eq_true, decide_eq_true_iff, and_assoc] at hok
  obtain ⟨h1, h2, h4, hnorm, hndp, hacc⟩ := hok
  exact ⟨(forall_profile_iff _).mpr ⟨h1, h2, h4⟩, hnorm, hndp, hacc⟩

/-- Settles O13: each code by what it stands for; the counts are powers of two in every well-formed
set. -/
theorem configurationSelectsTheTables : Obligations.ConfigurationSelectsTheTables := by
  intro s a
  obtain ⟨hprofile, hnorm, -⟩ := tables_wellFormed s.tables
  obtain ⟨hcounts, -⟩ := (profileTable_wellFormed_iff _).mp (hprofile a.profile)
  obtain ⟨hnormCounts, -⟩ := (normTable_wellFormed_iff _).mp hnorm
  refine ⟨?_, ?_, fun f => eq_two_pow_log2 (hcounts f), fun f => eq_two_pow_log2 (hnormCounts f)⟩
  · rw [active_eq_some_iff, profileOf_eq_some_iff, schemeOf_eq_some_iff, schemeOf_eq_some_iff,
      jtwOf_eq_some_iff]
    rfl
  · rw [State.profile, Tables.profile]
    cases a.profile <;> rfl

/-! ### What CSR_RD reads (R135) -/

/-- With commutativity and associativity, the order of the fields in an OR does not matter. -/
theorem word_or_left_comm (x y z : Word) : x ||| (y ||| z) = y ||| (x ||| z) := by
  rw [← BitVec.or_assoc, BitVec.or_comm x, BitVec.or_assoc]

theorem place_bit (b : Bool) (lo : Nat) : place (bit b) 1 lo = zext (BitVec.ofBool b) <<< lo := by
  rw [← place_zext]
  cases b <;> rfl

theorem csrField_eq (n w lo : Nat) (h : w ≤ 64) :
    csrField n w lo = zext (BitVec.ofNat w n) <<< lo := by
  rw [csrField, place_eq_slice_shiftLeft, slice_ofNat_low n w h]

/-- STATUS, field by field from bit 63 down. -/
theorem statusValue_eq (s : State) : statusValue s =
    s.fault.info ++ 0#8 ++ s.fault.lane ++ 0#7 ++ BitVec.ofBool s.cfg.valid ++ s.fault.code := by
  rw [← zext_shiftLeft_zero (_ ++ s.fault.code)]
  repeat rw [zext_append_shiftLeft]
  simp only [statusValue, place_zext, place_bit, or_zext_zero_shiftLeft, Nat.reduceAdd]
  simp only [BitVec.or_comm, BitVec.or_assoc, word_or_left_comm]

/-- CONFIG, field by field from bit 63 down. -/
theorem configValue_eq (c : Cfg) : configValue c =
    0#51 ++ BitVec.ofBool c.valid ++ c.jtw ++ c.normScheme ++ c.ndpScheme ++ 0#1 ++ c.profile := by
  rw [← zext_shiftLeft_zero (_ ++ c.profile)]
  repeat rw [zext_append_shiftLeft]
  simp only [configValue, place_zext, place_bit, or_zext_zero_shiftLeft, zext_zero_shiftLeft_or,
    Nat.reduceAdd]
  simp only [BitVec.or_comm, BitVec.or_assoc, word_or_left_comm]

theorem ndpWidthsValue_eq (t : ProfileTable) : ndpWidthsValue t =
    0#16 ++ BitVec.ofNat 6 (t.width .co) ++ BitVec.ofNat 6 (t.width .ro) ++
      BitVec.ofNat 6 (t.width .ba) ++ BitVec.ofNat 6 (t.width .bg) ++ BitVec.ofNat 6 (t.width .ra) ++
      BitVec.ofNat 6 (t.width .pch) ++ BitVec.ofNat 6 (t.width .ch) ++ BitVec.ofNat 6 t.g := by
  rw [← zext_shiftLeft_zero (_ ++ BitVec.ofNat 6 t.g)]
  repeat rw [zext_append_shiftLeft]
  simp (disch := decide) only [ndpWidthsValue, csrField_eq, zext_zero_shiftLeft_or, Nat.reduceAdd]
  simp only [BitVec.or_comm, BitVec.or_assoc, word_or_left_comm]

theorem normWidthsValue_eq (t : NormTable) : normWidthsValue t =
    0#22 ++ BitVec.ofNat 6 (t.width .co) ++ BitVec.ofNat 6 (t.width .ro) ++
      BitVec.ofNat 6 (t.width .ba) ++ BitVec.ofNat 6 (t.width .bg) ++ BitVec.ofNat 6 (t.width .ra) ++
      BitVec.ofNat 6 (t.width .ch) ++ BitVec.ofNat 6 t.gn := by
  rw [← zext_shiftLeft_zero (_ ++ BitVec.ofNat 6 t.gn)]
  repeat rw [zext_append_shiftLeft]
  simp (disch := decide) only [normWidthsValue, csrField_eq, zext_zero_shiftLeft_or, Nat.reduceAdd]
  simp only [BitVec.or_comm, BitVec.or_assoc, word_or_left_comm]

theorem lanesValue_eq (t : ProfileTable) :
    lanesValue t = 0#40 ++ BitVec.ofNat 8 t.nDm ++ BitVec.ofNat 16 (t.nCh * t.nPch) := by
  rw [← zext_shiftLeft_zero (_ ++ BitVec.ofNat 16 _)]
  repeat rw [zext_append_shiftLeft]
  simp (disch := decide) only [lanesValue, ProfileTable.lanes, csrField_eq, zext_zero_shiftLeft_or,
    Nat.reduceAdd]
  exact BitVec.or_comm _ _

theorem regionValue_eq (t : ProfileTable) (r : Region) : regionValue t r =
    if t.present r then
      0#47 ++ 1#1 ++ BitVec.ofNat 8 (t.region r).ba ++ BitVec.ofNat 8 (t.region r).bg
    else 0 := by
  have hfields : csrField (t.region r).bg 8 0 ||| csrField (t.region r).ba 8 8 ||| csrField 1 1 16 =
      0#47 ++ 1#1 ++ BitVec.ofNat 8 (t.region r).ba ++ BitVec.ofNat 8 (t.region r).bg := by
    rw [← zext_shiftLeft_zero (_ ++ BitVec.ofNat 8 (t.region r).bg)]
    repeat rw [zext_append_shiftLeft]
    simp (disch := decide) only [csrField_eq, zext_zero_shiftLeft_or, Nat.reduceAdd]
    simp only [BitVec.or_comm, word_or_left_comm]
  rw [regionValue, hfields]

theorem ofProfile_active {s : State} {a : Active} (h : s.cfg.active = some a)
    (f : ProfileTable → Word) : s.ofProfile f = f (s.profile a) := by
  rw [State.ofProfile, h]

/-- The selectors from 4 on are the regions in order. -/
theorem csrValue_region (s : State) (r : Nat) (g : Region) (h : regions[r]? = some g) :
    s.csrValue (BitVec.ofNat 4 (r + 4)) = some (s.ofProfile (regionValue · g)) := by
  have hr : r < 8 := (List.getElem?_eq_some_iff.mp h).1
  interval_cases r <;> cases h <;> rfl

/-- A region is present where its number is below that of the first absent data memory (R27). -/
theorem present_iff (t : ProfileTable) (r : Nat) (g : Region) (h : regions[r]? = some g) :
    t.present g = true ↔ r < 4 + t.nDm := by
  have hr : r < 8 := (List.getElem?_eq_some_iff.mp h).1
  interval_cases r <;> cases h <;> simp [ProfileTable.present] <;> omega

/-- Settles O15: the two selectors' values, as concatenations of their fields. -/
theorem csrRdReadsStatusAndConfig : Obligations.CsrRdReadsStatusAndConfig := fun s =>
  ⟨statusValue_eq s ▸ exec_csrRd_value s 0 _ rfl, configValue_eq s.cfg ▸ exec_csrRd_value s 1 _ rfl⟩

/-- Settles O16: the three selectors' values, as concatenations of their fields. -/
theorem csrRdReadsWidthsAndLanes : Obligations.CsrRdReadsWidthsAndLanes := by
  refine ⟨fun s a ha => ⟨?_, ?_⟩, fun s => ?_⟩
  · rw [exec_csrRd_value s 2 _ rfl, ofProfile_active ha, ndpWidthsValue_eq]
    rfl
  · rw [exec_csrRd_value s 12 _ rfl, ofProfile_active ha, lanesValue_eq]
    rfl
  · rw [exec_csrRd_value s 3 _ rfl, normWidthsValue_eq]
    rfl

/-- Settles O17: the selector's region, and where it is present. -/
theorem csrRdReadsRegions : Obligations.CsrRdReadsRegions := by
  intro s a ha r g hg
  rw [exec_csrRd_value s _ _ (csrValue_region s r g hg), ofProfile_active ha, regionValue_eq]
  simp only [present_iff _ r g hg]
  rfl

/-- Settles O18: those selectors read constants of the active profile, and none is active. -/
theorem csrRdUnconfiguredReadsZero : Obligations.CsrRdUnconfiguredReadsZero := by
  intro s sel hv hsel
  have hzero (f : ProfileTable → Word) : s.ofProfile f = 0 := by
    rw [State.ofProfile, active_of_invalid hv]
  have hvalue : s.csrValue sel = some 0 := by
    obtain rfl | ⟨hlo, hhi⟩ := hsel
    · exact congrArg some (hzero _)
    · obtain rfl | hlt : sel = 12 ∨ sel.toNat - 4 < regions.length := by
        rw [show regions.length = 8 from rfl]
        bv_omega
      · exact congrArg some (hzero _)
      · have hregion := csrValue_region s _ _ (List.getElem?_eq_getElem hlt)
        rw [Nat.sub_add_cancel hlo, BitVec.ofNat_toNat, BitVec.setWidth_eq, hzero] at hregion
        exact hregion
  exact exec_csrRd_value s sel 0 hvalue

end Sys2Proof.Proofs
end

section
/-!
SUPPORT. The laws of the address codec (40_address_codec.md R95 to R97): what the decoders find in
an encoded address, and which bits of it an operand reaches.
-/

namespace Sys2Proof.Proofs

open Sys2Proof.Machine Sys2Proof.Laws

/-! ### An encoded address, read back (R95, R97) -/

section
variable (width : Field → Nat) (v : Field → Word) (fs : List Field) (pos : Nat)

/-- A field read back is its operand masked. -/
theorem extract_encodeFields (f : Field) (hf : f ∈ fs) (hn : fs.Nodup)
    (ht : fieldsTop width fs pos ≤ 64) :
    extract (encodeFields width v fs pos) (width f) (fieldLo width fs pos f) =
      v f &&& mask (width f) := by
  apply BitVec.eq_of_getLsbD_eq
  intro i hi
  rw [getLsbD_extract, BitVec.getLsbD_and, getLsbD_mask]
  by_cases h : i < width f
  · rw [getLsbD_encodeFields width v fs pos f hf hn i h ht]
    simp only [h, hi, decide_true, Bool.true_and, Bool.and_true]
  · simp only [h, decide_false, Bool.false_and, Bool.and_false]

/-- An encoded address is a multiple of the granularity. -/
theorem toNat_encodeFields_mod : (encodeFields width v fs pos).toNat % 2 ^ pos = 0 := by
  refine Nat.eq_of_testBit_eq fun i => ?_
  rw [Nat.testBit_mod_two_pow, BitVec.testBit_toNat, Nat.zero_testBit]
  by_cases h : i < pos
  · rw [getLsbD_encodeFields_below width v fs pos i h, Bool.and_false]
  · rw [decide_eq_false h, Bool.false_and]

/-- An encoded address has no bit above its top field. -/
theorem toNat_encodeFields_lt : (encodeFields width v fs pos).toNat < 2 ^ fieldsTop width fs pos :=
  Nat.lt_pow_two_of_testBit _ fun i h => by
    rw [BitVec.testBit_toNat, getLsbD_encodeFields_above width v fs pos i h]

/-- An encoded address raises neither flag. -/
theorem flagsWord_encodeFields :
    flagsWord (highNz (encodeFields width v fs pos) (fieldsTop width fs pos))
      (lowNz (encodeFields width v fs pos) pos) = 0 := by
  rw [flagsWord_eq_addrFlags, addrFlags,
    if_neg (Nat.not_le.mpr (toNat_encodeFields_lt width v fs pos)),
    if_neg (not_not.mpr (toNat_encodeFields_mod width v fs pos))]
  rfl

end

theorem decNdp_encNdp (t : ProfileTable) (sch : Scheme) (c : Coords) (ht : ndpTop t ≤ 64) :
    (decNdp t sch (encNdp t sch c)).words = c.masked t := by
  have hfield (f : Field) : decNdpField t sch (encNdp t sch c) f = c.get f &&& mask (t.width f) :=
    extract_encodeFields t.width c.get (ndpOrder sch) t.g f
      ((ndpOrder_perm sch).mem_iff.mpr (mem_ndpFields f))
      ((ndpOrder_perm sch).nodup_iff.mpr (by decide)) (by rw [fieldsTop_ndpOrder]; exact ht)
  simp only [decNdp, hfield, Coords.words, Coords.masked, Coords.get]

theorem decNorm_encNorm (t : NormTable) (sch : Scheme) (c : NormCoords) (ht : normTop t ≤ 64) :
    (decNorm t sch (encNorm t sch c)).words = c.masked t := by
  have hfield (f : Field) (hf : f ∈ normFields) :
      decNormField t sch (encNorm t sch c) f = c.get f &&& mask (t.width f) :=
    extract_encodeFields t.width c.get (normOrder sch) t.gn f ((normOrder_perm sch).mem_iff.mpr hf)
      ((normOrder_perm sch).nodup_iff.mpr (by decide)) (by rw [fieldsTop_normOrder]; exact ht)
  simp (disch := decide) only [decNorm, hfield, NormCoords.words, NormCoords.masked, NormCoords.get]

/-- A command that only answers leaves the next one ready. -/
theorem ready_answered {s : State} {a : Active} (h : s.Ready a) (c : BitVec 8) (rs : List Word) :
    (s.answered c rs).Ready a := h

/-- Settles O25: each field is found where it was placed, and nothing below or above the fields. -/
theorem addressRoundTrip : Obligations.AddressRoundTrip := by
  intro s a hs
  obtain ⟨hprofile, hnorm, -⟩ := tables_wellFormed s.tables
  obtain ⟨-, -, htop, -⟩ := (profileTable_wellFormed_iff _).mp (hprofile a.profile)
  obtain ⟨-, hnormTop⟩ := (normTable_wellFormed_iff _).mp hnorm
  refine ⟨fun c => ⟨_, _, exec_encNdpAddr hs c, rfl, ?_⟩,
    fun c => ⟨_, _, exec_encNormAddr hs c, rfl, ?_⟩⟩
  · rw [exec_decNdpAddr (ready_answered hs _ _)]
    have hfields := decNdp_encNdp (s.profile a) a.ndpScheme c htop
    have hflags : ndpFlags (s.profile a) a.ndpScheme (encNdp (s.profile a) a.ndpScheme c) = 0 :=
      flagsWord_encodeFields _ _ _ _
    rw [← hfields, ← hflags]
    rfl
  · rw [exec_decNormAddr (ready_answered hs _ _)]
    have hfields := decNorm_encNorm s.tables.params.norm a.normScheme c hnormTop
    have hflags : normFlags s.tables.params.norm a.normScheme
        (encNorm s.tables.params.norm a.normScheme c) = 0 := flagsWord_encodeFields _ _ _ _
    rw [← hfields, ← hflags]

/-- Settles O27: the encoders place no field below the granularity exponent. -/
theorem encodedAddressesAreAligned : Obligations.EncodedAddressesAreAligned := fun _ _ hs =>
  ⟨fun c => ⟨_, exec_encNdpAddr hs c, toNat_encodeFields_mod _ _ _ _⟩,
    fun c => ⟨_, exec_encNormAddr hs c, toNat_encodeFields_mod _ _ _ _⟩⟩

/-! ### The bits an operand reaches (R96) -/

/-- A bit outside a field's range does not depend on that field's operand. -/
theorem getLsbD_orPlaced_congr (width : Field → Nat) (v v' : Field → Word) (lo : Field → Nat)
    (f : Field) (hv : ∀ g, g ≠ f → v g = v' g) (i : Nat) (hi : i < lo f ∨ lo f + width f ≤ i)
    (fs : List Field) :
    (orPlaced width v lo fs).getLsbD i = (orPlaced width v' lo fs).getLsbD i := by
  induction fs with
  | nil => rfl
  | cons g fs ih =>
    have hplace : (place (v g) (width g) (lo g)).getLsbD i =
        (place (v' g) (width g) (lo g)).getLsbD i := by
      by_cases hg : g = f
      · subst hg
        have hout : (decide (lo g ≤ i) && decide (i - lo g < width g)) = false := by
          rw [← Bool.decide_and, decide_eq_false_iff_not]
          omega
        rw [getLsbD_place, getLsbD_place, Bool.and_assoc (decide (i < 64)), hout, Bool.and_false,
          Bool.false_and, Bool.false_and]
      · rw [hv g hg]
    rw [orPlaced, orPlaced, List.map_cons, List.map_cons, List.foldr_cons, List.foldr_cons,
      BitVec.getLsbD_or, BitVec.getLsbD_or, hplace]
    exact congrArg _ ih

/-- Settles O26: each field stands at its offset of the tables, so the others' bits are the same. -/
theorem addressFieldIndependence : Obligations.AddressFieldIndependence := by
  intro s a f hs
  obtain ⟨hndp, hnorm⟩ := scheme_codes_of_active _ _ hs.2
  refine ⟨fun c c' hc => ⟨_, _, exec_encNdpAddr hs c, exec_encNdpAddr hs c', fun i hi => ?_⟩,
    fun c c' _ hc => ⟨_, _, exec_encNormAddr hs c, exec_encNormAddr hs c', fun i hi => ?_⟩⟩
  · rw [hndp] at hi
    rw [encNdp_eq_orPlaced, encNdp_eq_orPlaced]
    exact getLsbD_orPlaced_congr _ _ _ _ f hc i hi _
  · rw [hnorm] at hi
    rw [encNorm_eq_orPlaced, encNorm_eq_orPlaced]
    exact getLsbD_orPlaced_congr _ _ _ _ f hc i hi _

end Sys2Proof.Proofs
end

section
/-!
SUPPORT. The laws of the instruction codec (41_instruction_codec.md R103, R106) and the named
instruction words (R108, R109): what is read back of an encoded word, and what a named word's fields
are.
-/

namespace Sys2Proof.Proofs

open Sys2Proof.Machine Sys2Proof.Laws

/-! ### The round trip of an NDP word (R106) -/

/-- A field placed, read at its own width, is the operand's low bits. -/
theorem slice_place_same (v : Word) (w lo : Nat) (h : lo + w ≤ 64) :
    slice (place v w lo) lo w = slice v 0 w := by
  rw [place_eq_slice_shiftLeft, ← place_zext, slice_place_zext _ _ h]

theorem place_zero (w lo : Nat) : place 0 w lo = 0 := by
  rw [place, BitVec.ofNat_eq_ofNat, BitVec.zero_and, BitVec.zero_shiftLeft]

section
variable (loopOpc : BitVec 6) (jtw : Nat) (o : NdpOperands)

/-- An NDP word as one OR of seven fields, the loop operands 0 for an opcode other than LOOP. -/
theorem encNdpWord_eq_places : encNdpWord loopOpc jtw o =
    place o.opc 6 58 ||| place o.osz 7 51 ||| place o.laneId 3 48 ||| place o.bg 3 45 |||
      place o.ba 2 43 ||| place (if slice o.opc 0 6 = loopOpc then o.loopCount else 0) 10 32 |||
      place (if slice o.opc 0 6 = loopOpc then o.jumpTarget else 0) jtw 0 := by
  by_cases h : slice o.opc 0 6 = loopOpc
  · rw [encNdpWord_loop _ _ _ h, plainWord_low, if_pos h, if_pos h]
  · rw [encNdpWord_plain _ _ _ h, plainWord_low, if_neg h, if_neg h, place_zero, place_zero,
      BitVec.ofNat_eq_ofNat, BitVec.or_zero, BitVec.or_zero]

theorem slice_encNdpWord_opc (hj : jtw ≤ 32) :
    slice (encNdpWord loopOpc jtw o) 58 6 = slice o.opc 0 6 := by
  rw [encNdpWord_eq_places]
  simp (disch := omega) only [slice_or, slice_place_same, slice_place_apart, BitVec.ofNat_eq_ofNat,
    BitVec.or_zero]

/-- The reserved bits of either format are none of the fields'. -/
theorem rsvdNz_encNdpWord (hj : jtw ≤ 32) :
    rsvdNz loopOpc jtw (encNdpWord loopOpc jtw o) = false := by
  have hopc := slice_encNdpWord_opc loopOpc jtw o hj
  rw [rsvdNz]
  by_cases h : slice o.opc 0 6 = loopOpc
  · rw [if_pos ((wordIsLoop_iff _ _).mpr (hopc.trans h)), encNdpWord_loop _ _ _ h, plainWord_low]
    simp (disch := omega) only [extract_or, extract_place_apart, BitVec.ofNat_eq_ofNat,
      BitVec.or_zero, bne_self_eq_false, Bool.or_false]
  · rw [if_neg (mt (wordIsLoop_iff _ _).mp (hopc ▸ h)), encNdpWord_plain _ _ _ h, plainWord_low]
    simp (disch := omega) only [extract_or, extract_place_apart, BitVec.ofNat_eq_ofNat,
      BitVec.or_zero, bne_self_eq_false]

/-- Decoding an encoded NDP word gives the operands masked, the loop operands for LOOP only, and no
RSVD_NZ. -/
theorem decNdpWord_encNdpWord (hj : jtw ≤ 32) :
    (decNdpWord loopOpc jtw (encNdpWord loopOpc jtw o)).words ++
        [instFlags loopOpc jtw (encNdpWord loopOpc jtw o)] =
      [o.opc &&& mask 6, o.osz &&& mask 7, o.laneId &&& mask 3, o.bg &&& mask 3, o.ba &&& mask 2,
        if slice o.opc 0 6 = loopOpc then o.loopCount &&& mask 10 else 0,
        if slice o.opc 0 6 = loopOpc then o.jumpTarget &&& mask jtw else 0,
        if slice o.opc 0 6 = loopOpc then 1 else 0] := by
  rw [instFlags, flagsWord_eq_add, rsvdNz_encNdpWord _ _ _ hj, decNdpWord]
  simp only [wordIsLoop_iff, slice_encNdpWord_opc _ _ _ hj]
  rw [encNdpWord_eq_places]
  simp (disch := omega) only [extract_or, extract_place_same, extract_place_apart, if_false,
    Bool.false_eq_true, NdpOperands.words, List.cons_append, List.nil_append, BitVec.ofNat_eq_ofNat,
    BitVec.or_zero, BitVec.zero_or, BitVec.zero_add]
  split <;> rfl

end

/-- Settles O30: the word is built and read at the jump-target width the configuration selects. -/
theorem ndpInstRoundTrip : Obligations.NdpInstRoundTrip := by
  intro s a o hs
  have hjtw : a.jtw ≤ 32 := by
    obtain ⟨-, ha⟩ | ⟨-, ha⟩ := jtw_of_active _ _ hs.2 <;> omega
  refine ⟨_, _, exec_encNdpInst hs o, rfl, ?_⟩
  rw [exec_decNdpInst (ready_answered hs _ _), toNat_jtw_of_active _ _ hs.2]
  exact congrArg (fun rs => Host.Outcome.next (State.answered 0x00 rs _))
    (decNdpWord_encNdpWord s.loopOpc a.jtw o hjtw)

/-! ### The round trip of a descriptor word (R103) -/

/-- A field of a word, read and placed back, is the word's bits of its range. -/
theorem getLsbD_place_extract (x : Word) (w lo i : Nat) :
    (place (extract x w lo) w lo).getLsbD i = (decide (lo ≤ i ∧ i < lo + w) && x.getLsbD i) := by
  rw [getLsbD_place, getLsbD_extract]
  by_cases h : lo ≤ i ∧ i < lo + w
  · have hw : i - lo < w := by omega
    rw [Nat.add_sub_cancel' h.1]
    by_cases hi : i < 64
    · simp only [h, hw, hi, decide_true, Bool.true_and, and_self]
    · rw [BitVec.getLsbD_of_ge x i (Nat.le_of_not_lt hi)]
      simp only [Bool.and_false]
  · have hout : (decide (lo ≤ i) && decide (i - lo < w)) = false := by
      rw [← Bool.decide_and, decide_eq_false_iff_not]
      omega
    rw [Bool.and_assoc (decide (i < 64)), hout, decide_eq_false h, Bool.and_false, Bool.false_and,
      Bool.false_and]

/-- Two adjacent fields of a word, read and placed back, are one field of both widths. -/
theorem place_extract_or (x : Word) (a b hi lo : Nat) (h : hi = lo + b) :
    place (extract x a hi) a hi ||| place (extract x b lo) b lo =
      place (extract x (a + b) lo) (a + b) lo := by
  apply BitVec.eq_of_getLsbD_eq
  intro i _
  rw [BitVec.getLsbD_or, getLsbD_place_extract, getLsbD_place_extract, getLsbD_place_extract,
    ← Bool.and_or_distrib_right, ← Bool.decide_or]
  exact congrArg (· && _) (decide_eq_decide.mpr (by omega))

/-- A whole word, read and placed back. -/
theorem place_extract_all (x : Word) : place (extract x 64 0) 64 0 = x := by
  apply BitVec.eq_of_getLsbD_eq
  intro i hi
  rw [getLsbD_place_extract, decide_eq_true ⟨Nat.zero_le i, by omega⟩, Bool.true_and]

/-- A descriptor word has no bit outside its ten fields (R74). -/
theorem encAccWord_decAccWord (w : Word) : encAccWord (decAccWord w) = w := by
  rw [encAccWord, decAccWord]
  simp (disch := rfl) only [place_extract_or, Nat.reduceAdd, place_extract_all]

/-- Settles O33: the ten fields read, placed back, are the word. -/
theorem accInstRoundTrip : Obligations.AccInstRoundTrip := by
  intro s a w hs
  refine ⟨_, decAccWord w, exec_decAccInst hs w, rfl, ?_⟩
  rw [exec_encAccInst (ready_answered hs _ _), encAccWord_decAccWord]

/-! ### The words of the named instructions (R71, R74, R108, R109) -/

/-- The low bits of a widened field are the field. -/
theorem slice_zext {w : Nat} (v : BitVec w) (h : w ≤ 64) : slice (zext v) 0 w = v := by
  rw [← slice_place_same (zext v) w 0 (by omega), slice_place_zext v 0 (by omega)]

section
variable (f : NdpFields) (opc : BitVec 6) (lc jt : BitVec 10)

/-- The operands' low bits, from which the word is built, are the opcode and the fields. -/
theorem slice_operands_opc : slice (f.operands opc lc jt).opc 0 6 = opc := slice_zext opc (by decide)

theorem operands_low : (f.operands opc lc jt).low = f := by
  simp (disch := decide) only [NdpOperands.low, NdpFields.operands, slice_zext]

/-- A plain word, as the encoder builds it of the name's operands. -/
theorem plainWord_eq_places : plainWord opc f =
    place (zext opc) 6 58 ||| place (zext f.osz) 7 51 ||| place (zext f.laneId) 3 48 |||
      place (zext f.bg) 3 45 ||| place (zext f.ba) 2 43 := by
  have h := plainWord_low (f.operands opc 0 0)
  rwa [slice_operands_opc, operands_low] at h

theorem encNdpWord_operands_plain (loopOpc : BitVec 6) (jtw : Nat) (h : opc ≠ loopOpc) :
    encNdpWord loopOpc jtw (f.operands opc lc jt) = plainWord opc f := by
  rw [encNdpWord_plain _ _ _ (by rwa [slice_operands_opc]), slice_operands_opc, operands_low]

theorem loopWord10_eq_places : loopWord10 opc f lc jt =
    plainWord opc f ||| place (zext lc) 10 32 ||| place (zext jt) 10 0 := by
  have h := loopWord10_low (f.operands opc lc jt) (zext lc) (zext jt)
  rwa [slice_operands_opc, operands_low, slice_zext lc (by decide), slice_zext jt (by decide)] at h

theorem loopWord9_eq_places : loopWord9 opc f lc (jt.setWidth 9) =
    plainWord opc f ||| place (zext lc) 10 32 ||| place (zext jt) 9 0 := by
  have hjt : slice (zext jt) 0 9 = jt.setWidth 9 := by
    apply BitVec.eq_of_getLsbD_eq
    intro i hi
    have hi' : i < 64 := by omega
    rw [getLsbD_slice, getLsbD_zext, BitVec.getLsbD_setWidth, Nat.zero_add, decide_eq_true hi',
      Bool.true_and]
  have h := loopWord9_low (f.operands opc lc jt) (zext lc) (zext jt)
  rwa [slice_operands_opc, operands_low, slice_zext lc (by decide), hjt] at h

theorem encNdpWord_operands_loop (jtw : Nat) :
    encNdpWord opc jtw (f.operands opc lc jt) =
      plainWord opc f ||| place (zext lc) 10 32 ||| place (zext jt) jtw 0 := by
  rw [encNdpWord_loop _ _ _ (slice_operands_opc f opc lc jt), slice_operands_opc, operands_low]
  rfl

end

/-- The opcode values of the names with a plain-format word, in the order in which a word's name is
looked for. -/
def plainOpcodes (o : NdpOpcodes) : List (BitVec 6) :=
  [opcLoadMul, o.scaleAdd, o.wbd, o.exit, o.selfExecOn, o.selfExecOff, o.vred, o.sred]

/-- The NDP opcode values are distinct (R10), LOOP's from each of the plain format. -/
theorem nodup_ndpOpcodes (t : Tables) :
    t.params.ndpOpc.loop ∉ plainOpcodes t.params.ndpOpc ∧ (plainOpcodes t.params.ndpOpc).Nodup := by
  obtain ⟨-, -, hnodup, -⟩ := tables_wellFormed t
  have hperm : t.params.ndpOpc.toList.Perm (t.params.ndpOpc.loop :: plainOpcodes t.params.ndpOpc) :=
    List.perm_middle (l₁ := [_, _, _])
  exact List.nodup_cons.mp (hperm.nodup_iff.mp hnodup)

/-- A named plain-format instruction answers its word. -/
theorem exec_plain {s : State} {a : Active} (hs : s.Ready a) (f : NdpFields) (opc : BitVec 6)
    (h : opc ≠ s.tables.params.ndpOpc.loop) :
    exec (.encNdpInst (f.operands opc 0 0)) s = .next (s.answered 0x00 [plainWord opc f]) := by
  rw [exec_encNdpInst hs, State.loopOpc, encNdpWord_operands_plain _ _ _ _ _ _ h]

/-- Settles O35: each name's command, by its format. -/
theorem namedNdpInstructionsAnswerTheirWords : Obligations.NamedNdpInstructionsAnswerTheirWords := by
  intro s a f hs
  obtain ⟨hloop, -⟩ := nodup_ndpOpcodes s.tables
  have hplain (opc : BitVec 6) (h : opc ∈ plainOpcodes s.tables.params.ndpOpc) :=
    exec_plain hs f opc fun e => hloop (e ▸ h)
  refine ⟨hplain _ ?_, hplain _ ?_, hplain _ ?_, hplain _ ?_, hplain _ ?_, hplain _ ?_, hplain _ ?_,
    hplain _ ?_, fun lc jt => ?_⟩
  case refine_9 =>
    refine (exec_encNdpInst hs _).trans ?_
    rw [State.loopOpc, encNdpWord_operands_loop]
    obtain ⟨hc, ha⟩ | ⟨hc, ha⟩ := jtw_of_active _ _ hs.2
    · rw [hc, ha, if_neg (by decide), loopWord9_eq_places]
    · rw [hc, ha, if_pos rfl, loopWord10_eq_places]
  all_goals simp [plainOpcodes]

section
variable (f : AccFields) (opc : BitVec 4)

theorem encAccWord_operands : encAccWord (f.operands opc) = accWord opc f := by
  rw [encAccWord_eq_accWord]
  simp (disch := decide) only [AccOperands.low, AccFields.operands, slice_zext]

end

/-- Settles O36: each name's command, whose operands' low bits are the opcode and the fields. -/
theorem namedDescriptorsAnswerTheirWords : Obligations.NamedDescriptorsAnswerTheirWords := by
  intro s a f hs
  have hword (opc : BitVec 4) :
      exec (.encAccInst (f.operands opc)) s = .next (s.answered 0x00 [accWord opc f]) := by
    rw [exec_encAccInst hs, encAccWord_operands]
  exact ⟨hword _, hword _, hword _, hword _, hword _, hword _, hword _, hword _⟩

/-! ### A named word, read back (R108, R109) -/

section
variable (f : NdpFields) (opc : BitVec 6) (lc jt : BitVec 10)

theorem slice_plainWord_opc : slice (plainWord opc f) 58 6 = opc := by
  rw [plainWord_eq_places]
  simp (disch := decide) only [slice_or, slice_place_zext, slice_place_apart, BitVec.ofNat_eq_ofNat,
    BitVec.or_zero]

theorem ndpFieldsOf_plainWord : ndpFieldsOf (plainWord opc f) = f := by
  rw [plainWord_eq_places]
  simp (disch := decide) only [ndpFieldsOf, slice_or, slice_place_zext, slice_place_apart,
    BitVec.ofNat_eq_ofNat, BitVec.or_zero, BitVec.zero_or]

theorem slice_loopWord10_opc : slice (loopWord10 opc f lc jt) 58 6 = opc := by
  rw [loopWord10_eq_places]
  simp (disch := decide) only [slice_or, slice_plainWord_opc, slice_place_apart,
    BitVec.ofNat_eq_ofNat, BitVec.or_zero]

theorem ndpFieldsOf_loopWord10 : ndpFieldsOf (loopWord10 opc f lc jt) = f := by
  rw [loopWord10_eq_places, plainWord_eq_places]
  simp (disch := decide) only [ndpFieldsOf, slice_or, slice_place_zext, slice_place_apart,
    BitVec.ofNat_eq_ofNat, BitVec.or_zero, BitVec.zero_or]

theorem slice_loopWord10_loopCount : slice (loopWord10 opc f lc jt) 32 10 = lc := by
  rw [loopWord10_eq_places, plainWord_eq_places]
  simp (disch := decide) only [slice_or, slice_place_zext, slice_place_apart,
    BitVec.ofNat_eq_ofNat, BitVec.or_zero, BitVec.zero_or]

/-- The jump target of a LOOP word, read at `jtw` bits (R105). -/
theorem extract_loopWord10_jumpTarget (jtw : Nat) (hj : jtw = 9 ∨ jtw = 10) :
    (extract (loopWord10 opc f lc jt) jtw 0).setWidth 10 =
      if jtw = 10 then jt else (jt.setWidth 9).setWidth 10 := by
  have hbit (i : Nat) (hi : i < 10) : (loopWord10 opc f lc jt).getLsbD i = jt.getLsbD i := by
    rw [loopWord10, BitVec.getLsbD_append, if_pos hi]
  apply BitVec.eq_of_getLsbD_eq
  intro i hi
  rw [BitVec.getLsbD_setWidth, getLsbD_extract, Nat.zero_add, hbit i hi]
  obtain rfl | rfl := hj
  · rw [if_neg (by decide), BitVec.getLsbD_setWidth, BitVec.getLsbD_setWidth]
  · rw [if_pos rfl, decide_eq_true hi, Bool.true_and, Bool.true_and]

end

section
variable (f : AccFields) (opc : BitVec 4)

theorem accWord_eq_places : accWord opc f =
    place (zext opc) 4 60 ||| place (zext f.osz) 7 53 ||| place (zext f.ch) 3 50 |||
      place (zext f.pch) 2 48 ||| place (zext f.bg) 3 45 ||| place (zext f.ba) 2 43 |||
      place (zext f.ro) 18 25 ||| place (zext f.co) 7 18 ||| place (zext f.id) 3 15 |||
      place (zext f.aux) 15 0 :=
  (encAccWord_operands f opc).symm

theorem slice_accWord_opc : slice (accWord opc f) 60 4 = opc := by
  rw [accWord_eq_places]
  simp (disch := decide) only [slice_or, slice_place_zext, slice_place_apart, BitVec.ofNat_eq_ofNat,
    BitVec.or_zero]

theorem accFieldsOf_accWord : accFieldsOf (accWord opc f) = f := by
  rw [accWord_eq_places]
  simp (disch := decide) only [accFieldsOf, slice_or, slice_place_zext, slice_place_apart,
    BitVec.ofNat_eq_ofNat, BitVec.or_zero, BitVec.zero_or]

end

/-- Settles O37: a word's fields read back, and no name looked for before its own has its opcode
value. -/
theorem namedWordsReadBackAsNamed : Obligations.NamedWordsReadBackAsNamed := by
  intro t jtw f g lc jt hj
  obtain ⟨hloop, hplain⟩ := nodup_ndpOpcodes t
  obtain ⟨-, -, -, hacc⟩ := tables_wellFormed t
  have hloadMul : (2 : BitVec 6) = opcLoadMul := rfl
  -- each opcode value differs from those looked for before it
  rw [← List.nodup_reverse] at hplain hacc
  simp only [plainOpcodes, AccOpcodes.toList, List.reverse_cons, List.reverse_nil, List.nil_append,
    List.cons_append, List.nodup_cons, List.mem_cons, List.not_mem_nil, not_or, or_false]
    at hloop hplain hacc
  simp only [nameNdpWord, nameAccWord, slice_plainWord_opc, ndpFieldsOf_plainWord,
    slice_loopWord10_opc, ndpFieldsOf_loopWord10, slice_loopWord10_loopCount,
    extract_loopWord10_jumpTarget _ _ _ _ _ hj, slice_accWord_opc, accFieldsOf_accWord, hloadMul,
    hloop, hplain, hacc, if_true, if_false, and_self]

end Sys2Proof.Proofs
end

section
/-!
SUPPORT. The laws of the packers (42_payload_packer.md R115, R116): in which order PACK_INTERLEAVED
visits its lanes, how often each, and what the payloads of a list's chunks hold.
-/

namespace Sys2Proof.Proofs

open Sys2Proof.Machine Sys2Proof.Laws

/-! ### A list in chunks (R110) -/

/-- The words of the first `c` chunks of a list are those of its first `8 * c` places. -/
theorem flatMap_chunk (ws : List Word) (c : Nat) :
    ((List.range c).flatMap fun r => (chunk ws (8 * r)).toList) =
      (List.range (8 * c)).map fun i => ws.getD i 0 := by
  induction c with
  | zero => rfl
  | succ c ih =>
    rw [List.range_succ, List.flatMap_append, ih, List.flatMap_singleton, chunk_toList, Nat.mul_succ,
      List.range_add, List.map_append, List.map_map]
    rfl

/-- A list's chunks begin with the list (R116). -/
theorem take_flatMap_chunk (ws : List Word) :
    ((List.range (chunks ws.length)).flatMap fun r => (chunk ws (8 * r)).toList).take ws.length =
      ws := by
  have hle : ws.length ≤ 8 * chunks ws.length := by
    rw [chunks]
    omega
  rw [flatMap_chunk, ← List.map_take, List.take_range, Nat.min_eq_left hle]
  refine List.ext_getElem (by rw [List.length_map, List.length_range]) fun i h h' => ?_
  rw [List.getElem_map, List.getElem_range, List.getD_eq_getElem _ _ h']

/-! ### The visits of a command with many lists (R113, R114) -/

/-- A visit comes before another: in an earlier round, or in the same round at a lower lane. -/
def VisitBefore (v w : Nat × Nat) : Prop := v.2 < w.2 ∨ (v.2 = w.2 ∧ v.1 < w.1)

theorem VisitBefore.asymm {v w : Nat × Nat} (h : VisitBefore v w) : ¬ VisitBefore w v := by
  unfold VisitBefore at *
  omega

section
variable (ls : List (List Word))

/-- Lane `l` is visited in round `r` if it has words left then. -/
theorem mem_interleavedVisits (l r : Nat) : (l, r) ∈ interleavedVisits ls ↔
    r < 128 ∧ l < ls.length ∧ 8 * r < (ls.getD l []).length := by
  simp only [interleavedVisits, List.mem_flatMap, List.mem_map, List.mem_filter, List.mem_range,
    decide_eq_true_iff, Prod.mk.injEq]
  constructor
  · rintro ⟨_, hr, _, ⟨hl, hw⟩, rfl, rfl⟩
    exact ⟨hr, hl, hw⟩
  · rintro ⟨hr, hl, hw⟩
    exact ⟨r, hr, l, ⟨hl, hw⟩, rfl, rfl⟩

theorem pairwise_interleavedVisits : (interleavedVisits ls).Pairwise VisitBefore := by
  rw [interleavedVisits, List.pairwise_flatMap]
  refine ⟨fun r _ => ?_, List.pairwise_lt_range.imp fun {r r'} hr v hv w hw => ?_⟩
  · exact List.pairwise_map.mpr ((List.pairwise_lt_range.filter _).imp fun h => .inr ⟨rfl, h⟩)
  · obtain ⟨_, -, rfl⟩ := List.mem_map.mp hv
    obtain ⟨_, -, rfl⟩ := List.mem_map.mp hw
    exact .inl hr

/-- One round visits a lane at most once. -/
theorem filter_round (p : Nat → Bool) (n l r : Nat) (hl : l < n) :
    ((((List.range n).filter p).map fun m => (m, r)).filter fun v => v.1 == l) =
      if p l then [(l, r)] else [] := by
  rw [List.filter_map]
  have hcount : ((List.range n).filter p).filter (fun m => m == l) = if p l then [l] else [] := by
    rw [List.filter_beq]
    by_cases hp : p l
    · rw [if_pos hp, List.count_eq_one_of_mem (List.nodup_range.filter p)
        (List.mem_filter.mpr ⟨List.mem_range.mpr hl, hp⟩)]
      rfl
    · rw [if_neg hp, List.count_eq_zero_of_not_mem fun h => hp (List.mem_filter.mp h).2]
      rfl
  refine (congrArg (List.map fun m => (m, r)) hcount).trans ?_
  split <;> rfl

/-- A lane's visits: one for each of its chunks, in order. -/
theorem filter_interleavedVisits (l : Nat) (words : List Word) (hl : ls[l]? = some words)
    (hw : words.length < 1024) :
    (interleavedVisits ls).filter (fun v => v.1 == l) =
      (List.range (chunks words.length)).map fun r => (l, r) := by
  obtain ⟨hlt, -⟩ := List.getElem?_eq_some_iff.mp hl
  have hget : ls.getD l [] = words := by rw [List.getD_eq_getElem?_getD, hl, Option.getD_some]
  have hlast : (List.range 128).filter (fun r => 8 * r < words.length) =
      List.range (chunks words.length) := by
    have hiff (r : Nat) : decide (8 * r < words.length) = decide (r < chunks words.length) :=
      decide_eq_decide.mpr (by rw [chunks]; omega)
    simp only [hiff]
    rw [← List.Ico.zero_bot, List.Ico.filter_lt, Nat.min_eq_right (by rw [chunks]; omega),
      List.Ico.zero_bot]
  rw [interleavedVisits, List.filter_flatMap]
  simp only [filter_round _ _ _ _ hlt, hget, decide_eq_true_iff]
  rw [flatMap_ite_singleton, hlast]

/-- All visits are those of the lanes (R116). -/
theorem length_interleavedVisits (hw : ∀ l ∈ ls, l.length < 1024) :
    (interleavedVisits ls).length = (ls.map fun l => chunks l.length).sum := by
  have hlane (l : Nat) (hl : l < ls.length) :
      ((interleavedVisits ls).map Prod.fst).count l = chunks (ls.getD l []).length := by
    rw [List.count, List.countP_map, List.countP_eq_length_filter, List.getD_eq_getElem _ _ hl]
    refine (congrArg List.length (filter_interleavedVisits ls l ls[l] (List.getElem?_eq_getElem hl)
      (hw _ (List.getElem_mem hl)))).trans ?_
    rw [List.length_map, List.length_range]
  have hmem : ∀ l ∈ (((interleavedVisits ls).map Prod.fst : List Nat) : Multiset Nat),
      l ∈ Finset.range ls.length := by
    intro l h
    obtain ⟨v, hv, rfl⟩ := List.mem_map.mp (Multiset.mem_coe.mp h)
    exact Finset.mem_range.mpr ((mem_interleavedVisits ls v.1 v.2).mp hv).2.1
  calc (interleavedVisits ls).length
      = Multiset.card (((interleavedVisits ls).map Prod.fst : List Nat) : Multiset Nat) := by
        rw [Multiset.coe_card, List.length_map]
    _ = ∑ l ∈ Finset.range ls.length, ((interleavedVisits ls).map Prod.fst).count l := by
        rw [← Multiset.sum_count_eq_card hmem]
        simp only [Multiset.coe_count]
    _ = ∑ l ∈ Finset.range ls.length, chunks (ls.getD l []).length :=
        Finset.sum_congr rfl fun l hl => hlane l (Finset.mem_range.mp hl)
    _ = ((List.range ls.length).map fun l => chunks (ls.getD l []).length).sum := rfl
    _ = (ls.map fun l => chunks l.length).sum := by
        refine congrArg List.sum (List.ext_getElem (by simp only [List.length_map, List.length_range])
          fun i h h' => ?_)
        rw [List.length_map] at h'
        rw [List.getElem_map, List.getElem_map, List.getElem_range, List.getD_eq_getElem _ _ h']

/-- The visits from one on, split off. -/
theorem drop_interleavedVisits (i : Nat) (v : Nat × Nat) (hv : (interleavedVisits ls)[i]? = some v) :
    (interleavedVisits ls).drop i = v :: (interleavedVisits ls).drop (i + 1) := by
  obtain ⟨hi, rfl⟩ := List.getElem?_eq_some_iff.mp hv
  exact List.drop_eq_getElem_cons hi

/-- A visit that comes after the `i`-th stands behind it. -/
theorem mem_drop_of_visitBefore (i : Nat) (v x : Nat × Nat) (hv : (interleavedVisits ls)[i]? = some v)
    (hx : x ∈ interleavedVisits ls) (hvx : VisitBefore v x) :
    x ∈ (interleavedVisits ls).drop (i + 1) := by
  have hsorted := pairwise_interleavedVisits ls
  rw [← List.take_append_drop i (interleavedVisits ls), drop_interleavedVisits ls i v hv]
    at hx hsorted
  obtain ⟨-, -, hbefore⟩ := List.pairwise_append.mp hsorted
  obtain h | h := List.mem_append.mp hx
  · exact absurd (hbefore x h v List.mem_cons_self) hvx.asymm
  · obtain rfl | h := List.mem_cons.mp h
    · exact absurd hvx hvx.asymm
    · exact h

/-- Where two visits in a row are of one lane, no other lane is visited after the first (R115): it
would have been visited between them. -/
theorem drained_of_same_lane (i : Nat) (v v' : Nat × Nat) (hv : (interleavedVisits ls)[i]? = some v)
    (hv' : (interleavedVisits ls)[i + 1]? = some v') (hlane : v.1 = v'.1) (w : Nat × Nat)
    (hw : w ∈ (interleavedVisits ls).drop (i + 1)) : w.1 = v.1 := by
  have hsorted := (pairwise_interleavedVisits ls).sublist (List.drop_sublist i _)
  rw [drop_interleavedVisits ls i v hv, drop_interleavedVisits ls (i + 1) v' hv'] at hsorted
  obtain ⟨hv_lt, hv'_lt⟩ := List.pairwise_cons.mp hsorted
  obtain ⟨hv'_lt, -⟩ := List.pairwise_cons.mp hv'_lt
  by_contra hne
  -- a visit after the first of the two comes after the second, or is it
  have hafter (x : Nat × Nat) (hx : x ∈ interleavedVisits ls) (hvx : VisitBefore v x) :
      x = v' ∨ VisitBefore v' x := by
    have hmem := mem_drop_of_visitBefore ls i v x hv hx hvx
    rw [drop_interleavedVisits ls (i + 1) v' hv'] at hmem
    exact (List.mem_cons.mp hmem).imp id (hv'_lt x)
  obtain ⟨hw128, hwl, hwords⟩ := (mem_interleavedVisits ls w.1 w.2).mp (List.mem_of_mem_drop hw)
  have hnext := hv_lt v' List.mem_cons_self
  have hvw : VisitBefore v w := by
    rw [drop_interleavedVisits ls (i + 1) v' hv'] at hw
    exact hv_lt w hw
  -- lane `w.1` is visited in every round up to `w.2`, so in that of `v` and in that of `v'`
  have hmem (r : Nat) (hr : r ≤ w.2) : (w.1, r) ∈ interleavedVisits ls :=
    (mem_interleavedVisits ls w.1 r).mpr ⟨by omega, hwl, by omega⟩
  have hround : v.2 < v'.2 := by
    rw [VisitBefore] at hnext
    omega
  have hround' : v'.2 ≤ w.2 := by
    obtain rfl | h := hafter w (List.mem_of_mem_drop hw) hvw
    · exact Nat.le_refl _
    · rw [VisitBefore] at h
      omega
  obtain hlt | hgt := Nat.lt_or_gt_of_ne hne
  · obtain he | h := hafter (w.1, v'.2) (hmem _ hround') (.inl hround)
    · exact hne ((congrArg Prod.fst he).trans hlane.symm)
    · rw [VisitBefore] at h
      omega
  · obtain he | h := hafter (w.1, v.2) (hmem _ (by omega)) (.inr ⟨rfl, hgt⟩)
    · exact hne ((congrArg Prod.fst he).trans hlane.symm)
    · rw [VisitBefore] at h
      omega

end

/-! ### The records of a lane (R114 to R116) -/

section
variable (t : ProfileTable) (sch : Scheme) (b : Base) (col : BitVec 7) (ls : List (List Word))

/-- Each record's lane tag and payload are those of its visit. -/
theorem map_interleavedRecords :
    (interleavedRecords t sch b col ls).map (fun r => (r.lane, r.payload)) =
      (interleavedVisits ls).map fun v => (some v.1, (chunk (ls.getD v.1 []) (8 * v.2)).toList) := by
  rw [interleavedRecords]
  refine List.ext_getElem (by simp only [List.length_map, List.length_mapIdx]) fun i h h' => ?_
  simp only [List.getElem_map, List.getElem_mapIdx, Record.lane, Record.payload]

theorem length_interleavedRecords :
    (interleavedRecords t sch b col ls).length = (interleavedVisits ls).length := List.length_mapIdx

/-- The payloads of a lane's records are its list's chunks. -/
theorem payloads_of_lane (l : Nat) (words : List Word) (hl : ls[l]? = some words)
    (hw : words.length < 1024) :
    ((interleavedRecords t sch b col ls).filter fun r => r.lane == some l).flatMap Record.payload =
      (List.range (chunks words.length)).flatMap fun r => (chunk words (8 * r)).toList := by
  have hget : ls.getD l [] = words := by rw [List.getD_eq_getElem?_getD, hl, Option.getD_some]
  have hpairs := congrArg (fun ps => (ps.filter fun p => p.1 == some l).flatMap Prod.snd)
    (map_interleavedRecords t sch b col ls)
  have hvisits : (interleavedVisits ls).filter (fun v => some v.1 == some l) =
      (List.range (chunks words.length)).map fun r => (l, r) :=
    filter_interleavedVisits ls l words hl hw
  simp only [List.filter_map, List.flatMap_map, Function.comp_def, hvisits, hget] at hpairs
  exact hpairs

/-- The records of a lane among the first ones are its visits among the first ones. -/
theorem length_filter_take (l k : Nat) :
    (((interleavedRecords t sch b col ls).take k).filter fun r => r.lane == some l).length =
      (((interleavedVisits ls).take k).filter fun v => v.1 == l).length := by
  have hpairs := congrArg (fun ps => ((ps.take k).filter fun p => p.1 == some l).length)
    (map_interleavedRecords t sch b col ls)
  simp only [← List.map_take, List.filter_map, List.length_map] at hpairs
  exact hpairs

/-- The visit that emits a record. -/
theorem visit_of_record (i : Nat) (r : Record)
    (hr : (interleavedRecords t sch b col ls)[i]? = some r) :
    ∃ v, (interleavedVisits ls)[i]? = some v ∧ r.lane = some v.1 := by
  rw [interleavedRecords, List.getElem?_mapIdx] at hr
  obtain ⟨v, hv, rfl⟩ := Option.map_eq_some_iff.mp hr
  exact ⟨v, hv, rfl⟩

/-- A lane's chunks are all emitted by the first of two records in a row of another lane (R115). -/
theorem length_filter_take_of_same_lane (i : Nat) (v v' : Nat × Nat)
    (hv : (interleavedVisits ls)[i]? = some v) (hv' : (interleavedVisits ls)[i + 1]? = some v')
    (hlane : v.1 = v'.1) (l : Nat) (words : List Word) (hl : ls[l]? = some words)
    (hw : words.length < 1024) (hne : v.1 ≠ l) :
    (((interleavedVisits ls).take (i + 1)).filter fun v => v.1 == l).length =
      chunks words.length := by
  have hdrop : ((interleavedVisits ls).drop (i + 1)).filter (fun v => v.1 == l) = [] :=
    List.filter_eq_nil_iff.mpr fun w hw' he =>
      hne ((drained_of_same_lane ls i v v' hv hv' hlane w hw').symm.trans (beq_iff_eq.mp he))
  have hall := congrArg List.length (filter_interleavedVisits ls l words hl hw)
  rwa [← List.take_append_drop (i + 1) (interleavedVisits ls), List.filter_append, hdrop,
    List.append_nil, List.length_map, List.length_range] at hall

end

/-- Settles O41: by the packers' records in closed form, a list's payloads are its chunks. -/
theorem packedRecordsHoldTheLists : Obligations.PackedRecordsHoldTheLists := by
  intro s a b hs
  refine ⟨fun col ws hw h => ?_, fun col ls hl hw h => ?_⟩
  · obtain ⟨-, hfits, -⟩ := packLinearAppendsItsRecords s a b col ws hs
    refine ⟨_, linearRecords (s.profile a) a.ndpScheme b col ws, hfits hw h, rfl, ?_, ?_⟩
    · rw [linearRecords, List.length_map, List.length_range]
    · rw [linearRecords, List.flatMap_map]
      exact take_flatMap_chunk ws
  · obtain ⟨-, hfits, -⟩ := packInterleavedAppendsItsRecords s a b col ls hs
    have hlen := (length_interleavedRecords (s.profile a) a.ndpScheme b col ls).trans
      (length_interleavedVisits ls hw)
    refine ⟨_, _, hfits hl hw (hlen ▸ h), rfl, hlen, fun l words hget => ?_⟩
    rw [payloads_of_lane _ _ _ _ _ l words hget (hw _ (List.mem_of_getElem? hget))]
    exact take_flatMap_chunk words

/-- Settles O42: by the order of the visits of the closed form. -/
theorem interleavedFairness : Obligations.InterleavedFairness := by
  intro s a b col ls hs hl hw h
  obtain ⟨-, hfits, -⟩ := packInterleavedAppendsItsRecords s a b col ls hs
  have hlen := (length_interleavedRecords (s.profile a) a.ndpScheme b col ls).trans
    (length_interleavedVisits ls hw)
  refine ⟨_, _, hfits hl hw (hlen ▸ h), rfl, fun i r r' hr hr' hlane l words hget hne => ?_⟩
  obtain ⟨v, hv, hrv⟩ := visit_of_record _ _ _ _ _ i r hr
  obtain ⟨v', hv', hrv'⟩ := visit_of_record _ _ _ _ _ (i + 1) r' hr'
  rw [hrv, hrv', Option.some.injEq] at hlane
  rw [length_filter_take]
  exact length_filter_take_of_same_lane ls i v v' hv hv' hlane l words hget
    (hw _ (List.mem_of_getElem? hget)) fun e => hne (hrv.trans (congrArg some e))

end Sys2Proof.Proofs
end

section
/-!
SUPPORT. The statement that the text form carries all but the lane tags (43_trace_record.md R127 to
R131): each value's digits determine it, every part of a line has a length of its own, and the first
letter tells which kind of record a line is.
-/

namespace Sys2Proof.Proofs

open Sys2Proof.Machine Sys2Proof.Laws

/-! ### The text of a value determines it (R129) -/

theorem hexDigit_inj : ∀ m < 16, ∀ n < 16, hexDigit m = hexDigit n → m = n := by
  decide

theorem length_hexDigits (w n : Nat) : (hexDigits w n).length = n := by
  induction n generalizing w with
  | zero => rfl
  | succ n ih => rw [hexDigits, List.length_append, ih, List.length_singleton]

/-- The low `n` digits determine a value's low `n` nibbles. -/
theorem mod_of_hexDigits_eq (n w w' : Nat) (h : hexDigits w n = hexDigits w' n) :
    w % 16 ^ n = w' % 16 ^ n := by
  induction n generalizing w w' with
  | zero => rw [Nat.pow_zero, Nat.mod_one, Nat.mod_one]
  | succ n ih =>
    rw [hexDigits, hexDigits] at h
    obtain ⟨hhigh, hlow⟩ := List.append_inj h (by rw [length_hexDigits, length_hexDigits])
    have hnibble := hexDigit_inj _ (Nat.mod_lt _ (by decide)) _ (Nat.mod_lt _ (by decide))
      (List.singleton_inj.mp hlow)
    rw [Nat.pow_succ', Nat.mod_mul, Nat.mod_mul, hnibble, ih _ _ hhigh]

theorem length_hexWord (w : Word) : (hexWord w).length = 18 := by
  rw [hexWord, List.length_cons, List.length_cons, length_hexDigits]

theorem hexWord_inj {w w' : Word} (h : hexWord w = hexWord w') : w = w' := by
  have hdigits := mod_of_hexDigits_eq 16 _ _ (List.cons.inj (List.cons.inj h).2).2
  rw [Nat.mod_eq_of_lt (by omega), Nat.mod_eq_of_lt (by omega)] at hdigits
  exact BitVec.eq_of_toNat_eq hdigits

/-- Texts that begin with a value's text have that value in common, and what stands behind it. -/
theorem hexWord_append_inj {w w' : Word} {cs cs' : List Char}
    (h : hexWord w ++ cs = hexWord w' ++ cs') : w = w' ∧ cs = cs' := by
  obtain ⟨hw, hcs⟩ := List.append_inj h (by rw [length_hexWord, length_hexWord])
  exact ⟨hexWord_inj hw, hcs⟩

/-- The texts of as many words, with a space before each. -/
theorem words_append_inj (ws ws' : List Word) (hlen : ws.length = ws'.length) (cs cs' : List Char)
    (h : (ws.flatMap fun w => ' ' :: hexWord w) ++ cs =
      (ws'.flatMap fun w => ' ' :: hexWord w) ++ cs') :
    ws = ws' ∧ cs = cs' := by
  induction ws generalizing ws' with
  | nil =>
    obtain rfl := List.eq_nil_of_length_eq_zero hlen.symm
    exact ⟨rfl, h⟩
  | cons w ws ih =>
    obtain ⟨w', ws', rfl⟩ := List.exists_cons_of_length_eq_add_one hlen.symm
    simp only [List.flatMap_cons, List.cons_append, List.append_assoc, List.cons.injEq, true_and] at h
    obtain ⟨rfl, hrest⟩ := hexWord_append_inj h
    obtain ⟨rfl, hcs⟩ := ih ws' (Nat.succ.inj hlen) hrest
    exact ⟨rfl, hcs⟩

/-! ### The text of a sequence determines it but for the lane tags (R127 to R131) -/

theorem chunk_toList_inj {c c' : Chunk} (h : c.toList = c'.toList) : c = c' := by
  cases c
  cases c'
  simpa [Chunk.toList] using h

/-- The lane tag is not written (R131). -/
theorem line_untagged (r : Record) : r.untagged.line = r.line := by
  cases r <;> rfl

/-- A line in front of a text determines its record but for the tag, and the text behind it. -/
theorem line_append_inj (r r' : Record) (cs cs' : List Char) (h : r.line ++ cs = r'.line ++ cs') :
    r.untagged = r'.untagged ∧ cs = cs' := by
  cases r with
  | ld a =>
    cases r' with
    | ld a' =>
      simp only [Record.line, List.cons_append, List.cons.injEq, true_and] at h
      obtain ⟨rfl, hcs⟩ := hexWord_append_inj h
      exact ⟨rfl, hcs⟩
    | st a' c' l' => exact absurd (List.cons.inj h).1 (by decide)
  | st a c l =>
    cases r' with
    | ld a' => exact absurd (List.cons.inj h).1 (by decide)
    | st a' c' l' =>
      simp only [Record.line, List.cons_append, List.append_assoc, List.cons.injEq, true_and] at h
      obtain ⟨rfl, hpayload⟩ := hexWord_append_inj h
      obtain ⟨hc, hcs⟩ := words_append_inj c.toList c'.toList rfl _ _ hpayload
      obtain rfl := chunk_toList_inj hc
      exact ⟨rfl, hcs⟩

theorem traceText_untagged (rs : List Record) :
    traceText (rs.map Record.untagged) = traceText rs := by
  rw [traceText, List.flatMap_map]
  simp only [line_untagged]
  rfl

theorem traceText_cons (r : Record) (rs : List Record) :
    traceText (r :: rs) = r.line ++ '\n' :: traceText rs := by
  rw [traceText, List.flatMap_cons, List.append_assoc]
  rfl

theorem traceText_cons_ne_nil (r : Record) (rs : List Record) : traceText (r :: rs) ≠ [] := by
  rw [traceText_cons]
  exact List.append_ne_nil_of_right_ne_nil _ (List.cons_ne_nil _ _)

theorem untagged_of_traceText_eq (rs rs' : List Record) (h : traceText rs = traceText rs') :
    rs.map Record.untagged = rs'.map Record.untagged := by
  induction rs generalizing rs' with
  | nil =>
    cases rs' with
    | nil => rfl
    | cons r' rs' => exact absurd h.symm (traceText_cons_ne_nil r' rs')
  | cons r rs ih =>
    cases rs' with
    | nil => exact absurd h (traceText_cons_ne_nil r rs)
    | cons r' rs' =>
      rw [traceText_cons, traceText_cons] at h
      obtain ⟨hr, hrest⟩ := line_append_inj r r' _ _ h
      rw [List.map_cons, List.map_cons, hr, ih rs' (List.cons.inj hrest).2]

/-- Settles O47: the text is read line by line, and does not depend on the tags. -/
theorem traceTextDeterminesTheRecords : Obligations.TraceTextDeterminesTheRecords := fun rs rs' =>
  ⟨untagged_of_traceText_eq rs rs', fun h => by rw [← traceText_untagged rs, h, traceText_untagged]⟩

end Sys2Proof.Proofs
end
